-- ==== Sys2Proof/Word.lean ====
section
/-!
DEFINITION. The plain types of the block's data: bytes, command words, byte strings and bit strings.
-/

namespace Sys2Proof

/-- One byte, `0..255` (R13). -/
abbrev Byte := BitVec 8

/-- The 32-bit command word (R90). -/
abbrev Word := BitVec 32

/-- A byte string: its head is first in time (R13). -/
abbrev Bytes := List Byte

/-- A bit string: its head is first in time (R12). -/
abbrev Bits := List Bool

end Sys2Proof
end

