-- ==== Sys2Proof/Machine/Mask.lean ====
section
/-!
DEFINITION. The data types of the mask table and of a decoded message head: what the body decoder is shown.
-/

namespace Sys2Proof.Machine

/-- One entry of the mask entry file `mask_e` (R28). -/
structure MaskEntry where
  /-- system id, 0 to 7 in a stored entry (R89, R198) -/
  sys : BitVec 4
  /-- satellite mask: wire bit `p` is integer bit `39 − p` (R87) -/
  sat : BitVec 40
  /-- signal mask: wire bit `q` is integer bit `15 − q` (R87) -/
  sig : BitVec 16
  /-- cell-mask-availability flag as received -/
  cma : Bool
  /-- cell mask, satellite-major (R88), received or synthesised as all ones (R197) -/
  cell : Bits
deriving DecidableEq, Repr

/-- The mask table: the header registers of R27 and the entry file of R28. Entries at an index at or
above the list's length hold no value. -/
structure MaskTable where
  valid : Bool
  epoch : BitVec 20
  ui : BitVec 4
  mmi : Bool
  iodssr : BitVec 4
  ngnss : BitVec 4
  entries : List MaskEntry
deriving DecidableEq, Repr, Inhabited

/-- A decoded CSSR message head `hd` (R83, R84, R98); the 12-bit hourly epoch is zero-extended. -/
structure Head where
  msgnum : BitVec 12
  subtype : BitVec 4
  epoch : BitVec 20
  ui : BitVec 4
  mmi : Bool
  iodssr : BitVec 4
  /-- 45, 37 or 28 bits -/
  len : Nat
deriving DecidableEq, Repr

end Sys2Proof.Machine
end

