-- ==== Sys2Proof/Machine/Operands.lean ====
section
/-!
DEFINITION. Bit strings, byte strings and the values read from them (R11 to R15), and the derived views of a mask
entry (R29).
-/

namespace Sys2Proof.Machine

/-- The unsigned value of a bit string, first bit most significant (R12). -/
def bitsToNat (s : Bits) : Nat := s.foldl (fun v b => 2 * v + b.toNat) 0

/-- `s[i : i + n]` (R12). -/
def slice {α : Type} (s : List α) (i n : Nat) : List α := (s.drop i).take n

/-- `U(s, p, n)` (R12). -/
def uval (s : Bits) (p n : Nat) : Nat := bitsToNat (slice s p n)

/-- `U(s, p, n)` as a field of `n` bits. -/
def field (s : Bits) (p n : Nat) : BitVec n := BitVec.ofNat n (uval s p n)

/-- The bit of `s` at index `p`. -/
def flag (s : Bits) (p : Nat) : Bool := s.getD p false

/-- The eight bits of a byte, most significant first (R13, R51). -/
def bitsOfByte (b : Byte) : Bits :=
  [b.getLsbD 7, b.getLsbD 6, b.getLsbD 5, b.getLsbD 4, b.getLsbD 3, b.getLsbD 2, b.getLsbD 1, b.getLsbD 0]

/-- `bits_of(b)` (R13). -/
def bitsOf (b : Bytes) : Bits := b.flatMap bitsOfByte

/-- The byte whose bits, most significant first, are the first eight of `s`; missing bits are 0. -/
def byteOfBits (s : Bits) : Byte :=
  BitVec.ofNat 8 (bitsToNat ((List.range 8).map (fun i => s.getD i false)))

/-- The first `n` bytes that carry `s`, zero bits after its last. -/
def packBytes : Nat → Bits → Bytes
  | 0, _ => []
  | n + 1, s => byteOfBits s :: packBytes n (s.drop 8)

/-- A bit string in `ceil(len / 8)` bytes (R91); `bytes_of` of R13 where the length is a multiple of 8. -/
def packBits (s : Bits) : Bytes := packBytes ((s.length + 7) / 8) s

/-- `sext_n(v)` (R14). -/
def sext (n v : Nat) : Int := if v < 2 ^ (n - 1) then v else (v : Int) - 2 ^ n

/-- The byte of `b` at index `i`; the rules read only bytes that are present. -/
def byteAt (b : Bytes) (i : Nat) : Byte := b.getD i 0

/-- `be24(b, i)` (R13). -/
def be24 (b : Bytes) (i : Nat) : BitVec 24 := byteAt b i ++ byteAt b (i + 1) ++ byteAt b (i + 2)

/-- The three bytes of a 24-bit value, most significant first (R52, R74). -/
def bytes24 (c : BitVec 24) : Bytes :=
  [c.extractLsb' 16 8, c.extractLsb' 8 8, c.extractLsb' 0 8]

/-- `popcount(v)` (R15). -/
def popcount {w : Nat} (v : BitVec w) : Nat := (List.range w).countP (fun i => v.getLsbD i)

/-- `AllZero(s)` (R15). -/
def allZero (s : Bits) : Bool := s.all (fun b => !b)

/-- `nsat(e)` (R29). -/
def nsat (e : MaskEntry) : Nat := popcount e.sat

/-- `nsig(e)` (R29). -/
def nsig (e : MaskEntry) : Nat := popcount e.sig

/-- `satlist(e)`: the satellite numbers of the set wire bits, ascending (R29, R87). -/
def satlist (e : MaskEntry) : List Nat :=
  ((List.range 40).filter (fun p => e.sat.getLsbD (39 - p))).map (· + 1)

/-- `siglist(e)`: the signal indices of the set wire bits, ascending (R29, R87). -/
def siglist (e : MaskEntry) : List Nat :=
  (List.range 16).filter (fun q => e.sig.getLsbD (15 - q))

/-- `cellbit(e, s, g)`: satellite-major (R29, R88). -/
def cellbit (e : MaskEntry) (s g : Nat) : Bool := flag e.cell (s * nsig e + g)

/-! ### What codes stand for, for a reader of the values; no command uses these -/

/-- The systems of R89. -/
inductive Gnss where
  | gps
  | glonass
  | galileo
  | beidou
  | qzss
  | sbas
  | navic
  /-- "BeiDou3-workaround" -/
  | beidou3
deriving DecidableEq, Repr

/-- The system of a system id; none for the reserved ids 8 to 15 (R89). -/
def systemOf (sys : BitVec 4) : Option Gnss :=
  match sys.toNat with
  | 0 => some .gps
  | 1 => some .glonass
  | 2 => some .galileo
  | 3 => some .beidou
  | 4 => some .qzss
  | 5 => some .sbas
  | 6 => some .navic
  | 7 => some .beidou3
  | _ => none

/-- The seconds of an update-interval code (R97, informative there). UNVERIFIED (log entry 17). -/
def updateSeconds (ui : BitVec 4) : Nat :=
  [1, 2, 5, 10, 15, 30, 60, 120, 240, 300, 600, 900, 1800, 3600, 7200, 10800].getD ui.toNat 0

end Sys2Proof.Machine
end

