-- ==== Sys2Proof/Syntax.lean ====
section
/-!
DEFINITION. The commands of the block (R94), one constructor per row of spec/opcode_table.json, and a command
as the command port delivers it (R90, R91). A constructor carries the operands its command uses; a field a
command does not use is ignored (R95) and has no place here.
-/

namespace Sys2Proof

/-- The commands of R94. Byte payloads are byte strings, bit payloads are bit strings; the payload's length
is the command's `k`. -/
inductive Instr where
  /-- R100 -/
  | nop
  /-- R101 -/
  | reset
  /-- R102: register number -/
  | rdreg (a : Byte)
  /-- R103: mode -/
  | cfgMode (a : Byte)
  /-- R111: width -/
  | bcPeek (n : Byte)
  /-- R112: width -/
  | bcRdu (n : Byte)
  /-- R113: width -/
  | bcRds (n : Byte)
  /-- R114: number of bits -/
  | bcSkip (n : BitVec 16)
  /-- R115 -/
  | bcPos
  /-- R116 -/
  | bcRem
  /-- R117: bit payload -/
  | bcAppend (p : Bits)
  /-- R118 -/
  | bcDiscard
  /-- R119 -/
  | bcClear
  /-- R133 -/
  | crcInit
  /-- R134: byte -/
  | crcUpd (b : Byte)
  /-- R135 -/
  | crcGet
  /-- R136: byte payload -/
  | crcCompute (b : Bytes)
  /-- R137: byte payload, a frame with its trailer -/
  | crcVerify (f : Bytes)
  /-- R140 -/
  | cs8Init
  /-- R141: byte -/
  | cs8Upd (b : Byte)
  /-- R142 -/
  | cs8Get
  /-- R143: byte payload -/
  | cs8Compute (b : Bytes)
  /-- R152: byte -/
  | fsPush (b : Byte)
  /-- R153 -/
  | fsStep
  /-- R172: subframe indicator (bit 0 of `a`) and bit payload -/
  | raFrag (sf : Bool) (p : Bits)
  /-- R195 -/
  | decHead
  /-- R202 -/
  | decSt1
  /-- R208 -/
  | decDrain
  /-- R214: entry index and field selector -/
  | maskRd (i : Byte) (f : BitVec 16)
  /-- R231: byte payload -/
  | rtcmEnc (p : Bytes)
  /-- R235 -/
  | pipeNext
deriving DecidableEq, Repr

/-- A command as the command port delivers it: the 32-bit word and the bytes of its payload (R90, R91). -/
structure Command where
  word : Word
  payload : Bytes
deriving DecidableEq, Repr

end Sys2Proof
end

