-- ==== Sys2Proof/WellFormed.lean ====
section
/-!
DEFINITION. Which instruction terms some command word expresses: `k` is a 16-bit count, so a payload has at most
65535 bits or bytes (R54, R90). Operand values a command's rule excludes are not ill-formed: the block answers
them with ILLEGAL_OPERAND (R95).
-/

namespace Sys2Proof

/-- The largest payload count the 16-bit field `k` holds. -/
abbrev maxPayload : Nat := 65535

def Instr.wellFormed : Instr → Bool
  | .nop | .reset | .rdreg _ | .cfgMode _ | .bcPeek _ | .bcRdu _ | .bcRds _ | .bcSkip _ | .bcPos | .bcRem => true
  | .bcAppend p => p.length ≤ maxPayload
  | .bcDiscard | .bcClear | .crcInit | .crcUpd _ | .crcGet => true
  | .crcCompute b => b.length ≤ maxPayload
  | .crcVerify f => f.length ≤ maxPayload
  | .cs8Init | .cs8Upd _ | .cs8Get => true
  | .cs8Compute b => b.length ≤ maxPayload
  | .fsPush _ | .fsStep => true
  | .raFrag _ p => p.length ≤ maxPayload
  | .decHead | .decSt1 | .decDrain | .maskRd _ _ => true
  | .rtcmEnc p => p.length ≤ maxPayload
  | .pipeNext => true

end Sys2Proof
end

