-- ==== Sys2Proof/Decode.lean ====
section
/-!
DEFINITION. Decoding a delivered command (R90, R91, R94, R95), total on any word and payload, and encoding one.
-/

namespace Sys2Proof

open Sys2Proof.Machine

/-- `op` = bits 31:24 (R90). -/
def opOf (w : Word) : Byte := w.extractLsb' 24 8

/-- `a` = bits 23:16 (R90). -/
def aOf (w : Word) : Byte := w.extractLsb' 16 8

/-- `k` = bits 15:0 (R90). -/
def kOf (w : Word) : BitVec 16 := w.extractLsb' 0 16

/-- Why a delivery is no command: an unassigned opcode (R95), or a payload whose byte count is not the one the
word states (R91). -/
inductive DecodeError where
  | illegalCommand (op : Byte)
  | payloadMismatch (stated delivered : Nat)
deriving DecidableEq, Repr

/-- What follows a command's word (the table's `payload` column, R94). -/
inductive PayloadForm where
  | none
  | bytes
  | bits
deriving DecidableEq, Repr

/-- How many bytes carry a payload of `k` units (R91). -/
def PayloadForm.byteCount (f : PayloadForm) (k : Nat) : Nat :=
  match f with
  | .none => 0
  | .bytes => k
  | .bits => (k + 7) / 8

/-- The payload form of an opcode (R94); `none` for an unassigned opcode too. -/
def payloadForm (op : Byte) : PayloadForm :=
  match op.toNat with
  | 0x16 | 0x40 => .bits
  | 0x23 | 0x24 | 0x2B | 0x60 => .bytes
  | _ => .none

/-- How many payload bytes the word states. -/
def payloadLength (w : Word) : Nat := (payloadForm (opOf w)).byteCount (kOf w).toNat

/-- The instruction of a word whose payload is present (R94). The bits after a bit payload's `k`-th are
ignored (R91); of RA.FRAG's `a` only bit 0 is read (R172). -/
def decodeOp (w : Word) (payload : Bytes) : Except DecodeError Instr :=
  let a := aOf w
  let k := kOf w
  let bits := (bitsOf payload).take k.toNat
  match (opOf w).toNat with
  | 0x00 => .ok .nop
  | 0x01 => .ok .reset
  | 0x02 => .ok (.rdreg a)
  | 0x03 => .ok (.cfgMode a)
  | 0x10 => .ok (.bcPeek a)
  | 0x11 => .ok (.bcRdu a)
  | 0x12 => .ok (.bcRds a)
  | 0x13 => .ok (.bcSkip k)
  | 0x14 => .ok .bcPos
  | 0x15 => .ok .bcRem
  | 0x16 => .ok (.bcAppend bits)
  | 0x17 => .ok .bcDiscard
  | 0x18 => .ok .bcClear
  | 0x20 => .ok .crcInit
  | 0x21 => .ok (.crcUpd a)
  | 0x22 => .ok .crcGet
  | 0x23 => .ok (.crcCompute payload)
  | 0x24 => .ok (.crcVerify payload)
  | 0x28 => .ok .cs8Init
  | 0x29 => .ok (.cs8Upd a)
  | 0x2A => .ok .cs8Get
  | 0x2B => .ok (.cs8Compute payload)
  | 0x30 => .ok (.fsPush a)
  | 0x31 => .ok .fsStep
  | 0x40 => .ok (.raFrag (a.getLsbD 0) bits)
  | 0x50 => .ok .decHead
  | 0x51 => .ok .decSt1
  | 0x52 => .ok .decDrain
  | 0x53 => .ok (.maskRd a k)
  | 0x60 => .ok (.rtcmEnc payload)
  | 0x61 => .ok .pipeNext
  | _ => .error (.illegalCommand (opOf w))

/-- The instruction of a delivered command. An unassigned opcode is judged first, whatever payload came with it
(R263; DESIGN CHOICE, log entry 5). -/
def decode (c : Command) : Except DecodeError Instr :=
  match decodeOp c.word c.payload with
  | .error e => .error e
  | .ok i =>
    if c.payload.length = payloadLength c.word then .ok i
    else .error (.payloadMismatch (payloadLength c.word) c.payload.length)

/-- The command word with the given fields (R90). -/
def wordOf (op a : Byte) (k : BitVec 16) : Word := op ++ a ++ k

/-- A command word without operands. -/
def bare (op : Byte) : Command := ⟨wordOf op 0 0, []⟩

/-- A command word whose operand is `a`. -/
def withA (op a : Byte) : Command := ⟨wordOf op a 0, []⟩

/-- A command with a byte payload. -/
def withBytes (op : Byte) (b : Bytes) : Command := ⟨wordOf op 0 (BitVec.ofNat 16 b.length), b⟩

/-- A command with a bit payload, zero bits after its last. -/
def withBits (op a : Byte) (p : Bits) : Command := ⟨wordOf op a (BitVec.ofNat 16 p.length), packBits p⟩

/-- The command that expresses an instruction: unused fields and pad bits 0 (R90, R91, R94). -/
def encode : Instr → Command
  | .nop => bare 0x00
  | .reset => bare 0x01
  | .rdreg a => withA 0x02 a
  | .cfgMode a => withA 0x03 a
  | .bcPeek n => withA 0x10 n
  | .bcRdu n => withA 0x11 n
  | .bcRds n => withA 0x12 n
  | .bcSkip n => ⟨wordOf 0x13 0 n, []⟩
  | .bcPos => bare 0x14
  | .bcRem => bare 0x15
  | .bcAppend p => withBits 0x16 0 p
  | .bcDiscard => bare 0x17
  | .bcClear => bare 0x18
  | .crcInit => bare 0x20
  | .crcUpd b => withA 0x21 b
  | .crcGet => bare 0x22
  | .crcCompute b => withBytes 0x23 b
  | .crcVerify f => withBytes 0x24 f
  | .cs8Init => bare 0x28
  | .cs8Upd b => withA 0x29 b
  | .cs8Get => bare 0x2A
  | .cs8Compute b => withBytes 0x2B b
  | .fsPush b => withA 0x30 b
  | .fsStep => bare 0x31
  | .raFrag sf p => withBits 0x40 (if sf then 1 else 0) p
  | .decHead => bare 0x50
  | .decSt1 => bare 0x51
  | .decDrain => bare 0x52
  | .maskRd i f => ⟨wordOf 0x53 i f, []⟩
  | .rtcmEnc p => withBytes 0x60 p
  | .pipeNext => bare 0x61

/-- The `n` bytes of `w` from its bit 0 up, the least significant first. -/
def lowBytes : Nat → Nat → Bytes
  | 0, _ => []
  | n + 1, w => BitVec.ofNat 8 w :: lowBytes n (w / 256)

/-- The command whose bits are `w`, numbered as the opcode table numbers them (log entry 18): bits 31:0 are the
command word, byte `j` of the payload is bits `39 + 8j : 32 + 8j`; bits at or above `nbits` are 0. -/
def commandOfBits (nbits w : Nat) : Command :=
  let v := w % 2 ^ nbits
  let word : Word := BitVec.ofNat 32 v
  ⟨word, lowBytes (payloadLength word) (v / 2 ^ 32)⟩

/-- What the decoder reads from the command whose bits are `w`; none where it rejects. -/
def decodeTableWord (nbits w : Nat) : Option Instr :=
  match decode (commandOfBits nbits w) with
  | .ok i => some i
  | .error _ => none

end Sys2Proof
end

