-- ==== Sys2Proof/Config.lean ====
section
/-!
DEFINITION. What one instance of the block fixes: the constants and parameters of R7 and the body decoder of
R206. The operations of the machine take a `Chip`, so what is proved of them holds for every setting of the
parameters and every conforming body decoder; `Config.chip` is the setting `exec` and `step` run with, `execFor` and `stepFor` run with
any.
-/

namespace Sys2Proof

/-- The two rejection codes the body port admits (R206): 0x07 and 0x0F. -/
inductive BodyReject where
  | gridCountMismatch
  | bodyError
deriving DecidableEq, Repr

/-- The body decoder's answer (R206). `rec` is the opaque record, which the block passes on unread.
DESIGN CHOICE (log entry 8): it is a bit string, which can carry any record. -/
inductive BodyAnswer where
  | needMoreData
  | consumed (nb : Nat) (rec : Bits)
  | reject (c : BodyReject)
deriving DecidableEq, Repr

/-- A body decoder that meets the contract of R206: a function of the mask table, the head, the stale bit
and the bits after the head (a), all or nothing by the shape of its answer (b), and prefix-stable (c). The
defaults serve only to show that such a decoder exists. -/
structure BodyDecoder where
  answer : Machine.MaskTable → Machine.Head → Bool → Bits → BodyAnswer := fun _ _ _ _ => .needMoreData
  /-- `0 <= nb <= len(t)` -/
  consumed_le : ∀ M hd st t nb r, answer M hd st t = .consumed nb r → nb ≤ t.length := by intros; contradiction
  /-- (c): the same answer on every bit string that begins with the consumed bits -/
  consumed_prefix : ∀ M hd st t nb r, answer M hd st t = .consumed nb r →
    ∀ t', t'.take nb = t.take nb → answer M hd st t' = .consumed nb r := by intros; contradiction
  /-- (c): `NeedMoreData` on every proper prefix of the consumed bits -/
  consumed_short : ∀ M hd st t nb r, answer M hd st t = .consumed nb r →
    ∀ m, m < nb → answer M hd st (t.take m) = .needMoreData := by intros; contradiction
  /-- (c): a rejection stands on every extension -/
  reject_extends : ∀ M hd st t c, answer M hd st t = .reject c →
    ∀ u, answer M hd st (t ++ u) = .reject c := by intros; contradiction
deriving Inhabited

/-- The parameters of R7 and the body decoder: what is fixed when an instance is built (R281). -/
structure Chip where
  /-- `L6_PRE`, the broadcast preamble -/
  l6Pre : Vector Byte 4
  /-- `FRAG_SKIP_BITS` -/
  fragSkipBits : Nat
  /-- `FRAG_PAYLOAD_BITS` -/
  fragPayloadBits : Nat
  /-- `FS_CAP`, bytes -/
  fsCap : Nat
  /-- `BB_CAP`, bits -/
  bbCap : Nat
  /-- `CRC_POLY`, the generator with its bit 24 -/
  crcPoly : BitVec 25
  /-- `CRC_INIT` -/
  crcInit : BitVec 24
  body : BodyDecoder

namespace Config

/-! ### The constants of R7 -/

/-- `MSGNUM` -/
abbrev msgnum : Nat := 4073
/-- `RTCM_PRE` -/
abbrev rtcmPre : Byte := 0xD3
/-- `RTCM_MAXLEN` -/
abbrev rtcmMaxLen : Nat := 1023
/-- `L6_FRAME`, bytes -/
abbrev l6Frame : Nat := 250
/-- `L6_DATA`, bytes -/
abbrev l6Data : Nat := 212
/-- `L6_RS`, bytes; removed with the frame and never read (R79, R155) -/
abbrev l6Rs : Nat := 32
/-- `MAX_PARTS` -/
abbrev maxParts : Nat := 6
/-- `HEAD1_BITS` -/
abbrev head1Bits : Nat := 45
/-- `HEADN_BITS` -/
abbrev headNBits : Nat := 37
/-- `HEAD10_BITS` -/
abbrev head10Bits : Nat := 28
/-- `GNSS_ENTRY_BITS` -/
abbrev gnssEntryBits : Nat := 61
/-- `MAX_GNSS` -/
abbrev maxGnss : Nat := 15

/-- The body decoder behind the body port: a free value (R206, log entry 7). -/
opaque bodyDecoder : BodyDecoder

/-- The instance the machine runs with: every parameter at the default of R7. DESIGN CHOICE of the spec
(D9, D15, D18, D19, D24; log entry 6). -/
def chip : Chip where
  l6Pre := #v[0x1A, 0xCF, 0xFC, 0x1D]
  fragSkipBits := 1
  fragPayloadBits := 1695
  fsCap := 4096
  bbCap := 16384
  crcPoly := 0x1864CFB
  crcInit := 0
  body := bodyDecoder

end Config

/-- The constraints R7 lays on the parameters; `CRC_POLY` is a generator of degree 24 (R131). -/
abbrev Chip.Ok (C : Chip) : Prop :=
  1029 ≤ C.fsCap ∧ Config.maxParts * C.fragPayloadBits ≤ C.bbCap ∧ 8184 ≤ C.bbCap ∧
  C.fragSkipBits + C.fragPayloadBits ≤ 8 * Config.l6Data ∧ C.crcPoly.msb = true

end Sys2Proof
end

