-- ==== Sys2Proof/Machine/State.lean ====
section
/-!
DEFINITION. The state of the machine as plain data: the session of rules R23 to R31, and the two ports through which
the host drives it.
-/

namespace Sys2Proof.Machine

/-- `fs_mode` (R25): 0 = RTCM3, 1 = L6. -/
inductive FsMode where
  | rtcm3
  | l6
deriving DecidableEq, Repr

/-- `fs_state` (R25): the five states of the frame synchroniser; the codes 5 to 7 never occur. -/
inductive FsState where
  | searchingSync
  | haveLength
  | havePayload
  | validated
  | crcFail
deriving DecidableEq, Repr

/-- `ra_state` (R26). -/
inductive RaState where
  | idle
  | accumulating
deriving DecidableEq, Repr

/-- The state of one session: exactly the elements of R23 to R31 (R20). -/
structure Session where
  /-- `crc`, R23 -/
  crc : BitVec 24
  /-- `ck_a`, R23 -/
  ckA : Byte
  /-- `ck_b`, R23 -/
  ckB : Byte
  /-- `bb`, R24 -/
  bb : Bits
  /-- `bb_pos`, R24 -/
  bbPos : Nat
  /-- `fs_mode`, R25 -/
  fsMode : FsMode
  /-- `fs_buf`, R25 -/
  fsBuf : Bytes
  /-- `fs_state`, R25 -/
  fsState : FsState
  /-- `fs_len`, R25 -/
  fsLen : BitVec 10
  /-- `ra_state`, R26 -/
  raState : RaState
  /-- `ra_part`, R26 -/
  raPart : Nat
  /-- `ra_sfn`, R26 -/
  raSfn : Byte
  /-- `mask_*` and `mask_e`, R27, R28 -/
  mask : MaskTable
  /-- `stat_msg_bits`, R30 -/
  statMsg : BitVec 32
  /-- `stat_null_bits`, R30 -/
  statNull : BitVec 32
  /-- `stat_drop_bits`, R30 -/
  statDrop : BitVec 32
  /-- `fatal`, R31: 0, or the code of the first fatal condition -/
  fatal : Byte
deriving DecidableEq, Repr

/-- One event of a response (R93); `nbits` is the number of bits the event removed from `bb`. -/
inductive Event where
  | maskUpdate (nbits : Nat)
  | record (subtype : BitVec 4) (stale : Bool) (nbits : Nat) (rec : Bits)
  | error (code : Byte) (nbits : Nat)
  | cleanEnd (nbits : Nat)
  | partOverflow (nbits : Nat)
  | abandon (nbits : Nat)
deriving DecidableEq, Repr

/-- The `data` part of a response: a byte string or a bit string (R92). -/
inductive Data where
  | bytes (b : Bytes)
  | bits (s : Bits)
deriving DecidableEq, Repr

/-- A response (R92): `value` is 0, `data` and `events` are empty unless the rule says otherwise. -/
structure Response where
  status : Byte
  value : BitVec 64 := 0
  data : Data := .bytes []
  events : List Event := []
deriving DecidableEq, Repr

/-- The machine: one session and the two ports. `cmds` holds the commands the host has delivered and the block has
not run yet, oldest first (log entry 1); `resps` the responses returned, newest first (log entry 2). -/
structure State where
  ses : Session
  cmds : List Command
  resps : List Response
deriving DecidableEq, Repr

/-- Why a step stops. -/
inductive Fault where
  /-- Raised by `step` alone, for a delivery whose payload has not the byte count its word states: R91 calls it
  a host error outside the model (log entry 4). Safe: the model stops where the spec says nothing. -/
  | payloadMismatch
deriving DecidableEq, Repr

/-- Why an instruction has no meaning. -/
inductive Refusal where
  /-- Raised by an arm of `exec` for an instruction without a meaning; no arm of this model raises it. Safe. -/
  | notModelled (mnemonic : String)
deriving DecidableEq, Repr

/-- No mask table: every header register 0, no entry holds a value (R44). -/
def MaskTable.empty : MaskTable where
  valid := false
  epoch := 0
  ui := 0
  mmi := false
  iodssr := 0
  ngnss := 0
  entries := []

/-- The reset values of R44 in an instance; `crc` takes its `CRC_INIT`. -/
def Session.resetFor (C : Chip) : Session where
  crc := C.crcInit
  ckA := 0
  ckB := 0
  bb := []
  bbPos := 0
  fsMode := .rtcm3
  fsBuf := []
  fsState := .searchingSync
  fsLen := 0
  raState := .idle
  raPart := 0
  raSfn := 0
  mask := MaskTable.empty
  statMsg := 0
  statNull := 0
  statDrop := 0
  fatal := 0

/-- The reset values of R44 with the default parameters. -/
def Session.reset : Session := Session.resetFor Config.chip

/-- An instance right after power-on reset (R280): the session of R44, nothing on either port. -/
def State.resetFor (C : Chip) : State where
  ses := Session.resetFor C
  cmds := []
  resps := []

/-- The machine right after power-on reset: the instance with the default parameters. -/
def State.reset : State := State.resetFor Config.chip

end Sys2Proof.Machine
end

