-- ==== Sys2Proof/Machine/Flags.lean ====
section
/-!
DEFINITION. The status codes (R250) and every packing of state into the words the host reads: the register map
(R40 to R42), the event word (R93), the head value (R98), `RaValue` (R172). The block has no condition codes
(R32).
-/

namespace Sys2Proof.Machine

/-! ### Status codes (R250) -/

def Status.ok : Byte := 0x00
def Status.needMoreData : Byte := 0x01
def Status.checksumMismatch : Byte := 0x02
def Status.unknownMessageNumber : Byte := 0x03
def Status.unknownSubtype : Byte := 0x04
def Status.maskNotEstablished : Byte := 0x05
/-- The name's code; never a status (R255). -/
def Status.iodMismatch : Byte := 0x06
def Status.gridCountMismatch : Byte := 0x07
def Status.unsupported : Byte := 0x08
def Status.partOverflow : Byte := 0x09
def Status.illegalCommand : Byte := 0x0A
def Status.illegalOperand : Byte := 0x0B
def Status.reservedSystemId : Byte := 0x0C
def Status.noStart : Byte := 0x0D
def Status.startRejected : Byte := 0x0E
def Status.bodyError : Byte := 0x0F
def Status.wrongSubtype : Byte := 0x10
def Status.bufferExhausted : Byte := 0x80
def Status.unsynchronizable : Byte := 0x81

/-- The code a body rejection is reported with (R206). -/
def rejectCode : BodyReject → Byte
  | .gridCountMismatch => Status.gridCountMismatch
  | .bodyError => Status.bodyError

/-! ### Registers (R40 to R42) -/

/-- The code of `fs_mode` (R25). -/
def fsModeBit : FsMode → Bool
  | .rtcm3 => false
  | .l6 => true

/-- The code of `fs_state` (R25). -/
def fsStateCode : FsState → BitVec 3
  | .searchingSync => 0
  | .haveLength => 1
  | .havePayload => 2
  | .validated => 3
  | .crcFail => 4

/-- The code of `ra_state` (R26). -/
def raStateBit : RaState → Bool
  | .idle => false
  | .accumulating => true

/-- STATUS (R41). -/
def statusReg (s : Session) : BitVec 16 :=
  s.fatal ++ 0#1 ++ fsStateCode s.fsState ++ BitVec.ofBool (fsModeBit s.fsMode) ++
    BitVec.ofBool (raStateBit s.raState) ++ BitVec.ofBool s.mask.valid ++ BitVec.ofBool (s.fatal != 0)

/-- MASK_HDR (R42): reads 0 while no mask table exists. -/
def maskHdr (m : MaskTable) : BitVec 33 :=
  if m.valid then m.epoch ++ m.ui ++ BitVec.ofBool m.mmi ++ m.ngnss ++ m.iodssr else 0

/-- The register numbers of R40, each value zero-extended from its width; none for a reserved number. -/
def readReg (s : Session) (a : Nat) : Option (BitVec 64) :=
  match a with
  | 0 => some ((statusReg s).setWidth 64)
  | 1 => some (s.crc.setWidth 64)
  | 2 => some ((s.ckA ++ s.ckB).setWidth 64)
  | 3 => some ((BitVec.ofNat 32 s.bbPos).setWidth 64)
  | 4 => some ((BitVec.ofNat 32 s.bb.length).setWidth 64)
  | 5 => some (s.fsLen.setWidth 64)
  | 6 => some ((BitVec.ofNat 32 s.fsBuf.length).setWidth 64)
  | 7 => some ((s.raSfn ++ BitVec.ofNat 8 s.raPart).setWidth 64)
  | 8 => some ((maskHdr s.mask).setWidth 64)
  | 9 => some (s.statMsg.setWidth 64)
  | 10 => some (s.statNull.setWidth 64)
  | 11 => some (s.statDrop.setWidth 64)
  | _ => none

/-- `RaValue() = ra_state + 256 × ra_part + 65536 × ra_sfn` (R172). -/
def raValue (s : Session) : BitVec 64 :=
  BitVec.ofNat 64 ((raStateBit s.raState).toNat + 256 * s.raPart + 65536 * s.raSfn.toNat)

/-! ### Event word and head value -/

/-- The number of bits an event removed from `bb` (R93). -/
def eventBits : Event → Nat
  | .maskUpdate n => n
  | .record _ _ n _ => n
  | .error _ n => n
  | .cleanEnd n => n
  | .partOverflow n => n
  | .abandon n => n

/-- `kind` (R93). -/
def eventKind : Event → Byte
  | .maskUpdate _ => 1
  | .record _ _ _ _ => 2
  | .error _ _ => 3
  | .cleanEnd _ => 4
  | .partOverflow _ => 5
  | .abandon _ => 6

/-- `code` (R93). -/
def eventCode : Event → Byte
  | .maskUpdate _ => 1
  | .record st _ _ _ => st.setWidth 8
  | .error c _ => c
  | .cleanEnd _ => 0
  | .partOverflow _ => Status.partOverflow
  | .abandon _ => 0

/-- `stale` (R93, R204). -/
def eventStale : Event → Bool
  | .record _ stale _ _ => stale
  | .maskUpdate _ | .error _ _ | .cleanEnd _ | .partOverflow _ | .abandon _ => false

/-- The event word (R93). -/
def eventWord (e : Event) : BitVec 64 :=
  BitVec.ofNat 32 (eventBits e) ++ 0#15 ++ BitVec.ofBool (eventStale e) ++ eventCode e ++ eventKind e

/-- The head value (R98). -/
def packHead (hd : Head) : BitVec 64 :=
  0#11 ++ BitVec.ofNat 8 hd.len ++ hd.iodssr ++ BitVec.ofBool hd.mmi ++ hd.ui ++ hd.epoch ++ hd.subtype ++ hd.msgnum

end Sys2Proof.Machine
end

