-- ==== Sys2Proof/Machine/Ops.lean ====
section
/-!
DEFINITION. The operations every command is made of: answering, the fatal latch and its gate (R262), cutting the bit
buffer (R63), and counting bits (R30).
-/

namespace Sys2Proof.Machine

/-- The outcome of a step of this machine. -/
abbrev Result := Host.Outcome State Fault Refusal

/-- What a command does to a session: the session after it and its response (R55). -/
abbrev Reply := Session × Response

/-- The machine after a command has answered. -/
def State.reply (s : State) (r : Reply) : State :=
  { s with ses := r.1, resps := r.2 :: s.resps }

/-- End the command with an answer. -/
def respond (s : State) (r : Reply) : Result := .next (s.reply r)

/-- `return S` (R15): status `S`, nothing else, the session unchanged. -/
def answer (s : Session) (status : Byte) : Reply := (s, { status := status })

/-- `return OK, value v` with the session unchanged. -/
def answerValue (s : Session) (v : BitVec 64) : Reply := (s, { status := Status.ok, value := v })

/-- `raise Fatal(c)` (R15, R262): the latch takes `c`, every other element stays as it was before the command, and
the command returns `c` with `value` 0, no data and no events. This is the block's one exception entry. -/
def raiseFatal (s : Session) (c : Byte) : Reply := ({ s with fatal := c }, { status := c })

/-- The fatal gate (R262): while `fatal` is set the command returns it and changes nothing. -/
def gated (f : Session → Reply) (s : State) : Result :=
  if s.ses.fatal = 0 then respond s (f s.ses) else respond s (answer s.ses s.ses.fatal)

/-- `rem = len(bb) − bb_pos` (R110). -/
def remBits (s : Session) : Nat := s.bb.length - s.bbPos

/-- `Normalize()` (R63). -/
def normalize (s : Session) : Session := { s with bb := s.bb.drop s.bbPos, bbPos := 0 }

/-- `stat_drop_bits += n`, modulo 2^32 (R30). -/
def addDrop (s : Session) (n : Nat) : Session := { s with statDrop := s.statDrop + BitVec.ofNat 32 n }

/-- `stat_null_bits += n`, modulo 2^32 (R30). -/
def addNull (s : Session) (n : Nat) : Session := { s with statNull := s.statNull + BitVec.ofNat 32 n }

/-- `stat_msg_bits += n`, modulo 2^32 (R30). -/
def addMsg (s : Session) (n : Nat) : Session := { s with statMsg := s.statMsg + BitVec.ofNat 32 n }

/-- Remove the first `n` bits of a normalised `bb`. -/
def cutFront (s : Session) (n : Nat) : Session := { s with bb := s.bb.drop n, bbPos := 0 }

/-- `bb <- empty; bb_pos <- 0`. -/
def clearBits (s : Session) : Session := { s with bb := [], bbPos := 0 }

/-- The reassembler goes IDLE and keeps `ra_sfn` (R176, R179). -/
def raIdle (s : Session) : Session := { s with raState := .idle, raPart := 0 }

/-- The reassembler goes IDLE and its position in the frame is unknown (R179). -/
def raLost (s : Session) : Session := { s with raState := .idle, raPart := 0, raSfn := 0 }

end Sys2Proof.Machine
end

