-- ==== Sys2Proof/Machine/Cursor.lean ====
section
/-!
DEFINITION. The bit cursor's commands (41_bitcursor.md).
-/

namespace Sys2Proof.Machine

/-- The bound check of the reads (R111 to R113): the width must be 1 to 64 and that many bits must be left;
otherwise nothing changes. -/
def boundedRead (n : Nat) (s : Session) (ok : Reply) : Reply :=
  if n = 0 ∨ n > 64 then answer s Status.illegalOperand
  else if n > remBits s then answer s Status.needMoreData
  else ok

/-- The session with the cursor moved `n` bits on. -/
def advance (s : Session) (n : Nat) : Session := { s with bbPos := s.bbPos + n }

/-- BC.PEEK on a session (R111). -/
def peekOp (n : Nat) (s : Session) : Reply :=
  boundedRead n s (answerValue s (BitVec.ofNat 64 (uval s.bb s.bbPos n)))

/-- BC.RDU on a session (R112). -/
def rduOp (n : Nat) (s : Session) : Reply :=
  boundedRead n s (answerValue (advance s n) (BitVec.ofNat 64 (uval s.bb s.bbPos n)))

/-- BC.RDS on a session (R113): the value is the 64-bit two's-complement pattern of `sext_n`. -/
def rdsOp (n : Nat) (s : Session) : Reply :=
  boundedRead n s (answerValue (advance s n) (BitVec.ofInt 64 (sext n (uval s.bb s.bbPos n))))

/-- BC.SKIP on a session (R114). -/
def skipOp (n : Nat) (s : Session) : Reply :=
  if n > remBits s then answer s Status.needMoreData else answer (advance s n) Status.ok

/-- BC.APPEND on a session (R117). -/
def appendOp (C : Chip) (p : Bits) (s : Session) : Reply :=
  if s.bb.length + p.length > C.bbCap then raiseFatal s Status.bufferExhausted
  else answer { s with bb := s.bb ++ p } Status.ok

/-- BC.POS on a session (R115). -/
def posOp (s : Session) : Reply := answerValue s (BitVec.ofNat 64 s.bbPos)

/-- BC.REM on a session (R116). -/
def remOp (s : Session) : Reply := answerValue s (BitVec.ofNat 64 (remBits s))

/-- BC.DISCARD on a session (R118). -/
def discardOp (s : Session) : Reply := answer (normalize s) Status.ok

/-- BC.CLEAR on a session (R119). -/
def clearOp (s : Session) : Reply := answer (clearBits s) Status.ok

/-- BC.PEEK (R111). -/
def execBcPeek (n : Byte) (s : State) : Result := gated (peekOp n.toNat) s

/-- BC.RDU (R112). -/
def execBcRdu (n : Byte) (s : State) : Result := gated (rduOp n.toNat) s

/-- BC.RDS (R113). -/
def execBcRds (n : Byte) (s : State) : Result := gated (rdsOp n.toNat) s

/-- BC.SKIP (R114). -/
def execBcSkip (n : BitVec 16) (s : State) : Result := gated (skipOp n.toNat) s

/-- BC.POS (R115). -/
def execBcPos (s : State) : Result := gated posOp s

/-- BC.REM (R116). -/
def execBcRem (s : State) : Result := gated remOp s

/-- BC.APPEND (R117). -/
def execBcAppend (p : Bits) (s : State) : Result := gated (appendOp Config.chip p) s

/-- BC.DISCARD (R118). -/
def execBcDiscard (s : State) : Result := gated discardOp s

/-- BC.CLEAR (R119): the reassembler is not told. -/
def execBcClear (s : State) : Result := gated clearOp s

end Sys2Proof.Machine
end

