-- ==== Sys2Proof/Machine/Integrity.lean ====
section
/-!
DEFINITION. CRC24Q and the 8-bit double-accumulator checksum (42_integrity.md): two unrelated functions (R144).
-/

namespace Sys2Proof.Machine

/-! ### CRC24Q (R131) -/

/-- One shift of the bitwise form: `c << 1`, and the generator if bit 24 came out set. -/
def crcShift (poly : BitVec 25) (c : BitVec 24) : BitVec 24 :=
  let d : BitVec 25 := c.setWidth 25 <<< 1
  (if d.getLsbD 24 then d ^^^ poly else d).setWidth 24

/-- `n` shifts. -/
def crcShifts (poly : BitVec 25) : Nat → BitVec 24 → BitVec 24
  | 0, c => c
  | n + 1, c => crcShifts poly n (crcShift poly c)

/-- The bitwise form of `Step` (R131), which defines the table. -/
def crcStepBitwise (poly : BitVec 25) (c : BitVec 24) (b : Byte) : BitVec 24 :=
  crcShifts poly 8 (c ^^^ (b.setWidth 24 <<< 16))

/-- `CRC_TAB[i]` (R33, R131). -/
def crcTab (poly : BitVec 25) (i : Byte) : BitVec 24 := crcStepBitwise poly 0 i

/-- The table form of `Step`, the normative one (R131). -/
def crcStep (poly : BitVec 25) (c : BitVec 24) (b : Byte) : BitVec 24 :=
  (c <<< 8) ^^^ crcTab poly (c.extractLsb' 16 8 ^^^ b)

/-- `CRC24Q(b)` (R131). -/
def crc24q (C : Chip) (b : Bytes) : BitVec 24 := b.foldl (crcStep C.crcPoly) C.crcInit

/-- A CRC as a response: its number, and its three bytes in transmission order (R135, R136). -/
def crcResponse (c : BitVec 24) : Response :=
  { status := Status.ok, value := c.setWidth 64, data := .bytes (bytes24 c) }

/-- The verdict of CRC.VERIFY (R137). -/
def crcVerdict (C : Chip) (f : Bytes) : Bool :=
  3 ≤ f.length && crc24q C (f.take (f.length - 3)) == be24 f (f.length - 3)

/-- CRC.INIT on a session (R133). -/
def crcInitOp (C : Chip) (s : Session) : Reply := answer { s with crc := C.crcInit } Status.ok

/-- CRC.UPD on a session (R134). -/
def crcUpdOp (C : Chip) (b : Byte) (s : Session) : Reply :=
  answer { s with crc := crcStep C.crcPoly s.crc b } Status.ok

/-- CRC.GET on a session (R135). -/
def crcGetOp (s : Session) : Reply := (s, crcResponse s.crc)

/-- CRC.COMPUTE on a session (R136): the `crc` register is neither read nor written. -/
def crcComputeOp (C : Chip) (b : Bytes) (s : Session) : Reply := (s, crcResponse (crc24q C b))

/-- CRC.VERIFY on a session (R137): the verdict is the value, 1 or 0. -/
def crcVerifyOp (C : Chip) (f : Bytes) (s : Session) : Reply := answerValue s (if crcVerdict C f then 1 else 0)

/-- CRC.INIT (R133). -/
def execCrcInit (s : State) : Result := gated (crcInitOp Config.chip) s

/-- CRC.UPD (R134). -/
def execCrcUpd (b : Byte) (s : State) : Result := gated (crcUpdOp Config.chip b) s

/-- CRC.GET (R135). -/
def execCrcGet (s : State) : Result := gated crcGetOp s

/-- CRC.COMPUTE (R136). -/
def execCrcCompute (b : Bytes) (s : State) : Result := gated (crcComputeOp Config.chip b) s

/-- CRC.VERIFY (R137). -/
def execCrcVerify (f : Bytes) (s : State) : Result := gated (crcVerifyOp Config.chip f) s

/-! ### The 8-bit checksum (R140 to R143) -/

/-- One update of the two accumulators: the second uses the new first (R141). -/
def cs8Step (ck : Byte × Byte) (b : Byte) : Byte × Byte := (ck.1 + b, ck.2 + (ck.1 + b))

/-- The checksum of a byte string from (0, 0) (R143). -/
def cs8 (b : Bytes) : Byte × Byte := b.foldl cs8Step (0, 0)

/-- A checksum as a response (R142, R143). -/
def cs8Response (ck : Byte × Byte) : Response :=
  { status := Status.ok, value := (ck.1 ++ ck.2).setWidth 64, data := .bytes [ck.1, ck.2] }

/-- CS8.INIT on a session (R140). -/
def cs8InitOp (s : Session) : Reply := answer { s with ckA := 0, ckB := 0 } Status.ok

/-- CS8.UPD on a session (R141). -/
def cs8UpdOp (b : Byte) (s : Session) : Reply :=
  let ck := cs8Step (s.ckA, s.ckB) b
  answer { s with ckA := ck.1, ckB := ck.2 } Status.ok

/-- CS8.GET on a session (R142). -/
def cs8GetOp (s : Session) : Reply := (s, cs8Response (s.ckA, s.ckB))

/-- CS8.COMPUTE on a session (R143): the registers `ck_a`, `ck_b` are not used. -/
def cs8ComputeOp (b : Bytes) (s : Session) : Reply := (s, cs8Response (cs8 b))

/-- CS8.INIT (R140). -/
def execCs8Init (s : State) : Result := gated cs8InitOp s

/-- CS8.UPD (R141). -/
def execCs8Upd (b : Byte) (s : State) : Result := gated (cs8UpdOp b) s

/-- CS8.GET (R142). -/
def execCs8Get (s : State) : Result := gated cs8GetOp s

/-- CS8.COMPUTE (R143). -/
def execCs8Compute (b : Bytes) (s : State) : Result := gated (cs8ComputeOp b) s

end Sys2Proof.Machine
end

