-- ==== Sys2Proof/Machine/FrameSync.lean ====
section
/-!
DEFINITION. The frame synchroniser and length extractor (43_framesync.md).
-/

namespace Sys2Proof.Machine

/-! ### Mode constants (R151) -/

/-- `SYNC` -/
def syncPattern (C : Chip) : FsMode → Bytes
  | .rtcm3 => [Config.rtcmPre]
  | .l6 => C.l6Pre.toList

/-- `HDR`: the bytes needed to know the length -/
def headerBytes : FsMode → Nat
  | .rtcm3 => 3
  | .l6 => 4

/-- The declared payload length of an RTCM3 frame (R76); the reserved bits are ignored (R73). -/
def declaredLength (buf : Bytes) : Nat := (byteAt buf 1 &&& 0x03).toNat * 256 + (byteAt buf 2).toNat

/-- `Total(buf)` -/
def frameTotal (m : FsMode) (buf : Bytes) : Nat :=
  match m with
  | .rtcm3 => 6 + declaredLength buf
  | .l6 => Config.l6Frame

/-- `Compatible(buf)`: the buffer and the pattern agree as far as both go. -/
def compatible : Bytes → Bytes → Bool
  | [], _ => true
  | _ :: _, [] => true
  | p :: pat, b :: buf => p == b && compatible pat buf

/-- The sync search of R153: bytes leave the front until the buffer is empty or compatible. -/
def syncSearch (pat : Bytes) : Bytes → Bytes
  | [] => []
  | b :: buf => if compatible pat (b :: buf) then b :: buf else syncSearch pat buf

/-! ### What a validated frame returns (R154) -/

/-- `FrameData(F)`: the payload, or the 212 data bytes. -/
def frameData (m : FsMode) (F : Bytes) : Bytes :=
  match m with
  | .rtcm3 => slice F 3 (declaredLength F)
  | .l6 => slice F 6 Config.l6Data

/-- `FrameValue(F)`. RTCM3: `L` in bits 9:0, the six reserved bits in bits 21:16. L6: the metadata fields of R78, the
alert bit of R80, the metadata byte and the satellite id. -/
def frameValue (m : FsMode) (F : Bytes) : BitVec 64 :=
  match m with
  | .rtcm3 =>
    ((byteAt F 1).extractLsb' 2 6 ++ 0#6 ++ BitVec.ofNat 10 (declaredLength F)).setWidth 64
  | .l6 =>
    let md := byteAt F 5
    let alert := BitVec.ofBool ((byteAt F 6).getLsbD 7)
    (byteAt F 4 ++ md ++ 0#7 ++ md.extractLsb' 5 3 ++ md.extractLsb' 3 2 ++ md.extractLsb' 2 1 ++
      md.extractLsb' 1 1 ++ alert ++ md.extractLsb' 0 1).setWidth 64

/-- The check of R153: the CRC of an RTCM3 frame; an L6 frame is not checked (R155). -/
def frameGood (C : Chip) (m : FsMode) (F : Bytes) : Bool :=
  match m with
  | .rtcm3 => crc24q C (F.take (F.length - 3)) == be24 F (F.length - 3)
  | .l6 => true

/-- FS.STEP on a session (R153). -/
def fsStepOp (C : Chip) (s : Session) : Reply :=
  let buf := syncSearch (syncPattern C s.fsMode) s.fsBuf
  if buf.length < headerBytes s.fsMode then
    answer { s with fsBuf := buf, fsState := .searchingSync, fsLen := 0 } Status.needMoreData
  else
    let T := frameTotal s.fsMode buf
    let len : BitVec 10 := match s.fsMode with
      | .rtcm3 => BitVec.ofNat 10 (T - 6)
      | .l6 => 0
    if buf.length < T then
      answer { s with fsBuf := buf, fsState := .haveLength, fsLen := len } Status.needMoreData
    else
      let F := buf.take T
      if frameGood C s.fsMode F then
        ({ s with fsBuf := buf.drop T, fsState := .validated, fsLen := len },
          { status := Status.ok, value := frameValue s.fsMode F, data := .bytes (frameData s.fsMode F) })
      else
        answer { s with fsBuf := buf.drop 1, fsState := .crcFail, fsLen := len } Status.checksumMismatch

/-- FS.PUSH on a session (R152): the state machine does not run. -/
def fsPushOp (C : Chip) (b : Byte) (s : Session) : Reply :=
  if s.fsBuf.length = C.fsCap then raiseFatal s Status.unsynchronizable
  else answer { s with fsBuf := s.fsBuf ++ [b] } Status.ok

/-- FS.PUSH (R152). -/
def execFsPush (b : Byte) (s : State) : Result := gated (fsPushOp Config.chip b) s

/-- FS.STEP (R153). -/
def execFsStep (s : State) : Result := gated (fsStepOp Config.chip) s

end Sys2Proof.Machine
end

