-- ==== Sys2Proof/Machine/Decoder.lean ====
section
/-!
DEFINITION. Head decoder, mask table and drain (45_masktable.md).
-/

namespace Sys2Proof.Machine

/-! ### Head decode (R191, R192) -/

/-- The verdict of `HeadAt`. -/
inductive HeadResult where
  | head (hd : Head)
  | fail (code : Byte)
  /-- the ST10 stub (R193) -/
  | fail10 (hd : Head)
deriving DecidableEq, Repr

/-- `code(h)` of a verdict that is no head (R191). -/
def headCode : HeadResult → Byte
  | .head _ => Status.ok
  | .fail c => c
  | .fail10 _ => Status.unsupported

/-- The head of an ST1 (R83). -/
def headST1 (s : Bits) : Head where
  msgnum := field s 0 12
  subtype := field s 12 4
  epoch := field s 16 20
  ui := field s 36 4
  mmi := flag s 40
  iodssr := field s 41 4
  len := Config.head1Bits

/-- The head of a dependent subtype (R83). -/
def headDependent (s : Bits) : Head where
  msgnum := field s 0 12
  subtype := field s 12 4
  epoch := (field s 16 12).setWidth 20
  ui := field s 28 4
  mmi := flag s 32
  iodssr := field s 33 4
  len := Config.headNBits

/-- The head of an ST10 (R84). -/
def headST10 (s : Bits) : Head where
  msgnum := field s 0 12
  subtype := field s 12 4
  epoch := (field s 16 12).setWidth 20
  ui := 0
  mmi := false
  iodssr := 0
  len := Config.head10Bits

/-- `HeadAt(s)` (R191): a field is judged as soon as its bits are present (R192). -/
def headAt (s : Bits) : HeadResult :=
  if s.length < 12 then .fail Status.needMoreData
  else if uval s 0 12 ≠ Config.msgnum then .fail Status.unknownMessageNumber
  else if s.length < 16 then .fail Status.needMoreData
  else
    match uval s 12 4 with
    | 0 | 13 | 14 | 15 => .fail Status.unknownSubtype
    | 10 => if s.length < Config.head10Bits then .fail Status.needMoreData else .fail10 (headST10 s)
    | 1 => if s.length < Config.head1Bits then .fail Status.needMoreData else .head (headST1 s)
    | _ => if s.length < Config.headNBits then .fail Status.needMoreData else .head (headDependent s)

/-! ### ST1 decode (R196 to R199) -/

/-- The four fixed fields of the system entry at offset `o` with the given cell mask (R86). -/
def entryAt (s : Bits) (o : Nat) (cell : Bits) : MaskEntry where
  sys := field s o 4
  sat := field s (o + 4) 40
  sig := field s (o + 44) 16
  cma := flag s (o + 60)
  cell := cell

/-- The number of cells of the system entry at offset `o`: `popcount(sat) × popcount(sig)` (R196). -/
def cellCount (s : Bits) (o : Nat) : Nat := popcount (field s (o + 4) 40) * popcount (field s (o + 44) 16)

/-- The loop of `ST1At` (R196) over the entries that are left, from offset `o`: the entries and the offset after
them, or the code of the first check that fails. -/
def st1Entries (s : Bits) : Nat → Nat → Except Byte (List MaskEntry × Nat)
  | 0, o => .ok ([], o)
  | n + 1, o =>
    if s.length < o + Config.gnssEntryBits then .error Status.needMoreData
    else if uval s o 4 > 7 then .error Status.reservedSystemId
    else
      let nc := cellCount s o
      let o1 := o + Config.gnssEntryBits
      if flag s (o + 60) && s.length < o1 + nc then .error Status.needMoreData
      else
        let e := entryAt s o (if flag s (o + 60) then slice s o1 nc else List.replicate nc true)
        let o2 := if flag s (o + 60) then o1 + nc else o1
        match st1Entries s n o2 with
        | .error c => .error c
        | .ok (es, o3) => .ok (e :: es, o3)

/-- `ST1At(s)` (R196): the entries and the length of the message, or a code. -/
def st1At (s : Bits) : Except Byte (List MaskEntry × Nat) :=
  if s.length < Config.head1Bits + 4 then .error Status.needMoreData
  else st1Entries s (uval s Config.head1Bits 4) (Config.head1Bits + 4)

/-- The mask table an ST1 establishes: it replaces the old one wholesale (R199). -/
def maskOf (hd : Head) (es : List MaskEntry) : MaskTable where
  valid := true
  epoch := hd.epoch
  ui := hd.ui
  mmi := hd.mmi
  iodssr := hd.iodssr
  ngnss := BitVec.ofNat 4 es.length
  entries := es

/-- `ApplyST1(hd, entries, n)` (R199): the counters are zeroed before the ST1's own bits are counted (R201). -/
def applyST1 (s : Session) (hd : Head) (es : List MaskEntry) (n : Nat) : Session :=
  { cutFront s n with
    mask := maskOf hd es
    statMsg := BitVec.ofNat 32 n
    statNull := 0
    statDrop := 0 }

/-! ### The drain (R207) -/

/-- How a drain ends. -/
inductive DrainEnd where
  | clean
  | needMore
  | discarded (code : Byte)
deriving DecidableEq, Repr

/-- What one pass of the drain's loop does: it ends the drain with a session and last events, or it goes on with
one message consumed. -/
inductive DrainPass where
  | stop (e : DrainEnd) (s : Session) (last : List Event)
  | go (s : Session) (ev : Event)
deriving DecidableEq, Repr

/-- `Drop(c)` (R207, R209): the whole buffer is dropped, counted and reported by one ERROR event. -/
def dropAll (s : Session) (c : Byte) : DrainPass :=
  .stop (.discarded c) (clearBits (addDrop s s.bb.length)) [.error c s.bb.length]

/-- The pass on an ST1 message (R207). -/
def passST1 (s : Session) (hd : Head) : DrainPass :=
  match st1At s.bb with
  | .error c => if c = Status.needMoreData then .stop .needMore s [] else dropAll s c
  | .ok (es, n) => .go (applyST1 s hd es n) (.maskUpdate n)

/-- `stale` (R204). -/
def isStale (s : Session) (hd : Head) : Bool := hd.iodssr != s.mask.iodssr

/-- The pass on a dependent subtype: the gate of R203, then the body port (R206). -/
def passBody (C : Chip) (s : Session) (hd : Head) : DrainPass :=
  if s.mask.valid then
    match C.body.answer s.mask hd (isStale s hd) (s.bb.drop hd.len) with
    | .needMoreData => .stop .needMore s []
    | .reject c => dropAll s (rejectCode c)
    | .consumed nb rec =>
      .go (cutFront (addMsg s (hd.len + nb)) (hd.len + nb))
        (.record hd.subtype (isStale s hd) (hd.len + nb) rec)
  else dropAll s Status.maskNotEstablished

/-- One pass of the loop of `Drain` (R207). -/
def drainPass (C : Chip) (s : Session) : DrainPass :=
  if allZero s.bb then
    .stop .clean (clearBits (addNull s s.bb.length)) [.cleanEnd s.bb.length]
  else
    match headAt s.bb with
    | .fail c => if c = Status.needMoreData then .stop .needMore s [] else dropAll s c
    | .fail10 _ => dropAll s Status.unsupported
    | .head hd => if hd.subtype = 1 then passST1 s hd else passBody C s hd

/-- The result of a drain: the session, the end, and the events with those it was given in front. -/
abbrev Drained := Session × DrainEnd × List Event

/-- The loop of `Drain` with at most the given number of passes; `drain` gives it one more than there are bits,
and each pass that goes on removes at least 37 (R207, log entry 13). -/
def drainLoop (C : Chip) : Nat → Session → List Event → Drained
  | 0, s, evs => (s, .needMore, evs)
  | fuel + 1, s, evs =>
    match drainPass C s with
    | .stop e s' last => (s', e, evs ++ last)
    | .go s' ev => drainLoop C fuel s' (evs ++ [ev])

/-- `Drain(events)` (R207). -/
def drain (C : Chip) (s : Session) (evs : List Event) : Drained :=
  drainLoop C ((normalize s).bb.length + 1) (normalize s) evs

/-- The status a drain's end is reported with (R208). -/
def drainStatus : DrainEnd → Byte
  | .clean => Status.ok
  | .needMore => Status.needMoreData
  | .discarded c => c

/-! ### Commands -/

/-- DEC.HEAD on a session (R195): the head is examined, not consumed. -/
def decHeadOp (s : Session) : Reply :=
  let s1 := normalize s
  match headAt s1.bb with
  | .head hd => answerValue s1 (packHead hd)
  | .fail10 hd => (s1, { status := Status.unsupported, value := packHead hd })
  | .fail c => answer s1 c

/-- DEC.ST1 on a session (R202): a failure drops nothing. -/
def decSt1Op (s : Session) : Reply :=
  let s1 := normalize s
  match headAt s1.bb with
  | .fail c => answer s1 c
  | .fail10 _ => answer s1 Status.unsupported
  | .head hd =>
    if hd.subtype = 1 then
      match st1At s1.bb with
      | .error c => answer s1 c
      | .ok (es, n) =>
        (applyST1 s1 hd es n, { status := Status.ok, value := BitVec.ofNat 64 n, events := [.maskUpdate n] })
    else answer s1 Status.wrongSubtype

/-- DEC.DRAIN on a session (R208). -/
def decDrainOp (C : Chip) (s : Session) : Reply :=
  match drain C s [] with
  | (s1, e, evs) => (s1, { status := drainStatus e, value := BitVec.ofNat 64 s1.bb.length, events := evs })

/-- A word of the cell mask (R214): `w` counts 64-bit words; the first bit in time is the most significant of the
`m` bits returned. -/
def cellWord (s : Session) (e : MaskEntry) (w : Nat) : Reply :=
  let nc := e.cell.length
  if 64 * w ≥ nc then answer s Status.illegalOperand
  else
    let m := min 64 (nc - 64 * w)
    (s, { status := Status.ok, value := BitVec.ofNat 64 (uval e.cell (64 * w) m), data := .bits (slice e.cell (64 * w) m) })

/-- The fields of an entry MASK.RD selects (R214). -/
def maskField (s : Session) (e : MaskEntry) (f : Nat) : Reply :=
  match f with
  | 0 => answerValue s (e.sys.setWidth 64)
  | 1 => answerValue s (e.sat.setWidth 64)
  | 2 => answerValue s (e.sig.setWidth 64)
  | 3 => answerValue s (BitVec.ofNat 64 e.cma.toNat)
  | 4 => answerValue s (BitVec.ofNat 64 (nsat e))
  | 5 => answerValue s (BitVec.ofNat 64 (nsig e))
  | 6 => answerValue s (BitVec.ofNat 64 e.cell.length)
  | f => if 16 ≤ f ∧ f ≤ 25 then cellWord s e (f - 16) else answer s Status.illegalOperand

/-- MASK.RD on a session (R214). An index below `mask_ngnss` without an entry cannot arise (R35, log entry 12). -/
def maskRdOp (i f : Nat) (s : Session) : Reply :=
  if s.mask.valid then
    if i ≥ s.mask.ngnss.toNat then answer s Status.illegalOperand
    else
      match s.mask.entries[i]? with
      | some e => maskField s e f
      | none => answer s Status.illegalOperand
  else answer s Status.maskNotEstablished

/-- DEC.HEAD (R195). -/
def execDecHead (s : State) : Result := gated decHeadOp s

/-- DEC.ST1 (R202). -/
def execDecSt1 (s : State) : Result := gated decSt1Op s

/-- DEC.DRAIN (R208). -/
def execDecDrain (s : State) : Result := gated (decDrainOp Config.chip) s

/-- MASK.RD (R214). -/
def execMaskRd (i : Byte) (f : BitVec 16) (s : State) : Result := gated (maskRdOp i.toNat f.toNat) s

end Sys2Proof.Machine
end

