-- ==== Sys2Proof/Machine/Reassembler.lean ====
section
/-!
DEFINITION. The transport reassembler (44_reassembler.md).
-/

namespace Sys2Proof.Machine

/-- The subframe number after an accepted start fragment (R179): 1 for an ST1 head; otherwise one more when
known, saturating at 255, and unknown stays unknown. -/
def nextSfn (hd : Head) (sfn : Byte) : Byte :=
  if hd.subtype = 1 then 1
  else if sfn = 0 then 0
  else if sfn = 255 then 255
  else sfn + 1

/-- A start fragment abandons an accumulation: the buffered bits are dropped, counted and reported (R178). -/
def abandon (s : Session) : Session × List Event :=
  match s.raState with
  | .idle => (s, [])
  | .accumulating =>
    let s1 := normalize s
    (addDrop s1 s1.bb.length, [.abandon s1.bb.length])

/-- The end of RA.FRAG after its drain (R172, R176, R177). -/
def raFinish (d : Drained) : Reply :=
  match d with
  | (s, .clean, evs) =>
    (raIdle s, { status := Status.ok, value := raValue (raIdle s), events := evs })
  | (s, .discarded c, evs) =>
    (raLost s, { status := c, value := raValue (raLost s), events := evs })
  | (s, .needMore, evs) =>
    if s.raPart = Config.maxParts then
      let s1 := raLost (clearBits (addDrop s s.bb.length))
      (s1, { status := Status.partOverflow, value := raValue s1, events := evs ++ [.partOverflow s.bb.length] })
    else
      (s, { status := Status.needMoreData, value := raValue s, events := evs })

/-- A start fragment (R172, R173, R178). -/
def raStart (C : Chip) (p : Bits) (s : Session) : Reply :=
  if p.length > C.bbCap then raiseFatal s Status.bufferExhausted
  else
    let (s1, evs) := abandon s
    match headAt p with
    | .head hd =>
      raFinish (drain C { s1 with
        bb := p
        bbPos := 0
        raState := .accumulating
        raPart := 1
        raSfn := nextSfn hd s1.raSfn } evs)
    | h =>
      let s2 := raLost (clearBits (addDrop s1 p.length))
      (s2, { status := Status.startRejected, value := raValue s2, events := evs ++ [.error (headCode h) p.length] })

/-- A continuation fragment (R172, R174, R175). -/
def raContinue (C : Chip) (p : Bits) (s : Session) : Reply :=
  match s.raState with
  | .idle => (s, { status := Status.noStart, value := raValue s })
  | .accumulating =>
    if remBits s + p.length > C.bbCap then raiseFatal s Status.bufferExhausted
    else
      let s1 := normalize s
      raFinish (drain C { s1 with bb := s1.bb ++ p, raPart := s1.raPart + 1 } [])

/-- RA.FRAG on a session (R172). -/
def raFragOp (C : Chip) (sf : Bool) (p : Bits) (s : Session) : Reply :=
  if sf then raStart C p s else raContinue C p s

/-- RA.FRAG (R172). -/
def execRaFrag (sf : Bool) (p : Bits) (s : State) : Result := gated (raFragOp Config.chip sf p) s

end Sys2Proof.Machine
end

