-- ==== Sys2Proof/Machine/Encoder.lean ====
section
/-!
DEFINITION. The RTCM3 encoder and the pipeline step (46_rtcm_pipeline.md).
-/

namespace Sys2Proof.Machine

/-- The RTCM3 header of a payload of `k` bytes: the six reserved bits are 0 (R73, R76, R231). -/
def rtcmHeader (k : Nat) : Bytes := [Config.rtcmPre, BitVec.ofNat 8 (k / 256), BitVec.ofNat 8 k]

/-- The RTCM3 frame of a payload (R71, R231). -/
def rtcmFrame (C : Chip) (p : Bytes) : Bytes :=
  let body := rtcmHeader p.length ++ p
  body ++ bytes24 (crc24q C body)

/-- RTCM.ENC on a session (R231). -/
def rtcmEncOp (C : Chip) (p : Bytes) (s : Session) : Reply :=
  if p.length > Config.rtcmMaxLen then answer s Status.illegalOperand
  else (s, { status := Status.ok, value := BitVec.ofNat 64 (p.length + 6), data := .bytes (rtcmFrame C p) })

/-- The bytes of a response's data. -/
def dataBytes : Data → Bytes
  | .bytes b => b
  | .bits _ => []

/-- The fragment a validated frame hands to the reassembler (R80, R235, R236): a function of the mode and of the
response of FS.STEP. -/
def fragmentOf (C : Chip) (m : FsMode) (r : Response) : Bool × Bits :=
  match m with
  | .rtcm3 => (true, bitsOf (dataBytes r.data))
  | .l6 => (r.value.getLsbD 0, slice (bitsOf (dataBytes r.data)) C.fragSkipBits C.fragPayloadBits)

/-- PIPE.NEXT on a session (R235). Bit 32 of the value says that a frame was removed; where the RA part is fatal the
FS part is kept (R262) and bit 32 is 1 (DEDUCED, log entry 10). -/
def pipeNextOp (C : Chip) (s : Session) : Reply :=
  match fsStepOp C s with
  | (s1, r) =>
    if r.status = Status.ok then
      match raFragOp C (fragmentOf C s1.fsMode r).1 (fragmentOf C s1.fsMode r).2 s1 with
      | (s2, q) => (s2, { status := q.status, value := q.value + 0x100000000, events := q.events })
    else (s1, { status := r.status, value := raValue s1 })

/-- RTCM.ENC (R231). -/
def execRtcmEnc (p : Bytes) (s : State) : Result := gated (rtcmEncOp Config.chip p) s

/-- PIPE.NEXT (R235). -/
def execPipeNext (s : State) : Result := gated (pipeNextOp Config.chip) s

end Sys2Proof.Machine
end

