-- ==== Sys2Proof/Machine/System.lean ====
section
/-!
DEFINITION. The system commands (40_system.md) and the answer to an unassigned opcode (R95).
-/

namespace Sys2Proof.Machine

/-- NOP on a session (R100). -/
def nopOp (s : Session) : Reply := answer s Status.ok

/-- NOP (R100): OK always, also while `fatal` is set. -/
def execNop (s : State) : Result := respond s (nopOp s.ses)

/-- RESET on a session (R101). The parameters are not state and stay (R281). -/
def resetOp (C : Chip) (_ : Session) : Reply := answer (Session.resetFor C) Status.ok

/-- RESET (R101): every state element takes its reset value; it is the way back from the fatal latch. The ports
are the host's and keep what they hold (log entry 9). -/
def execReset (s : State) : Result := respond s (resetOp Config.chip s.ses)

/-- RDREG on a session (R102). -/
def rdregOp (a : Byte) (s : Session) : Reply :=
  match readReg s a.toNat with
  | some v => answerValue s v
  | none => answer s Status.illegalOperand

/-- RDREG (R102): runs while `fatal` is set. -/
def execRdreg (a : Byte) (s : State) : Result := respond s (rdregOp a s.ses)

/-- CFG.MODE on a session (R103). -/
def cfgModeOp (a : Byte) (s : Session) : Reply :=
  match a.toNat with
  | 0 => answer { s with fsMode := .rtcm3, fsBuf := [], fsState := .searchingSync, fsLen := 0 } Status.ok
  | 1 => answer { s with fsMode := .l6, fsBuf := [], fsState := .searchingSync, fsLen := 0 } Status.ok
  | _ => answer s Status.illegalOperand

/-- CFG.MODE (R103). -/
def execCfgMode (a : Byte) (s : State) : Result := gated (cfgModeOp a) s

/-- The answer to a word whose opcode is not assigned: ILLEGAL_COMMAND (R95), behind the fatal gate (R262). -/
def illegalCommand (s : State) : Result := gated (fun ses => answer ses Status.illegalCommand) s

end Sys2Proof.Machine
end

