-- ==== Sys2Proof/Machine/Dispatch.lean ====
section
/-!
DEFINITION. The one dispatch: each command of R94 to its meaning.
-/

namespace Sys2Proof.Machine

/-- Run one instruction. -/
def exec (i : Instr) (s : State) : Host.Outcome State Fault Refusal :=
  match i with
  | .nop => Sys2Proof.Machine.execNop s
  | .reset => Sys2Proof.Machine.execReset s
  | .rdreg a => Sys2Proof.Machine.execRdreg a s
  | .cfgMode a => Sys2Proof.Machine.execCfgMode a s
  | .bcPeek n => Sys2Proof.Machine.execBcPeek n s
  | .bcRdu n => Sys2Proof.Machine.execBcRdu n s
  | .bcRds n => Sys2Proof.Machine.execBcRds n s
  | .bcSkip n => Sys2Proof.Machine.execBcSkip n s
  | .bcPos => Sys2Proof.Machine.execBcPos s
  | .bcRem => Sys2Proof.Machine.execBcRem s
  | .bcAppend p => Sys2Proof.Machine.execBcAppend p s
  | .bcDiscard => Sys2Proof.Machine.execBcDiscard s
  | .bcClear => Sys2Proof.Machine.execBcClear s
  | .crcInit => Sys2Proof.Machine.execCrcInit s
  | .crcUpd b => Sys2Proof.Machine.execCrcUpd b s
  | .crcGet => Sys2Proof.Machine.execCrcGet s
  | .crcCompute b => Sys2Proof.Machine.execCrcCompute b s
  | .crcVerify f => Sys2Proof.Machine.execCrcVerify f s
  | .cs8Init => Sys2Proof.Machine.execCs8Init s
  | .cs8Upd b => Sys2Proof.Machine.execCs8Upd b s
  | .cs8Get => Sys2Proof.Machine.execCs8Get s
  | .cs8Compute b => Sys2Proof.Machine.execCs8Compute b s
  | .fsPush b => Sys2Proof.Machine.execFsPush b s
  | .fsStep => Sys2Proof.Machine.execFsStep s
  | .raFrag sf p => Sys2Proof.Machine.execRaFrag sf p s
  | .decHead => Sys2Proof.Machine.execDecHead s
  | .decSt1 => Sys2Proof.Machine.execDecSt1 s
  | .decDrain => Sys2Proof.Machine.execDecDrain s
  | .maskRd e f => Sys2Proof.Machine.execMaskRd e f s
  | .rtcmEnc p => Sys2Proof.Machine.execRtcmEnc p s
  | .pipeNext => Sys2Proof.Machine.execPipeNext s

end Sys2Proof.Machine
end

