-- ==== Sys2Proof/Machine/Instance.lean ====
section
/-!
DEFINITION. The commands of an instance of the block: its parameters and its body decoder are an argument (R7, R281).
-/

namespace Sys2Proof.Machine

/-- What each command does to a session of the instance `C`, the latch aside. -/
def sessionOp (C : Chip) : Instr → Session → Reply
  | .nop => nopOp
  | .reset => resetOp C
  | .rdreg a => rdregOp a
  | .cfgMode a => cfgModeOp a
  | .bcPeek n => peekOp n.toNat
  | .bcRdu n => rduOp n.toNat
  | .bcRds n => rdsOp n.toNat
  | .bcSkip n => skipOp n.toNat
  | .bcPos => posOp
  | .bcRem => remOp
  | .bcAppend p => appendOp C p
  | .bcDiscard => discardOp
  | .bcClear => clearOp
  | .crcInit => crcInitOp C
  | .crcUpd b => crcUpdOp C b
  | .crcGet => crcGetOp
  | .crcCompute b => crcComputeOp C b
  | .crcVerify f => crcVerifyOp C f
  | .cs8Init => cs8InitOp
  | .cs8Upd b => cs8UpdOp b
  | .cs8Get => cs8GetOp
  | .cs8Compute b => cs8ComputeOp b
  | .fsPush b => fsPushOp C b
  | .fsStep => fsStepOp C
  | .raFrag sf p => raFragOp C sf p
  | .decHead => decHeadOp
  | .decSt1 => decSt1Op
  | .decDrain => decDrainOp C
  | .maskRd i f => maskRdOp i.toNat f.toNat
  | .rtcmEnc p => rtcmEncOp C p
  | .pipeNext => pipeNextOp C

/-- The commands that run while the latch is set (R105, R262): NOP, RESET and RDREG. -/
def ungated : Instr → Bool
  | .nop | .reset | .rdreg _ => true
  | .cfgMode _ | .bcPeek _ | .bcRdu _ | .bcRds _ | .bcSkip _ | .bcPos | .bcRem | .bcAppend _ | .bcDiscard | .bcClear
  | .crcInit | .crcUpd _ | .crcGet | .crcCompute _ | .crcVerify _ | .cs8Init | .cs8Upd _ | .cs8Get | .cs8Compute _
  | .fsPush _ | .fsStep | .raFrag _ _ | .decHead | .decSt1 | .decDrain | .maskRd _ _ | .rtcmEnc _ | .pipeNext => false

/-- Run one instruction on the instance `C`. `exec` is this with the default parameters (log entry 6). -/
def execFor (C : Chip) (i : Instr) (s : State) : Result :=
  if ungated i then respond s (sessionOp C i s.ses) else gated (sessionOp C i) s

end Sys2Proof.Machine
end

