-- ==== Sys2Proof/Machine/Step.lean ====
section
/-!
DEFINITION. One step of the machine: the oldest delivered command, or nothing.
-/

namespace Sys2Proof.Machine

/-- The state without the oldest pending command, the others being `rest`. -/
def State.withCmds (s : State) (rest : List Command) : State := { s with cmds := rest }

/-- One step (R8, R55) with the given meaning of the commands: the block takes the oldest command from the port and runs it; with no command pending it is
idle and keeps all state (R273, log entry 3). A payload that is not whole is a host error outside the model (R91). -/
def stepBy (run : Instr → State → Result) (s : State) : Result :=
  match s.cmds with
  | [] => .next s
  | c :: rest =>
    match decode c with
    | .ok i => run i (s.withCmds rest)
    | .error (.illegalCommand _) => illegalCommand (s.withCmds rest)
    | .error (.payloadMismatch _ _) => .fault .payloadMismatch

/-- One step of the machine, whose parameters are the defaults of R7. -/
def step (s : State) : Host.Outcome State Fault Refusal := stepBy exec s

/-- One step of the instance `C` (R7). -/
def stepFor (C : Chip) (s : State) : Result := stepBy (execFor C) s

/-- The instance `C` as a machine: the block with its parameters and its body decoder as an argument (R7). -/
def machineFor (C : Chip) : Host.Core :=
  { State := State, Fault := Fault, Refusal := Refusal, step := stepFor C, reset := State.resetFor C }

/-- `s` with the command whose bits are `w` put where `step` takes its next command from: the front of the command
port (log entries 1 and 18). -/
def State.withFetchWord (s : State) (nbits w : Nat) : State :=
  { s with cmds := commandOfBits nbits w :: s.cmds }

end Sys2Proof.Machine
end

