-- ==== Sys2Proof/Safety.lean ====
section
/-!
DEFINITION. The invariants of R35 and what a safe run is, in the terms statements use.
-/

namespace Sys2Proof.Machine

/-- A stored entry: the cell mask has one bit per satellite and signal, and the system id is not reserved
(R28, R35). -/
abbrev MaskEntry.Inv (e : MaskEntry) : Prop := e.cell.length = nsat e * nsig e ∧ e.sys.toNat ≤ 7

/-- The mask table's part of R35; `mask_ngnss` is the number of entries that hold a value (R27, R28). -/
abbrev MaskTable.Inv (m : MaskTable) : Prop :=
  m.entries.length = m.ngnss.toNat ∧ (m.valid = false → m.ngnss = 0) ∧ ∀ e ∈ m.entries, e.Inv

/-- The reassembler's part of R35. -/
abbrev Session.RaInv (s : Session) : Prop :=
  (s.raState = .idle → s.raPart = 0) ∧
  (s.raState = .accumulating → 1 ≤ s.raPart ∧ s.raPart ≤ Config.maxParts - 1)

/-- The state invariants of R35, which hold before and after every command. -/
abbrev Session.Inv (C : Chip) (s : Session) : Prop :=
  s.bbPos ≤ s.bb.length ∧ s.bb.length ≤ C.bbCap ∧ s.fsBuf.length ≤ C.fsCap ∧ s.RaInv ∧
  (fsStateCode s.fsState).toNat ≤ 4 ∧ s.mask.Inv ∧
  (s.fatal = 0 ∨ s.fatal = Status.bufferExhausted ∨ s.fatal = Status.unsynchronizable)


/-- A machine whose command port keeps its promise: every delivered payload is whole (R91). -/
abbrev State.PortWhole (s : State) : Prop := ∀ c ∈ s.cmds, c.payload.length = payloadLength c.word

end Sys2Proof.Machine
end

