-- ==== Sys2Proof/Certificates/Slice0/Obligations.lean ====
section
/-!
DEFINITION. The statements about the machine, and the few functions they are written with: the formulas of the spec's
rules on natural numbers and lists, independent of the model's own definitions of the same things. A status is written
as its number of R250.
-/

namespace Sys2Proof.Statements

open Sys2Proof.Machine

/-! ### Answers and runs -/

/-- A command's answer: the session `ses` is left and `r` is returned; the machine is otherwise as it was: the commands
still pending stay, and `r` is put in front of the responses already returned (the ports are the model's, log entries 1, 2
and 9). -/
abbrev done (s : State) (ses : Session) (r : Response) : Result :=
  .next { s with ses := ses, resps := r :: s.resps }

/-- The state after a list of instructions, each answered, with the given meaning of an instruction. -/
def runBy (run : Instr → State → Result) : List Instr → State → Option State
  | [], s => some s
  | i :: is, s =>
    match run i s with
    | .next t => runBy run is t
    | _ => none

/-- The machine after a list of instructions, each answered. -/
abbrev runAll : List Instr → State → Option State := runBy exec

/-- The same answer with events put before those of its response. -/
def before (evs : List Event) : Result → Result
  | .next t =>
    match t.resps with
    | r :: rs => .next { t with resps := { r with events := evs ++ r.events } :: rs }
    | [] => .next t
  | o => o

/-- The opcode of an instruction (R94). -/
def opcode (i : Instr) : Nat := (encode i).word.toNat / 2 ^ 24

/-! ### Encodings (R90, R91, R94) -/

/-- A word `op << 24 | a << 16 | k` without payload is the instruction `f a k`. -/
def Encodes (op : Nat) (f : Byte → BitVec 16 → Instr) : Prop :=
  ∀ (a : Byte) (k : BitVec 16),
    decode ⟨BitVec.ofNat 32 (op * 2 ^ 24 + a.toNat * 2 ^ 16 + k.toNat), []⟩ = .ok (f a k)

/-- A word with a payload of `k` bytes is the instruction `f a b`. -/
def EncodesBytes (op : Nat) (f : Byte → Bytes → Instr) : Prop :=
  ∀ (a : Byte) (k : BitVec 16) (b : Bytes), b.length = k.toNat →
    decode ⟨BitVec.ofNat 32 (op * 2 ^ 24 + a.toNat * 2 ^ 16 + k.toNat), b⟩ = .ok (f a b)

/-- The first `n` bits of `bits_of(b)` (R13): bit `j` is bit `7 − j mod 8` of byte `j / 8`. -/
def firstBits (b : Bytes) (n : Nat) : Bits := (List.range n).map fun j => (b.getD (j / 8) 0).getLsbD (7 - j % 8)

/-- A word with a payload of `k` bits in `ceil(k / 8)` bytes is the instruction `f a p`, `p` those bits. -/
def EncodesBits (op : Nat) (f : Byte → Bits → Instr) : Prop :=
  ∀ (a : Byte) (k : BitVec 16) (b : Bytes), b.length = (k.toNat + 7) / 8 →
    decode ⟨BitVec.ofNat 32 (op * 2 ^ 24 + a.toNat * 2 ^ 16 + k.toNat), b⟩ = .ok (f a (firstBits b k.toNat))

/-- How many payload bytes a word states (R91, R94). -/
def paid (w : Word) : Nat :=
  if w.toNat / 2 ^ 24 ∈ [0x23, 0x24, 0x2B, 0x60] then w.toNat % 2 ^ 16
  else if w.toNat / 2 ^ 24 ∈ [0x16, 0x40] then (w.toNat % 2 ^ 16 + 7) / 8
  else 0

/-- The assigned opcodes (R94). -/
def assigned : List Nat :=
  [0x00, 0x01, 0x02, 0x03, 0x10, 0x11, 0x12, 0x13, 0x14, 0x15, 0x16, 0x17, 0x18, 0x20, 0x21, 0x22, 0x23, 0x24,
    0x28, 0x29, 0x2A, 0x2B, 0x30, 0x31, 0x40, 0x50, 0x51, 0x52, 0x53, 0x60, 0x61]

/-! ### Numbers read from bit strings -/

/-- `U(s, p, n)` as the sum of R12. -/
def U (s : Bits) (p n : Nat) : Nat := ∑ i ∈ Finset.range n, (s.getD (p + i) false).toNat * 2 ^ (n - 1 - i)

/-- The `n` bits of a number, first bit most significant (R12). -/
def bitsN (n v : Nat) : Bits := (List.range n).map fun i => v.testBit (n - 1 - i)

/-- The bits at or after the cursor: what `Normalize` keeps (R63). -/
def unread (s : State) : Bits := s.ses.bb.drop s.ses.bbPos

/-- The session with its bit buffer cut at the cursor (R63). -/
def cut (s : State) : Session := { s.ses with bb := unread s, bbPos := 0 }

/-- The number of one bits. -/
def ones {w : Nat} (v : BitVec w) : Nat := ∑ i ∈ Finset.range w, (v.getLsbD i).toNat

/-! ### Integrity (R131, R141) -/

/-- One shift of the bitwise form of `Step`, on naturals, with a generator. -/
def crcBit (poly c : Nat) : Nat := if (2 * c).testBit 24 then (2 * c) ^^^ poly else 2 * c

/-- The bitwise form of `Step`. -/
def crcByte (poly c b : Nat) : Nat := (crcBit poly)^[8] (c ^^^ (b * 65536))

/-- `CRC24Q(b)` with the generator 0x1864CFB and the start value 0. -/
def crcOf (b : Bytes) : Nat := b.foldl (fun c x => crcByte 0x1864CFB c x.toNat) 0

/-- The three bytes of a CRC, most significant first (R74). -/
def trailer (c : Nat) : Bytes := [BitVec.ofNat 8 (c / 65536), BitVec.ofNat 8 (c / 256), BitVec.ofNat 8 c]

/-- `be24(b, i)` (R13). -/
def be (b : Bytes) (i : Nat) : Nat :=
  (b.getD i 0).toNat * 65536 + (b.getD (i + 1) 0).toNat * 256 + (b.getD (i + 2) 0).toNat

/-- `CRC24Q(b)` with the generator and the start value of an instance. -/
def crcIn (C : Chip) (b : Bytes) : Nat := b.foldl (fun c x => crcByte C.crcPoly.toNat c x.toNat) C.crcInit.toNat

/-- The double accumulator of R143, from (0, 0). -/
def sums (b : Bytes) : Nat × Nat :=
  b.foldl (fun z v => ((z.1 + v.toNat) % 256, (z.2 + (z.1 + v.toNat) % 256) % 256)) (0, 0)

/-! ### Frames (R71, R79, R151, R154) -/

/-- `SYNC`. -/
def sync : FsMode → Bytes
  | .rtcm3 => [0xD3]
  | .l6 => [0x1A, 0xCF, 0xFC, 0x1D]

/-- `HDR`. -/
def hdr : FsMode → Nat
  | .rtcm3 => 3
  | .l6 => 4

/-- The declared payload length (R76). -/
def declared (buf : Bytes) : Nat := (buf.getD 1 0).toNat % 4 * 256 + (buf.getD 2 0).toNat

/-- `Total(buf)`. -/
def total : FsMode → Bytes → Nat
  | .rtcm3, buf => 6 + declared buf
  | .l6, _ => 250

/-- `Compatible(buf)`. -/
def Fits (m : FsMode) (buf : Bytes) : Prop := ∀ i, i < buf.length → i < (sync m).length → buf[i]? = (sync m)[i]?

/-- `FrameValue(F)`. -/
def frameNum (m : FsMode) (F : Bytes) : Nat :=
  match m with
  | .rtcm3 => declared F + 2 ^ 16 * ((F.getD 1 0).toNat / 4)
  | .l6 =>
    let md := (F.getD 5 0).toNat
    md % 2 + 2 * ((F.getD 6 0).toNat / 128) + 4 * (md / 2 % 2) + 8 * (md / 4 % 2) + 16 * (md / 8 % 4) +
      64 * (md / 32) + 2 ^ 16 * md + 2 ^ 24 * (F.getD 4 0).toNat

/-- `FrameData(F)`. -/
def frameBytes (m : FsMode) (F : Bytes) : Bytes :=
  match m with
  | .rtcm3 => (F.drop 3).take (declared F)
  | .l6 => (F.drop 6).take 212

/-- `fs_len` (R153). -/
def frameLen (m : FsMode) (buf : Bytes) : BitVec 10 :=
  match m with
  | .rtcm3 => BitVec.ofNat 10 (declared buf)
  | .l6 => 0

/-- The RTCM3 frame of a payload (R71, R74, R76). -/
def frameOf (p : Bytes) : Bytes :=
  let h : Bytes := [0xD3, BitVec.ofNat 8 (p.length / 256), BitVec.ofNat 8 p.length]
  h ++ p ++ trailer (crcOf (h ++ p))

/-- A well-formed RTCM3 frame (R71 to R76): preamble, any reserved bits, length, payload, good CRC. -/
def WellFormedFrame (f : Bytes) : Prop :=
  6 ≤ f.length ∧ f.getD 0 0 = 0xD3 ∧ f.length = 6 + declared f ∧
    crcOf (f.take (f.length - 3)) = be f (f.length - 3)

/-! ### Heads and masks (R83 to R86, R98, R191) -/

/-- The head value of R98. -/
def headNum (t epoch ui mmi iod len : Nat) : Nat :=
  4073 + 2 ^ 12 * t + 2 ^ 16 * epoch + 2 ^ 36 * ui + 2 ^ 40 * mmi + 2 ^ 41 * iod + 2 ^ 45 * len

/-- The verdict on the head of a bit string (R191): its code, and the head value where there is a head. -/
def verdict (b : Bits) : Byte × Nat :=
  if b.length < 12 then (0x01, 0)
  else if U b 0 12 ≠ 4073 then (0x03, 0)
  else if b.length < 16 then (0x01, 0)
  else if U b 12 4 ∈ [0, 13, 14, 15] then (0x04, 0)
  else if U b 12 4 = 10 then
    if b.length < 28 then (0x01, 0) else (0x08, headNum 10 (U b 16 12) 0 0 0 28)
  else if U b 12 4 = 1 then
    if b.length < 45 then (0x01, 0) else (0x00, headNum 1 (U b 16 20) (U b 36 4) (U b 40 1) (U b 41 4) 45)
  else if b.length < 37 then (0x01, 0)
  else (0x00, headNum (U b 12 4) (U b 16 12) (U b 28 4) (U b 32 1) (U b 33 4) 37)

/-- The head of a dependent subtype as the body port is shown it (R83, R206). -/
def portHead (b : Bits) : Head where
  msgnum := 4073
  subtype := BitVec.ofNat 4 (U b 12 4)
  epoch := BitVec.ofNat 20 (U b 16 12)
  ui := BitVec.ofNat 4 (U b 28 4)
  mmi := U b 32 1 == 1
  iodssr := BitVec.ofNat 4 (U b 33 4)
  len := 37

/-- One system entry of an ST1 on the wire (R86). -/
def entryBits (e : MaskEntry) : Bits :=
  bitsN 4 e.sys.toNat ++ bitsN 40 e.sat.toNat ++ bitsN 16 e.sig.toNat ++ [e.cma] ++ (if e.cma then e.cell else [])

/-- The head of an ST1 and the count of systems on the wire (R83, R86). -/
def st1Front (epoch : BitVec 20) (ui : BitVec 4) (mmi : Bool) (iod : BitVec 4) (ng : Nat) : Bits :=
  bitsN 12 4073 ++ bitsN 4 1 ++ bitsN 20 epoch.toNat ++ bitsN 4 ui.toNat ++ [mmi] ++ bitsN 4 iod.toNat ++ bitsN 4 ng

/-- An ST1 message on the wire (R83, R86). -/
def st1Bits (epoch : BitVec 20) (ui : BitVec 4) (mmi : Bool) (iod : BitVec 4) (es : List MaskEntry) : Bits :=
  st1Front epoch ui mmi iod es.length ++ es.flatMap entryBits

/-- What an ST1 can say of a system (R28, R86, R197): an assigned system id, a cell mask of the right size, and all ones
where the wire carries none. -/
def Sendable (e : MaskEntry) : Prop :=
  e.sys.toNat ≤ 7 ∧ e.cell.length = ones e.sat * ones e.sig ∧ (e.cma = false → ∀ b ∈ e.cell, b = true)

/-- The number of bits an event removed (R93). -/
def bitsOut : Event → Nat
  | .maskUpdate n | .record _ _ n _ | .error _ n | .cleanEnd n | .partOverflow n | .abandon n => n

/-- MASK_UPDATE and RECORD: the events that carry decoded data. -/
def isDecoded : Event → Bool
  | .maskUpdate _ | .record _ _ _ _ => true
  | .error _ _ | .cleanEnd _ | .partOverflow _ | .abandon _ => false

/-- The number of bits of the RECORD events. -/
def recordBits : Event → Nat
  | .record _ _ n _ => n
  | _ => 0

/-- The number of bits of the CLEAN_END events. -/
def nullBits : Event → Nat
  | .cleanEnd n => n
  | _ => 0

/-- The number of bits of the ERROR events. -/
def errorBits : Event → Nat
  | .error _ n => n
  | _ => 0

/-- The reassembler goes IDLE with the subframe number `n`. -/
def idleAt (s : Session) (n : Byte) : Session := { s with raState := .idle, raPart := 0, raSfn := n }

/-- `RaValue()` (R172). -/
def raNum (s : Session) : Nat :=
  (match s.raState with | .idle => 0 | .accumulating => 1) + 256 * s.raPart + 65536 * s.raSfn.toNat

/-- The subframe number after an accepted start fragment (R179). -/
def sfnAfter (subtype : Nat) (n : Byte) : Byte :=
  if subtype = 1 then 1 else if n = 0 then 0 else BitVec.ofNat 8 (min (n.toNat + 1) 255)

/-- The end of RA.FRAG on a machine `s` that stood at `d` before the drain and has reported `evs` (R172): the drain is
what DEC.DRAIN does to `d`; by its status the accumulation completes, ends, overflows or goes on. -/
def AfterDrain (s d : State) (evs : List Event) (answer : Result) : Prop :=
  ∃ ses r, exec .decDrain d = done d ses r ∧
    answer =
      if r.status = 0x00 then
        done s (idleAt ses ses.raSfn)
          { status := 0x00, value := BitVec.ofNat 64 (65536 * ses.raSfn.toNat), events := evs ++ r.events }
      else if r.status = 0x01 then
        if ses.raPart = 6 then
          done s { idleAt ses 0 with bb := [], statDrop := ses.statDrop + BitVec.ofNat 32 ses.bb.length }
            { status := 0x09, events := evs ++ r.events ++ [.partOverflow ses.bb.length] }
        else
          done s ses { status := 0x01, value := BitVec.ofNat 64 (raNum ses), events := evs ++ r.events }
      else done s (idleAt ses 0) { status := r.status, events := evs ++ r.events }

/-- The registers of R40 to R42 as numbers. -/
def regNum (s : Session) : Nat → Option Nat
  | 0 => some ((if s.fatal = 0 then 0 else 1) + 2 * s.mask.valid.toNat +
      4 * (match s.raState with | .idle => 0 | .accumulating => 1) +
      8 * (match s.fsMode with | .rtcm3 => 0 | .l6 => 1) +
      16 * (match s.fsState with
        | .searchingSync => 0
        | .haveLength => 1
        | .havePayload => 2
        | .validated => 3
        | .crcFail => 4) +
      256 * s.fatal.toNat)
  | 1 => some s.crc.toNat
  | 2 => some (s.ckA.toNat * 256 + s.ckB.toNat)
  | 3 => some s.bbPos
  | 4 => some s.bb.length
  | 5 => some s.fsLen.toNat
  | 6 => some s.fsBuf.length
  | 7 => some (s.raSfn.toNat * 256 + s.raPart)
  | 8 => some (if s.mask.valid then
      s.mask.iodssr.toNat + 2 ^ 4 * s.mask.ngnss.toNat + 2 ^ 8 * s.mask.mmi.toNat + 2 ^ 9 * s.mask.ui.toNat +
        2 ^ 13 * s.mask.epoch.toNat else 0)
  | 9 => some s.statMsg.toNat
  | 10 => some s.statNull.toNat
  | 11 => some s.statDrop.toNat
  | _ => none

end Sys2Proof.Statements

open Sys2Proof Sys2Proof.Machine Sys2Proof.Statements

/-! ### The step, decoding and encoding -/

/-- A step runs the instruction that the oldest command decodes to (R8, R55, R58). That several commands can be pending, and
that the others stay on the port, is the model's choice (log entry 1). -/
def Obligations.StepRunsDecodedCommand : Prop :=
  ∀ (s : State) (c : Command) (rest : List Command) (i : Instr),
    s.cmds = c :: rest → decode c = .ok i → step s = exec i { s with cmds := rest }

/-- With no command pending a step changes nothing: "Between commands the block is idle and keeps all state." (R273);
that such a step exists is the model's choice (log entry 3). -/
def Obligations.IdleStepKeepsAllState : Prop := ∀ s : State, s.cmds = [] → step s = .next s

/-- A command whose opcode is not assigned answers ILLEGAL_COMMAND and changes no state (R95); while the latch is set it
answers the latch (R262). That a payload sent with it is dropped is the model's choice (log entry 5). -/
def Obligations.UnassignedOpcodeIsIllegal : Prop :=
  ∀ (s : State) (c : Command) (rest : List Command), s.cmds = c :: rest → c.word.toNat / 2 ^ 24 ∉ assigned →
    step s = done { s with cmds := rest } s.ses { status := if s.ses.fatal = 0 then 0x0A else s.ses.fatal }

/-- A step is never refused, and it faults exactly where the oldest command has an assigned opcode and a payload of
another byte count than its word states. R91 puts that outside the model; the fault is the model's choice (log entry 4). -/
def Obligations.StepFaultsOnlyOnBrokenPayload : Prop :=
  ∀ s : State, (∀ r, step s ≠ .refused r) ∧
    ∀ f, step s = .fault f ↔ ∃ c rest, s.cmds = c :: rest ∧ c.word.toNat / 2 ^ 24 ∈ assigned ∧
      c.payload.length ≠ paid c.word

/-- Every command answers with one response, in every state (R55, R92, R265). That it leaves the pending commands and the
responses already returned, RESET included, is the model's choice (log entries 1, 2 and 9). -/
def Obligations.EveryCommandAnswers : Prop :=
  ∀ (i : Instr) (s : State), ∃ (ses : Session) (r : Response), exec i s = done s ses r

/-- Commands take effect in the order issued, each completely before the next (R58): running the machine on the
encodings of a list of instructions is running the instructions one after another. That the list stands on the port in
advance is the model's choice (log entry 1). -/
def Obligations.CommandsRunInOrder : Prop :=
  ∀ (is : List Instr) (s t : State), (∀ i ∈ is, i.wellFormed = true) → runAll is s = some t →
    Host.Core.run Sys2Proof.core is.length { s with cmds := is.map encode ++ s.cmds } = .next t

/-- The opcode table (R94): each word is its row's instruction whatever its unused fields hold (R95), a bit payload being
the first `k` bits of its bytes (R91) and of RA.FRAG's `a` bit 0 alone being read (R172), and every other opcode is
illegal (R95). That it is illegal whatever payload came with it is the model's choice (log entry 5). -/
def Obligations.OpcodeTable : Prop :=
  Encodes 0x00 (fun _ _ => .nop) ∧ Encodes 0x01 (fun _ _ => .reset) ∧ Encodes 0x02 (fun a _ => .rdreg a) ∧
  Encodes 0x03 (fun a _ => .cfgMode a) ∧ Encodes 0x10 (fun a _ => .bcPeek a) ∧ Encodes 0x11 (fun a _ => .bcRdu a) ∧
  Encodes 0x12 (fun a _ => .bcRds a) ∧ Encodes 0x13 (fun _ k => .bcSkip k) ∧ Encodes 0x14 (fun _ _ => .bcPos) ∧
  Encodes 0x15 (fun _ _ => .bcRem) ∧ EncodesBits 0x16 (fun _ p => .bcAppend p) ∧
  Encodes 0x17 (fun _ _ => .bcDiscard) ∧ Encodes 0x18 (fun _ _ => .bcClear) ∧ Encodes 0x20 (fun _ _ => .crcInit) ∧
  Encodes 0x21 (fun a _ => .crcUpd a) ∧ Encodes 0x22 (fun _ _ => .crcGet) ∧
  EncodesBytes 0x23 (fun _ b => .crcCompute b) ∧ EncodesBytes 0x24 (fun _ b => .crcVerify b) ∧
  Encodes 0x28 (fun _ _ => .cs8Init) ∧ Encodes 0x29 (fun a _ => .cs8Upd a) ∧ Encodes 0x2A (fun _ _ => .cs8Get) ∧
  EncodesBytes 0x2B (fun _ b => .cs8Compute b) ∧ Encodes 0x30 (fun a _ => .fsPush a) ∧
  Encodes 0x31 (fun _ _ => .fsStep) ∧ EncodesBits 0x40 (fun a p => .raFrag (a.toNat % 2 == 1) p) ∧
  Encodes 0x50 (fun _ _ => .decHead) ∧ Encodes 0x51 (fun _ _ => .decSt1) ∧ Encodes 0x52 (fun _ _ => .decDrain) ∧
  Encodes 0x53 (fun a k => .maskRd a k) ∧ EncodesBytes 0x60 (fun _ b => .rtcmEnc b) ∧
  Encodes 0x61 (fun _ _ => .pipeNext) ∧
  ∀ (w : Word) (b : Bytes), w.toNat / 2 ^ 24 ∉ assigned →
    decode ⟨w, b⟩ = .error (.illegalCommand (BitVec.ofNat 8 (w.toNat / 2 ^ 24)))

/-- Decoding the encoding of a well-formed instruction gives the instruction back, for every operand (R90, R91, R94). -/
def Obligations.DecodeOfEncode : Prop := ∀ i : Instr, i.wellFormed = true → decode (encode i) = .ok i

/-- What the decoder reads is well-formed, has the opcode of the word it was read from, and a payload of the stated
length was delivered with it (R90, R91). -/
def Obligations.DecodedIsWellFormed : Prop :=
  ∀ (c : Command) (i : Instr), decode c = .ok i →
    i.wellFormed = true ∧ opcode i = c.word.toNat / 2 ^ 24 ∧ c.payload.length = paid c.word

/-- Words of the spec's programs P1 to P5 and what they stand for. -/
def Obligations.ProgramWordsDecode : Prop :=
  decode ⟨0x110C0000, []⟩ = .ok (.bcRdu 12) ∧ decode ⟨0x16000010, [0xFE, 0x94]⟩ =
    .ok (.bcAppend [true, true, true, true, true, true, true, false, true, false, false, true, false, true, false, false]) ∧
  decode ⟨0x24000006, [0xD3, 0x00, 0x00, 0x47, 0xEA, 0x4B]⟩ =
    .ok (.crcVerify [0xD3, 0x00, 0x00, 0x47, 0xEA, 0x4B]) ∧
  decode ⟨0x30D30000, []⟩ = .ok (.fsPush 0xD3) ∧ decode ⟨0x53010001, []⟩ = .ok (.maskRd 1 1) ∧
  decode ⟨0x61000000, []⟩ = .ok .pipeNext

/-- A word put where the step fetches runs as the instruction the decoder reads from it (log entry 18: the numbering of a
command's bits is the model's). -/
def Obligations.FetchedWordRuns : Prop :=
  ∀ (s : State) (nbits w : Nat) (i : Instr), decodeTableWord nbits w = some i →
    step (s.withFetchWord nbits w) = exec i s

/-! ### Reset, invariants, who writes what, the latch -/

/-- RESET, also while the latch is set, and power-on leave every element at the value of R44 (R101, R280). That RESET leaves
the pending commands and the responses already returned is the model's choice (log entry 9). -/
def Obligations.ResetValues : Prop :=
  let ses : Session :=
    { crc := 0, ckA := 0, ckB := 0, bb := [], bbPos := 0, fsMode := .rtcm3, fsBuf := [], fsState := .searchingSync,
      fsLen := 0, raState := .idle, raPart := 0, raSfn := 0,
      mask := { valid := false, epoch := 0, ui := 0, mmi := false, iodssr := 0, ngnss := 0, entries := [] },
      statMsg := 0, statNull := 0, statDrop := 0, fatal := 0 }
  Encodes 0x01 (fun _ _ => .reset) ∧ State.reset.ses = ses ∧ ∀ s, exec .reset s = done s ses { status := 0x00 }

/-- The reset state meets the invariants of R35. -/
def Obligations.ResetMeetsInvariants : Prop := Session.Inv Config.chip State.reset.ses

/-- Every step keeps the invariants of R35. -/
def Obligations.StepKeepsInvariants : Prop :=
  ∀ s t : State, Session.Inv Config.chip s.ses → step s = .next t → Session.Inv Config.chip t.ses

/-- In every instance, whatever its parameters and its conforming body decoder (R7, R206), every command and every step keep
the invariants of R35, and reset meets them. -/
def Obligations.OperationsKeepInvariantsForEveryChip : Prop :=
  ∀ C : Chip, Session.Inv C (State.resetFor C).ses ∧
    (∀ (i : Instr) (s t : State), Session.Inv C s.ses → execFor C i s = .next t → Session.Inv C t.ses) ∧
    ∀ s t : State, Session.Inv C s.ses → stepFor C s = .next t → Session.Inv C t.ses

/-- The write sets of R45, each element with the opcodes of the commands that may change it; while the latch is set only
RESET changes any state. -/
def Obligations.WriteSets : Prop :=
  ∀ (i : Instr) (s t : State), exec i s = .next t →
    (opcode i ∉ [0x01, 0x20, 0x21] → t.ses.crc = s.ses.crc) ∧
    (opcode i ∉ [0x01, 0x28, 0x29] → t.ses.ckA = s.ses.ckA ∧ t.ses.ckB = s.ses.ckB) ∧
    (opcode i ∉ [0x01, 0x16, 0x17, 0x18, 0x50, 0x51, 0x52, 0x40, 0x61] → t.ses.bb = s.ses.bb) ∧
    (opcode i ∉ [0x01, 0x11, 0x12, 0x13, 0x16, 0x17, 0x18, 0x50, 0x51, 0x52, 0x40, 0x61] →
      t.ses.bbPos = s.ses.bbPos) ∧
    (opcode i ∉ [0x01, 0x03] → t.ses.fsMode = s.ses.fsMode) ∧
    (opcode i ∉ [0x01, 0x03, 0x30, 0x31, 0x61] → t.ses.fsBuf = s.ses.fsBuf) ∧
    (opcode i ∉ [0x01, 0x03, 0x31, 0x61] → t.ses.fsState = s.ses.fsState ∧ t.ses.fsLen = s.ses.fsLen) ∧
    (opcode i ∉ [0x01, 0x40, 0x61] →
      t.ses.raState = s.ses.raState ∧ t.ses.raPart = s.ses.raPart ∧ t.ses.raSfn = s.ses.raSfn) ∧
    (opcode i ∉ [0x01, 0x51, 0x52, 0x40, 0x61] →
      t.ses.mask = s.ses.mask ∧ t.ses.statMsg = s.ses.statMsg ∧ t.ses.statNull = s.ses.statNull ∧
        t.ses.statDrop = s.ses.statDrop) ∧
    (opcode i ∉ [0x01, 0x16, 0x40, 0x61, 0x30] → t.ses.fatal = s.ses.fatal) ∧
    (opcode i ∈ [0x16, 0x40, 0x61] → t.ses.fatal = s.ses.fatal ∨ t.ses.fatal = 0x80) ∧
    (opcode i = 0x30 → t.ses.fatal = s.ses.fatal ∨ t.ses.fatal = 0x81) ∧
    (opcode i = 0x01 → t.ses.fatal = 0) ∧
    (s.ses.fatal ≠ 0 → opcode i ≠ 0x01 → t.ses = s.ses)

/-- The commands without side effect, which may be repeated freely (R55), leave every element as it was. -/
def Obligations.ReadersChangeNothing : Prop :=
  ∀ (i : Instr) (s t : State), exec i s = .next t →
    opcode i ∈ [0x00, 0x02, 0x10, 0x14, 0x15, 0x22, 0x23, 0x24, 0x2A, 0x2B, 0x53, 0x60] → t.ses = s.ses

/-- The fatal gate (R262): while the latch is set every command but NOP, RESET and RDREG answers it and changes
nothing; NOP answers OK. -/
def Obligations.FatalGate : Prop :=
  ∀ (i : Instr) (s : State), s.ses.fatal ≠ 0 → opcode i ∉ [0x01, 0x02] →
    exec i s = done s s.ses { status := if opcode i = 0x00 then 0x00 else s.ses.fatal }

/-- The latch is set only by the three capacity tests (R267): more bits than `BB_CAP` by BC.APPEND, RA.FRAG or
PIPE.NEXT, a byte on a full buffer by FS.PUSH. -/
def Obligations.FatalOnlyFromCapacity : Prop :=
  ∀ (i : Instr) (s t : State), exec i s = .next t → s.ses.fatal = 0 → t.ses.fatal ≠ 0 →
    (∃ p, i = .bcAppend p ∧ 16384 < s.ses.bb.length + p.length ∧ t.ses = { s.ses with fatal := 0x80 }) ∨
    (∃ p, i = .raFrag true p ∧ 16384 < p.length ∧ t.ses = { s.ses with fatal := 0x80 }) ∨
    (∃ p, i = .raFrag false p ∧ s.ses.raState = .accumulating ∧
      16384 < s.ses.bb.length - s.ses.bbPos + p.length ∧ t.ses = { s.ses with fatal := 0x80 }) ∨
    (∃ b, i = .fsPush b ∧ s.ses.fsBuf.length = 4096 ∧ t.ses = { s.ses with fatal := 0x81 }) ∨
    (i = .pipeNext ∧ s.ses.fsMode = .l6 ∧ s.ses.raState = .accumulating ∧
      16384 < s.ses.bb.length - s.ses.bbPos + 1695 ∧ t.ses.fatal = 0x80)

/-! ### System commands -/

/-- NOP answers OK always (R100). -/
def Obligations.NopAnswersOk : Prop :=
  Encodes 0x00 (fun _ _ => .nop) ∧ ∀ s : State, exec .nop s = done s s.ses { status := 0x00 }

/-- RDREG reads the register map (R40 to R42, R102), also while the latch is set. -/
def Obligations.RdregReadsTheRegisterMap : Prop :=
  Encodes 0x02 (fun a _ => .rdreg a) ∧
  ∀ (a : Byte) (s : State), Session.Inv Config.chip s.ses →
    exec (.rdreg a) s =
      match regNum s.ses a.toNat with
      | some v => done s s.ses { status := 0x00, value := BitVec.ofNat 64 v }
      | none => done s s.ses { status := 0x0B }

/-- CFG.MODE (R103). -/
def Obligations.CfgModeSetsModeAndEmptiesBytes : Prop :=
  Encodes 0x03 (fun a _ => .cfgMode a) ∧
  ∀ (a : Byte) (s : State), s.ses.fatal = 0 →
    exec (.cfgMode a) s =
      if a.toNat > 1 then done s s.ses { status := 0x0B }
      else
        done s
          { s.ses with
            fsMode := if a.toNat = 0 then .rtcm3 else .l6
            fsBuf := []
            fsState := .searchingSync
            fsLen := 0 } { status := 0x00 }

/-! ### Bit cursor -/

/-- BC.PEEK, BC.RDU and BC.RDS (R111 to R113): the bound check decides alone whether anything changes; the value is the
sum of R12, sign-extended by BC.RDS. -/
def Obligations.BoundedReads : Prop :=
  Encodes 0x10 (fun a _ => .bcPeek a) ∧ Encodes 0x11 (fun a _ => .bcRdu a) ∧ Encodes 0x12 (fun a _ => .bcRds a) ∧
  ∀ (a : Byte) (s : State), s.ses.fatal = 0 →
    let n := a.toNat
    let v := U s.ses.bb s.ses.bbPos n
    let moved := { s.ses with bbPos := s.ses.bbPos + n }
    if n = 0 ∨ n > 64 then
      ∀ i ∈ [Instr.bcPeek a, Instr.bcRdu a, Instr.bcRds a], exec i s = done s s.ses { status := 0x0B }
    else if n > s.ses.bb.length - s.ses.bbPos then
      ∀ i ∈ [Instr.bcPeek a, Instr.bcRdu a, Instr.bcRds a], exec i s = done s s.ses { status := 0x01 }
    else
      v < 2 ^ n ∧
      exec (.bcPeek a) s = done s s.ses { status := 0x00, value := BitVec.ofNat 64 v } ∧
      exec (.bcRdu a) s = done s moved { status := 0x00, value := BitVec.ofNat 64 v } ∧
      exec (.bcRds a) s =
        done s moved
          { status := 0x00, value := BitVec.ofInt 64 (if v < 2 ^ (n - 1) then (v : Int) else (v : Int) - 2 ^ n) }

/-- The laws of the cursor (R120): (a) two reads give the one read's bits; (b) a peek returns what the read would; (c) a
failure changes nothing; (d) a field one bit short fails; (e) `bb_pos + rem = len(bb)`. -/
def Obligations.CursorLaws : Prop :=
  ∀ (s : State), s.ses.fatal = 0 → s.ses.bbPos ≤ s.ses.bb.length →
    (∀ a b c : Byte, 1 ≤ a.toNat → 1 ≤ b.toNat → c.toNat = a.toNat + b.toNat → c.toNat ≤ 64 →
      s.ses.bbPos + c.toNat ≤ s.ses.bb.length →
        ∃ t1 t2 t3 v1 v2 v3, runAll [.bcRdu a] s = some t1 ∧ runAll [.bcRdu b] t1 = some t2 ∧
          runAll [.bcRdu c] s = some t3 ∧ t1.resps.head? = some { status := 0x00, value := BitVec.ofNat 64 v1 } ∧
          t2.resps.head? = some { status := 0x00, value := BitVec.ofNat 64 v2 } ∧
          t3.resps.head? = some { status := 0x00, value := BitVec.ofNat 64 v3 } ∧
          v1 < 2 ^ a.toNat ∧ v2 < 2 ^ b.toNat ∧ v3 = v1 * 2 ^ b.toNat + v2 ∧ v3 < 2 ^ 64 ∧ t2.ses = t3.ses) ∧
    (∀ (a : Byte) (ses : Session) (r : Response), exec (.bcRdu a) s = done s ses r → exec (.bcPeek a) s = done s s.ses r) ∧
    (∀ (i : Instr) (ses : Session) (r : Response), opcode i ∈ [0x10, 0x11, 0x12, 0x13] → exec i s = done s ses r →
      r.status ≠ 0x00 → (r.status = 0x01 ∨ r.status = 0x0B) ∧ ses = s.ses) ∧
    (∀ a : Byte, 1 ≤ a.toNat → a.toNat ≤ 64 → s.ses.bb.length - s.ses.bbPos = a.toNat - 1 →
      exec (.bcRdu a) s = done s s.ses { status := 0x01 }) ∧
    ∃ pos rem : Nat, exec .bcPos s = done s s.ses { status := 0x00, value := BitVec.ofNat 64 pos } ∧
      exec .bcRem s = done s s.ses { status := 0x00, value := BitVec.ofNat 64 rem } ∧ pos + rem = s.ses.bb.length

/-- BC.SKIP, BC.POS and BC.REM (R114 to R116). -/
def Obligations.SkipPosAndRem : Prop :=
  Encodes 0x13 (fun _ k => .bcSkip k) ∧ Encodes 0x14 (fun _ _ => .bcPos) ∧ Encodes 0x15 (fun _ _ => .bcRem) ∧
  ∀ s : State, s.ses.fatal = 0 →
    (∀ n : BitVec 16, exec (.bcSkip n) s =
      if n.toNat > s.ses.bb.length - s.ses.bbPos then done s s.ses { status := 0x01 }
      else done s { s.ses with bbPos := s.ses.bbPos + n.toNat } { status := 0x00 }) ∧
    exec .bcPos s = done s s.ses { status := 0x00, value := BitVec.ofNat 64 s.ses.bbPos } ∧
    exec .bcRem s = done s s.ses { status := 0x00, value := BitVec.ofNat 64 (s.ses.bb.length - s.ses.bbPos) }

/-- BC.APPEND, BC.DISCARD and BC.CLEAR (R117 to R119); BC.APPEND is the one that can raise the latch. -/
def Obligations.AppendDiscardAndClear : Prop :=
  EncodesBits 0x16 (fun _ p => .bcAppend p) ∧ Encodes 0x17 (fun _ _ => .bcDiscard) ∧
  Encodes 0x18 (fun _ _ => .bcClear) ∧
  ∀ s : State, s.ses.fatal = 0 →
    (∀ p : Bits, exec (.bcAppend p) s =
      if s.ses.bb.length + p.length > 16384 then done s { s.ses with fatal := 0x80 } { status := 0x80 }
      else done s { s.ses with bb := s.ses.bb ++ p } { status := 0x00 }) ∧
    exec .bcDiscard s = done s { s.ses with bb := s.ses.bb.drop s.ses.bbPos, bbPos := 0 } { status := 0x00 } ∧
    exec .bcClear s = done s { s.ses with bb := [], bbPos := 0 } { status := 0x00 }

/-! ### Integrity -/

/-- The table form of `Step`, which the machine uses, is the bitwise form (R131), for every generator. -/
def Obligations.CrcTableFormIsBitwiseForm : Prop :=
  ∀ (poly : BitVec 25) (c : BitVec 24) (b : Byte), poly.msb = true →
    (crcStep poly c b).toNat = crcByte poly.toNat c.toNat b.toNat

/-- CRC.INIT, CRC.UPD and CRC.GET (R133 to R135), with the bitwise `Step` of R131. -/
def Obligations.StreamingCrc : Prop :=
  Encodes 0x20 (fun _ _ => .crcInit) ∧ Encodes 0x21 (fun a _ => .crcUpd a) ∧ Encodes 0x22 (fun _ _ => .crcGet) ∧
  ∀ s : State, s.ses.fatal = 0 →
    exec .crcInit s = done s { s.ses with crc := 0 } { status := 0x00 } ∧
    (∀ b : Byte, crcByte 0x1864CFB s.ses.crc.toNat b.toNat < 2 ^ 24 ∧
      exec (.crcUpd b) s =
        done s { s.ses with crc := BitVec.ofNat 24 (crcByte 0x1864CFB s.ses.crc.toNat b.toNat) } { status := 0x00 }) ∧
    exec .crcGet s =
      done s s.ses
        { status := 0x00, value := BitVec.ofNat 64 s.ses.crc.toNat, data := .bytes (trailer s.ses.crc.toNat) }

/-- CRC.COMPUTE and CRC.VERIFY (R136, R137); the verdict is also whether the CRC of the whole frame is 0, and the value
is what CRC.INIT, the updates and CRC.GET give. -/
def Obligations.OneShotCrc : Prop :=
  EncodesBytes 0x23 (fun _ b => .crcCompute b) ∧ EncodesBytes 0x24 (fun _ b => .crcVerify b) ∧
  ∀ (b : Bytes) (s : State), s.ses.fatal = 0 →
    crcOf b < 2 ^ 24 ∧
    exec (.crcCompute b) s =
      done s s.ses { status := 0x00, value := BitVec.ofNat 64 (crcOf b), data := .bytes (trailer (crcOf b)) } ∧
    (∃ t, runAll (.crcInit :: b.map .crcUpd) s = some t ∧ t.ses = { s.ses with crc := BitVec.ofNat 24 (crcOf b) }) ∧
    exec (.crcVerify b) s =
      done s s.ses
        { status := 0x00, value := if 3 ≤ b.length ∧ crcOf (b.take (b.length - 3)) = be b (b.length - 3) then 1 else 0 } ∧
    (3 ≤ b.length → (crcOf (b.take (b.length - 3)) = be b (b.length - 3) ↔ crcOf b = 0))

/-- The round-trip law (R138): CRC.VERIFY accepts a byte string followed by what CRC.COMPUTE returns for it. -/
def Obligations.CrcRoundTrip : Prop :=
  ∀ (b : Bytes) (s : State), s.ses.fatal = 0 → b.length + 3 ≤ 65535 →
    ∃ (r : Response) (d : Bytes), exec (.crcCompute b) s = done s s.ses r ∧ r.data = .bytes d ∧
      (Instr.crcVerify (b ++ d)).wellFormed = true ∧
      exec (.crcVerify (b ++ d)) s = done s s.ses { status := 0x00, value := 1 }

/-- The 8-bit checksum (R140 to R143): two accumulators modulo 256, the second fed with the new first; CS8.COMPUTE does
not touch the registers and agrees with the streaming form. -/
def Obligations.DoubleAccumulator : Prop :=
  Encodes 0x28 (fun _ _ => .cs8Init) ∧ Encodes 0x29 (fun a _ => .cs8Upd a) ∧ Encodes 0x2A (fun _ _ => .cs8Get) ∧
  EncodesBytes 0x2B (fun _ b => .cs8Compute b) ∧
  ∀ s : State, s.ses.fatal = 0 →
    exec .cs8Init s = done s { s.ses with ckA := 0, ckB := 0 } { status := 0x00 } ∧
    (∀ v : Byte, exec (.cs8Upd v) s =
      done s
        { s.ses with
          ckA := BitVec.ofNat 8 ((s.ses.ckA.toNat + v.toNat) % 256)
          ckB := BitVec.ofNat 8 ((s.ses.ckB.toNat + (s.ses.ckA.toNat + v.toNat) % 256) % 256) } { status := 0x00 }) ∧
    exec .cs8Get s =
      done s s.ses
        { status := 0x00, value := BitVec.ofNat 64 (s.ses.ckA.toNat * 256 + s.ses.ckB.toNat),
          data := .bytes [s.ses.ckA, s.ses.ckB] } ∧
    ∀ b : Bytes,
      exec (.cs8Compute b) s =
        done s s.ses
          { status := 0x00, value := BitVec.ofNat 64 ((sums b).1 * 256 + (sums b).2),
            data := .bytes [BitVec.ofNat 8 (sums b).1, BitVec.ofNat 8 (sums b).2] } ∧
      ∃ t, runAll (.cs8Init :: b.map .cs8Upd) s = some t ∧
        t.ses = { s.ses with ckA := BitVec.ofNat 8 (sums b).1, ckB := BitVec.ofNat 8 (sums b).2 }

/-! ### Frame synchroniser -/

/-- FS.PUSH (R152): the byte goes to the back, or on a full buffer the latch takes 0x81. -/
def Obligations.PushAppendsOneByte : Prop :=
  Encodes 0x30 (fun a _ => .fsPush a) ∧
  ∀ (b : Byte) (s : State), s.ses.fatal = 0 →
    exec (.fsPush b) s =
      if s.ses.fsBuf.length = 4096 then done s { s.ses with fatal := 0x81 } { status := 0x81 }
      else done s { s.ses with fsBuf := s.ses.fsBuf ++ [b] } { status := 0x00 }

/-- FS.STEP (R153, R154, R156, R157): every buffer is bytes `g` at which no frame can begin and a rest `r` at which one
can; the step removes `g` and then takes one of the four outcomes by the length and the check of what `r` begins with. -/
def Obligations.StepFindsAFrame : Prop :=
  Encodes 0x31 (fun _ _ => .fsStep) ∧
  ∀ s : State, s.ses.fatal = 0 →
    ∃ g r, s.ses.fsBuf = g ++ r ∧ Fits s.ses.fsMode r ∧ (∀ j < g.length, ¬ Fits s.ses.fsMode (s.ses.fsBuf.drop j)) ∧
      let m := s.ses.fsMode
      let T := total m r
      let F := r.take T
      exec .fsStep s =
        if r.length < hdr m then
          done s { s.ses with fsBuf := r, fsState := .searchingSync, fsLen := 0 } { status := 0x01 }
        else if r.length < T then
          done s { s.ses with fsBuf := r, fsState := .haveLength, fsLen := frameLen m r } { status := 0x01 }
        else if m = .rtcm3 ∧ crcOf (F.take (T - 3)) ≠ be F (T - 3) then
          done s { s.ses with fsBuf := r.drop 1, fsState := .crcFail, fsLen := frameLen m r } { status := 0x02 }
        else
          done s { s.ses with fsBuf := r.drop T, fsState := .validated, fsLen := frameLen m r }
            { status := 0x00, value := BitVec.ofNat 64 (frameNum m F), data := .bytes (frameBytes m F) }

/-- The bound of R158: after a NEED_MORE_DATA of FS.STEP less than one frame is buffered, at most 1028 bytes in mode 0
and at most 249 in mode 1, and what is kept can begin a frame. -/
def Obligations.StepKeepsLessThanAFrame : Prop :=
  ∀ (s : State) (ses : Session) (r : Response), s.ses.fatal = 0 → exec .fsStep s = done s ses r → r.status = 0x01 →
    Fits ses.fsMode ses.fsBuf ∧ ses.fsBuf.length < total ses.fsMode ses.fsBuf ∧
      ses.fsBuf.length ≤ match ses.fsMode with
        | .rtcm3 => 1028
        | .l6 => 249

/-- The laws of the frame synchroniser (R159): (a) garbage without a preamble in front of a frame is skipped; (b) a frame
damaged only in its trailer costs one CHECKSUM_MISMATCH; (c) no frame with a wrong CRC is returned in mode 0; (d) a second
NEED_MORE_DATA leaves the state unchanged; no step aborts the stream. -/
def Obligations.SynchroniserLaws : Prop :=
  ∀ s : State, s.ses.fatal = 0 →
    (∀ g f : Bytes, s.ses.fsMode = .rtcm3 → s.ses.fsBuf = [] → 0xD3 ∉ g → WellFormedFrame f →
      g.length + f.length ≤ 4096 →
        ∃ t r rs, runAll ((g ++ f).map .fsPush ++ [.fsStep]) s = some t ∧ t.resps = r :: rs ∧ r.status = 0x00 ∧
          r.data = .bytes ((f.drop 3).take (f.length - 6)) ∧ t.ses.fsBuf = []) ∧
    (∀ f f' g : Bytes, s.ses.fsMode = .rtcm3 → s.ses.fsBuf = [] → WellFormedFrame f → f'.length = f.length →
      f'.take (f.length - 3) = f.take (f.length - 3) → f' ≠ f → 0xD3 ∉ f'.drop 1 → WellFormedFrame g →
      f'.length + g.length ≤ 4096 →
        ∃ t r1 r2 rs, runAll ((f' ++ g).map .fsPush ++ [.fsStep, .fsStep]) s = some t ∧ t.resps = r2 :: r1 :: rs ∧
          r1.status = 0x02 ∧ r2.status = 0x00 ∧ r2.data = .bytes ((g.drop 3).take (g.length - 6))) ∧
    (∀ (ses : Session) (r : Response), s.ses.fsMode = .rtcm3 → exec .fsStep s = done s ses r → r.status = 0x00 →
      ∃ g F, s.ses.fsBuf = g ++ F ++ ses.fsBuf ∧ WellFormedFrame F ∧
        r.data = .bytes ((F.drop 3).take (F.length - 6))) ∧
    ∀ (ses : Session) (r : Response), exec .fsStep s = done s ses r →
      ses.fatal = 0 ∧ (r.status = 0x01 → exec .fsStep { s with ses := ses } = done s ses r)

/-! ### Head, masks, drain -/

/-- DEC.HEAD (R191, R195, R98): the buffer is cut at the cursor, the head is examined and not consumed. -/
def Obligations.HeadIsExaminedNotConsumed : Prop :=
  Encodes 0x50 (fun _ _ => .decHead) ∧
  ∀ s : State, s.ses.fatal = 0 →
    exec .decHead s =
      done s (cut s) { status := (verdict (unread s)).1, value := BitVec.ofNat 64 (verdict (unread s)).2 }

/-- DEC.ST1 on an ST1 message (R86, R87, R196, R197, R199, R201, R202): whatever table it encodes replaces the old one
whole, the counters restart at its length, and exactly its bits leave the buffer. -/
def Obligations.St1DecodesWhatWasEncoded : Prop :=
  Encodes 0x51 (fun _ _ => .decSt1) ∧
  ∀ (s : State) (epoch : BitVec 20) (ui : BitVec 4) (mmi : Bool) (iod : BitVec 4) (es : List MaskEntry) (rest : Bits),
    s.ses.fatal = 0 → es.length ≤ 15 → (∀ e ∈ es, Sendable e) → unread s = st1Bits epoch ui mmi iod es ++ rest →
      let n := (st1Bits epoch ui mmi iod es).length
      n = 49 + (es.map fun e => 61 + (if e.cma then ones e.sat * ones e.sig else 0)).sum ∧
      exec .decSt1 s =
        done s
          { s.ses with
            bb := rest
            bbPos := 0
            mask :=
              { valid := true, epoch := epoch, ui := ui, mmi := mmi, iodssr := iod, ngnss := BitVec.ofNat 4 es.length,
                entries := es }
            statMsg := BitVec.ofNat 32 n
            statNull := 0
            statDrop := 0 }
          { status := 0x00, value := BitVec.ofNat 64 n, events := [.maskUpdate n] }

/-- Insufficient-buffer safety (R200, R210 (a)): every proper prefix of an ST1 message answers NEED_MORE_DATA, and
nothing but the cut at the cursor happens. -/
def Obligations.TruncatedSt1NeedsMore : Prop :=
  ∀ (s : State) (epoch : BitVec 20) (ui : BitVec 4) (mmi : Bool) (iod : BitVec 4) (es : List MaskEntry) (k : Nat),
    s.ses.fatal = 0 → es.length ≤ 15 → (∀ e ∈ es, Sendable e) → k < (st1Bits epoch ui mmi iod es).length →
    unread s = (st1Bits epoch ui mmi iod es).take k →
      exec .decSt1 s = done s (cut s) { status := 0x01 } ∧
      (k < 45 → exec .decHead s = done s (cut s) { status := 0x01 })

/-- The refusals of DEC.ST1 (R198, R202): the head's own code, WRONG_SUBTYPE on another subtype, RESERVED_SYSTEM_ID on an
entry whose system id is 8 to 15 once its 61 bits are there; nothing is dropped and the table is not touched. -/
def Obligations.St1RefusalsDropNothing : Prop :=
  ∀ s : State, s.ses.fatal = 0 →
    ((verdict (unread s)).1 ≠ 0x00 → exec .decSt1 s = done s (cut s) { status := (verdict (unread s)).1 }) ∧
    ((verdict (unread s)).1 = 0x00 → U (unread s) 12 4 ≠ 1 → exec .decSt1 s = done s (cut s) { status := 0x10 }) ∧
    ∀ (epoch : BitVec 20) (ui : BitVec 4) (mmi : Bool) (iod : BitVec 4) (ng : Nat) (es : List MaskEntry) (sys : Nat)
      (rest : Bits), es.length < ng → ng ≤ 15 → (∀ e ∈ es, Sendable e) → 8 ≤ sys → sys ≤ 15 → 57 ≤ rest.length →
      unread s = st1Front epoch ui mmi iod ng ++ es.flatMap entryBits ++ bitsN 4 sys ++ rest →
        exec .decSt1 s = done s (cut s) { status := 0x0C } ∧
        exec .decDrain s =
          done s
            { s.ses with
              bb := []
              bbPos := 0
              statDrop := s.ses.statDrop + BitVec.ofNat 32 (unread s).length }
            { status := 0x0C, events := [.error 0x0C (unread s).length] }

/-- DEC.DRAIN (R203, R204, R207 to R209), message by message: an all-zero rest is a clean end; an incomplete head waits;
a head that is none drops the buffer; an ST1 is what DEC.ST1 makes of it, and the drain goes on from there; a dependent
subtype without a mask drops the buffer, and with one it is what the body decoder says, marked stale when its IODSSR is not
the mask's. -/
def Obligations.DrainMessageByMessage : Prop :=
  Encodes 0x52 (fun _ _ => .decDrain) ∧
  ∀ s : State, s.ses.fatal = 0 →
    let b := unread s
    let drop (c : Byte) : Result :=
      done s { s.ses with bb := [], bbPos := 0, statDrop := s.ses.statDrop + BitVec.ofNat 32 b.length }
        { status := c, events := [.error c b.length] }
    let wait : Result := done s (cut s) { status := 0x01, value := BitVec.ofNat 64 b.length }
    if ∀ x ∈ b, x = false then
      exec .decDrain s =
        done s { s.ses with bb := [], bbPos := 0, statNull := s.ses.statNull + BitVec.ofNat 32 b.length }
          { status := 0x00, events := [.cleanEnd b.length] }
    else if (verdict b).1 = 0x01 then exec .decDrain s = wait
    else if (verdict b).1 ≠ 0x00 then exec .decDrain s = drop (verdict b).1
    else if U b 12 4 = 1 then
      ∃ ses r, exec .decSt1 s = done s ses r ∧
        exec .decDrain s =
          if r.status = 0x00 then before r.events (exec .decDrain { s with ses := ses })
          else if r.status = 0x01 then wait else drop r.status
    else if s.ses.mask.valid = false then exec .decDrain s = drop 0x05
    else
      let hd := portHead b
      let stale := hd.iodssr != s.ses.mask.iodssr
      match Config.chip.body.answer s.ses.mask hd stale (b.drop 37) with
      | .needMoreData => exec .decDrain s = wait
      | .reject .gridCountMismatch => exec .decDrain s = drop 0x07
      | .reject .bodyError => exec .decDrain s = drop 0x0F
      | .consumed nb rec =>
        exec .decDrain s =
          before [.record hd.subtype stale (37 + nb) rec]
            (exec .decDrain
              { s with
                ses :=
                  { s.ses with
                    bb := b.drop (37 + nb)
                    bbPos := 0
                    statMsg := s.ses.statMsg + BitVec.ofNat 32 (37 + nb) } })

/-- The laws of the drain (R210 (b) to (d)): the events account for every bit that left the buffer, so no message is
reported whose bits were not all there; after a clean end or a drop the buffer is empty, and what waits is not all zero and
begins with the message number when 12 bits of it are there. -/
def Obligations.DrainConservesBits : Prop :=
  ∀ s : State, s.ses.fatal = 0 →
    ∃ ses r, exec .decDrain s = done s ses r ∧
      (r.events.map bitsOut).sum + ses.bb.length = (unread s).length ∧ ses.bbPos = 0 ∧
      r.value = BitVec.ofNat 64 ses.bb.length ∧
      (r.status ≠ 0x01 → ses.bb = []) ∧
      (r.status = 0x01 → (∃ x ∈ ses.bb, x = true) ∧ (12 ≤ ses.bb.length → U ses.bb 0 12 = 4073) ∧
        ses.bb = (unread s).drop (r.events.map bitsOut).sum)

/-- The counters of a drain that decodes no ST1 (R30, R207): each grows, modulo 2^32, by the bits of its own events. -/
def Obligations.DrainCountsBits : Prop :=
  ∀ (s : State) (ses : Session) (r : Response), s.ses.fatal = 0 → exec .decDrain s = done s ses r →
    (∀ n, Event.maskUpdate n ∉ r.events) →
      ses.mask = s.ses.mask ∧
      ses.statMsg = s.ses.statMsg + BitVec.ofNat 32 (r.events.map recordBits).sum ∧
      ses.statNull = s.ses.statNull + BitVec.ofNat 32 (r.events.map nullBits).sum ∧
      ses.statDrop = s.ses.statDrop + BitVec.ofNat 32 (r.events.map errorBits).sum

/-- Retry after NEED_MORE_DATA (R251): a command without input of its own answers it again and changes nothing. -/
def Obligations.RetryChangesNothing : Prop :=
  ∀ (i : Instr) (s : State) (ses : Session) (r : Response),
    opcode i ∈ [0x10, 0x11, 0x12, 0x13, 0x31, 0x50, 0x51, 0x52] → s.ses.fatal = 0 → exec i s = done s ses r →
    r.status = 0x01 → exec i { s with ses := ses } = done s ses { r with events := [] }

/-- The mask table lives until the next ST1 (R205, R181 (d)): it changes only by RESET or in a command that reports a
MASK_UPDATE, and an established table stays established. -/
def Obligations.MaskLivesUntilTheNextSt1 : Prop :=
  ∀ (i : Instr) (s : State) (ses : Session) (r : Response), exec i s = done s ses r → opcode i ≠ 0x01 →
    (ses.mask = s.ses.mask ∨ ses.mask.valid = true ∧ ∃ n, Event.maskUpdate n ∈ r.events) ∧
    (s.ses.mask.valid = true → ses.mask.valid = true)

/-- MASK.RD (R214). -/
def Obligations.MaskReadOut : Prop :=
  Encodes 0x53 (fun a k => .maskRd a k) ∧
  ∀ (i : Byte) (f : BitVec 16) (s : State), s.ses.fatal = 0 → s.ses.mask.Inv →
    if s.ses.mask.valid = false then exec (.maskRd i f) s = done s s.ses { status := 0x05 }
    else if i.toNat ≥ s.ses.mask.ngnss.toNat then exec (.maskRd i f) s = done s s.ses { status := 0x0B }
    else
      ∃ e, s.ses.mask.entries[i.toNat]? = some e ∧
        let nc := e.cell.length
        let num (v : Nat) : Result := done s s.ses { status := 0x00, value := BitVec.ofNat 64 v }
        exec (.maskRd i f) s =
          match f.toNat with
          | 0 => num e.sys.toNat
          | 1 => num e.sat.toNat
          | 2 => num e.sig.toNat
          | 3 => num e.cma.toNat
          | 4 => num (ones e.sat)
          | 5 => num (ones e.sig)
          | 6 => num nc
          | f =>
            if f < 16 ∨ 25 < f ∨ nc ≤ 64 * (f - 16) then done s s.ses { status := 0x0B }
            else
              let m := min 64 (nc - 64 * (f - 16))
              done s s.ses
                { status := 0x00, value := BitVec.ofNat 64 (U e.cell (64 * (f - 16)) m),
                  data := .bits ((e.cell.drop (64 * (f - 16))).take m) }

/-! ### Reassembler -/

/-- A start fragment (R172, R173, R178, R179): too long, it raises the latch before anything changes; it abandons an
accumulation; without a whole head it is dropped; with one it replaces the buffer and is drained. -/
def Obligations.StartFragment : Prop :=
  EncodesBits 0x40 (fun a p => .raFrag (a.toNat % 2 == 1) p) ∧
  ∀ (p : Bits) (s : State), s.ses.fatal = 0 →
    let left := s.ses.bb.length - s.ses.bbPos
    let evs : List Event := if s.ses.raState = .accumulating then [.abandon left] else []
    let dropped := if s.ses.raState = .accumulating then s.ses.statDrop + BitVec.ofNat 32 left else s.ses.statDrop
    if p.length > 16384 then exec (.raFrag true p) s = done s { s.ses with fatal := 0x80 } { status := 0x80 }
    else if (verdict p).1 ≠ 0x00 then
      exec (.raFrag true p) s =
        done s
          { idleAt s.ses 0 with bb := [], bbPos := 0, statDrop := dropped + BitVec.ofNat 32 p.length }
          { status := 0x0E, events := evs ++ [.error (verdict p).1 p.length] }
    else
      AfterDrain s
        { s with
          ses :=
            { s.ses with
              bb := p
              bbPos := 0
              raState := .accumulating
              raPart := 1
              raSfn := sfnAfter (U p 12 4) s.ses.raSfn
              statDrop := dropped } }
        evs (exec (.raFrag true p) s)

/-- A continuation fragment (R172, R174, R175): while IDLE it is ignored; too long, it raises the latch before anything
changes; otherwise it goes behind the unread bits, the part number grows, and the buffer is drained. -/
def Obligations.ContinuationFragment : Prop :=
  EncodesBits 0x40 (fun a p => .raFrag (a.toNat % 2 == 1) p) ∧
  ∀ (p : Bits) (s : State), s.ses.fatal = 0 →
    if s.ses.raState = .idle then
      exec (.raFrag false p) s = done s s.ses { status := 0x0D, value := BitVec.ofNat 64 (raNum s.ses) }
    else if s.ses.bb.length - s.ses.bbPos + p.length > 16384 then
      exec (.raFrag false p) s = done s { s.ses with fatal := 0x80 } { status := 0x80 }
    else
      AfterDrain s
        { s with ses := { s.ses with bb := unread s ++ p, bbPos := 0, raPart := s.ses.raPart + 1 } }
        [] (exec (.raFrag false p) s)

/-- Laws of the reassembler (R181 (b) and (c)): PART_OVERFLOW is recoverable, and an IDLE reassembler that took the
fragment leaves no bits behind. -/
def Obligations.ReassemblerLaws : Prop :=
  ∀ (sf : Bool) (p : Bits) (s : State) (ses : Session) (r : Response), s.ses.fatal = 0 → s.ses.RaInv →
    exec (.raFrag sf p) s = done s ses r →
      (r.status = 0x09 → ses.fatal = 0 ∧ ses.raState = .idle ∧ ses.raPart = 0) ∧
      (r.status ≠ 0x0D → r.status ≠ 0x80 → ses.raState = .idle → ses.bb = []) ∧
      (ses.raState = .idle → ses.raPart = 0) ∧ ses.raPart ≤ 5

/-- Reassembly equivalence (R181 (a)): messages that drain cleanly, with zero bits behind them, cut into at most six
fragments of which the first holds a whole head and each but the last leaves the drain waiting, give from IDLE the same
MASK_UPDATE and RECORD events in the same order, the same mask table and the same message count as BC.CLEAR, BC.APPEND and
DEC.DRAIN of the messages, and the reassembler ends IDLE; this in every instance of the block, so for every conforming body
decoder and every setting of the parameters (R7, R206). -/
def Obligations.ReassemblyEquivalence : Prop :=
  ∀ (C : Chip) (s d t : State) (m first : Bits) (more : List Bits) (z : Nat) (rd : Response),
    s.ses.fatal = 0 → s.ses.raState = .idle →
    runBy (execFor C) [.bcClear, .bcAppend m, .decDrain] s = some d → d.resps.head? = some rd → rd.status = 0x00 →
    (first :: more).flatten = m ++ List.replicate z false → m.length + z ≤ C.bbCap → more.length + 1 ≤ 6 →
    (verdict first).1 = 0x00 →
    (∀ j < more.length, ∃ u r,
      runBy (execFor C) (.raFrag true first :: (more.take j).map (.raFrag false)) s = some u ∧
        u.resps.head? = some r ∧ r.status = 0x01) →
    runBy (execFor C) (.raFrag true first :: more.map (.raFrag false)) s = some t →
      (∃ r, t.resps.head? = some r ∧ r.status = 0x00) ∧ t.ses.raState = .idle ∧ t.ses.bb = [] ∧
      (((t.resps.take (more.length + 1)).reverse.flatMap (·.events)).filter isDecoded) = rd.events.filter isDecoded ∧
      t.ses.mask = d.ses.mask ∧ t.ses.statMsg = d.ses.statMsg

/-! ### Encoder and pipeline -/

/-- RTCM.ENC (R231, R71 to R76): the frame of at most 1023 bytes, refused above. -/
def Obligations.RtcmFrameIsBuilt : Prop :=
  EncodesBytes 0x60 (fun _ b => .rtcmEnc b) ∧
  ∀ (p : Bytes) (s : State), s.ses.fatal = 0 →
    exec (.rtcmEnc p) s =
      if p.length > 1023 then done s s.ses { status := 0x0B }
      else done s s.ses { status := 0x00, value := BitVec.ofNat 64 (p.length + 6), data := .bytes (frameOf p) }

/-- The RTCM3 round trip (R234): the bytes of RTCM.ENC, pushed into an empty buffer in mode 0, come back from one FS.STEP as
the payload, and CRC.VERIFY accepts them. -/
def Obligations.RtcmRoundTrip : Prop :=
  ∀ (p : Bytes) (s : State), s.ses.fatal = 0 → p.length ≤ 1023 → s.ses.fsMode = .rtcm3 → s.ses.fsBuf = [] →
    ∃ f r t rs, exec (.rtcmEnc p) s = done s s.ses r ∧ r.status = 0x00 ∧ r.data = .bytes f ∧
      runAll (f.map .fsPush ++ [.fsStep]) s = some t ∧
      t.ses = { s.ses with fsState := .validated, fsLen := BitVec.ofNat 10 p.length } ∧
      t.resps = { status := 0x00, value := BitVec.ofNat 64 p.length, data := .bytes p } :: rs ∧
      exec (.crcVerify f) s = done s s.ses { status := 0x00, value := 1 }

/-- PIPE.NEXT is the composition of FS.STEP and RA.FRAG (R235, R236, R239): the same state and events as FS.STEP and, when
that returned a frame, RA.FRAG on the fragment built from its value and data; bit 32 of the value tells that a frame was
removed. -/
def Obligations.PipeNextIsTheComposition : Prop :=
  Encodes 0x61 (fun _ _ => .pipeNext) ∧ (∀ s : State, s.ses.fatal ≠ 0 → exec .pipeNext s = exec .fsStep s) ∧
  ∀ s : State, s.ses.fatal = 0 →
    ∃ ses r, exec .fsStep s = done s ses r ∧
      if r.status ≠ 0x00 then
        exec .pipeNext s = done s ses { status := r.status, value := BitVec.ofNat 64 (raNum ses) }
      else
        ∃ b, r.data = .bytes b ∧
          let sf := match s.ses.fsMode with
            | .rtcm3 => true
            | .l6 => r.value.toNat % 2 == 1
          let p := match s.ses.fsMode with
            | .rtcm3 => firstBits b (8 * b.length)
            | .l6 => ((firstBits b 1696).drop 1).take 1695
          ∃ ses' q v, exec (.raFrag sf p) { s with ses := ses } = done s ses' q ∧
            exec .pipeNext s = done s ses' { status := q.status, value := v, events := q.events } ∧
            (q.status ≠ 0x80 → v = q.value + 0x100000000)

/-- Where R235 and R262 leave it open, PIPE.NEXT that removed a frame and raised the latch returns the value 2^32. The
model's choice (log entry 10). -/
def Obligations.PipeNextValueOnFatal : Prop :=
  ∀ (s : State) (ses : Session) (r : Response), s.ses.fatal = 0 → exec .pipeNext s = done s ses r → ses.fatal ≠ 0 →
    r = { status := 0x80, value := 0x100000000 } ∧ ses.fsBuf.length + 250 ≤ s.ses.fsBuf.length ∧
      ses.fsState = .validated ∧ ses.bb = s.ses.bb

/-- Capacity on the framed path (R182): as long as an accumulation holds at most 1695 bits a part, PIPE.NEXT in L6 mode
does not raise the latch and leaves it so. The premise is the model's reading (log entry 11). -/
def Obligations.FramedPathNeverExhausts : Prop :=
  ∀ (s : State) (ses : Session) (r : Response), s.ses.fatal = 0 → s.ses.fsMode = .l6 → s.ses.RaInv →
    (s.ses.raState = .accumulating → s.ses.bb.length - s.ses.bbPos ≤ 1695 * s.ses.raPart) →
    exec .pipeNext s = done s ses r →
      ses.fatal = 0 ∧ r.status ≠ 0x80 ∧
      (ses.raState = .accumulating → ses.bb.length - ses.bbPos ≤ 1695 * ses.raPart)

/-! ### Words of the response -/

/-- The event word (R93): kind, code, stale bit and the number of bits. -/
def Obligations.EventWord : Prop :=
  ∀ (n : Nat) (st : BitVec 4) (stale : Bool) (rec : Bits) (c : Byte), n < 2 ^ 32 →
    (eventWord (.maskUpdate n)).toNat = 2 ^ 32 * n + 2 ^ 8 * 1 + 1 ∧
    (eventWord (.record st stale n rec)).toNat = 2 ^ 32 * n + 2 ^ 16 * stale.toNat + 2 ^ 8 * st.toNat + 2 ∧
    (eventWord (.error c n)).toNat = 2 ^ 32 * n + 2 ^ 8 * c.toNat + 3 ∧
    (eventWord (.cleanEnd n)).toNat = 2 ^ 32 * n + 4 ∧
    (eventWord (.partOverflow n)).toNat = 2 ^ 32 * n + 2 ^ 8 * 0x09 + 5 ∧
    (eventWord (.abandon n)).toNat = 2 ^ 32 * n + 6

/-! ### Instances (R7) -/

/-- The machine is the instance of the block whose parameters are the defaults of R7, and these meet R7's constraints. The
defaults are the spec's choice, that the machine runs with them the model's (log entry 6). -/
def Obligations.MachineIsTheDefaultInstance : Prop :=
  (∀ (i : Instr) (s : State), exec i s = execFor Config.chip i s) ∧ (∀ s : State, step s = stepFor Config.chip s) ∧
  State.reset = State.resetFor Config.chip ∧ Config.chip.l6Pre.toList = [0x1A, 0xCF, 0xFC, 0x1D] ∧
  Config.chip.fragSkipBits = 1 ∧ Config.chip.fragPayloadBits = 1695 ∧ Config.chip.fsCap = 4096 ∧
  Config.chip.bbCap = 16384 ∧ Config.chip.crcPoly = 0x1864CFB ∧ Config.chip.crcInit = 0 ∧ Config.chip.Ok

/-- In every instance whose parameters meet R7's constraints: `CRC_INIT` is what RESET and CRC.INIT put into `crc`, `CRC_POLY`
the generator of CRC.UPD's step, `BB_CAP` the bound of BC.APPEND and what a start fragment longer than it latches on, `FS_CAP`
the bound of FS.PUSH, `L6_PRE` what a frame that FS.STEP returns in mode 1 begins with, `FRAG_SKIP_BITS` and
`FRAG_PAYLOAD_BITS` the bits of that frame PIPE.NEXT hands to RA.FRAG. The other uses of `CRC_POLY`, `CRC_INIT` and `BB_CAP`
are ChecksumsInEveryInstance and FragmentCapacityInEveryInstance. -/
def Obligations.ParametersDecideInEveryInstance : Prop :=
  ∀ (C : Chip) (s : State), C.Ok →
    execFor C .reset s = done s { Session.reset with crc := C.crcInit } { status := 0x00 } ∧
    (s.ses.fatal = 0 →
      execFor C .crcInit s = done s { s.ses with crc := C.crcInit } { status := 0x00 } ∧
      (∀ b : Byte, execFor C (.crcUpd b) s =
        done s { s.ses with crc := BitVec.ofNat 24 (crcByte C.crcPoly.toNat s.ses.crc.toNat b.toNat) } { status := 0x00 }) ∧
      (∀ p : Bits, execFor C (.bcAppend p) s =
        if s.ses.bb.length + p.length > C.bbCap then done s { s.ses with fatal := 0x80 } { status := 0x80 }
        else done s { s.ses with bb := s.ses.bb ++ p } { status := 0x00 }) ∧
      (∀ p : Bits, p.length > C.bbCap →
        execFor C (.raFrag true p) s = done s { s.ses with fatal := 0x80 } { status := 0x80 }) ∧
      (∀ b : Byte, execFor C (.fsPush b) s =
        if s.ses.fsBuf.length = C.fsCap then done s { s.ses with fatal := 0x81 } { status := 0x81 }
        else done s { s.ses with fsBuf := s.ses.fsBuf ++ [b] } { status := 0x00 }) ∧
      ∀ (ses : Session) (r : Response), s.ses.fsMode = .l6 → execFor C .fsStep s = done s ses r → r.status = 0x00 →
        ∃ g F, s.ses.fsBuf = g ++ F ++ ses.fsBuf ∧ F.length = 250 ∧ F.take 4 = C.l6Pre.toList ∧
          ∃ ses' q v,
            execFor C
              (.raFrag (r.value.toNat % 2 == 1)
                (((firstBits (F.drop 6) 1696).drop C.fragSkipBits).take C.fragPayloadBits))
              { s with ses := ses } = done s ses' q ∧
            execFor C .pipeNext s = done s ses' { status := q.status, value := v, events := q.events } ∧
            (q.status ≠ 0x80 → v = q.value + 0x100000000))

/-- In every instance `CRC_POLY` and `CRC_INIT` decide every one-shot CRC (R131): what CRC.COMPUTE returns and CRC.VERIFY
compares (R136, R137), the trailer RTCM.ENC writes (R231), and the check by which FS.STEP in mode 0 returns or refuses a
frame (R153). -/
def Obligations.ChecksumsInEveryInstance : Prop :=
  ∀ (C : Chip) (s : State), C.Ok → s.ses.fatal = 0 →
    (∀ b : Bytes, crcIn C b < 2 ^ 24 ∧
      execFor C (.crcCompute b) s =
        done s s.ses { status := 0x00, value := BitVec.ofNat 64 (crcIn C b), data := .bytes (trailer (crcIn C b)) }) ∧
    (∀ f : Bytes, execFor C (.crcVerify f) s =
      done s s.ses
        { status := 0x00
          value := if 3 ≤ f.length ∧ crcIn C (f.take (f.length - 3)) = be f (f.length - 3) then 1 else 0 }) ∧
    (∀ p : Bytes, p.length ≤ 1023 →
      let h : Bytes := [0xD3, BitVec.ofNat 8 (p.length / 256), BitVec.ofNat 8 p.length]
      execFor C (.rtcmEnc p) s =
        done s s.ses
          { status := 0x00, value := BitVec.ofNat 64 (p.length + 6),
            data := .bytes (h ++ p ++ trailer (crcIn C (h ++ p))) }) ∧
    ∀ g r : Bytes, s.ses.fsMode = .rtcm3 → s.ses.fsBuf = g ++ r → 0xD3 ∉ g → r.head? = some 0xD3 → 3 ≤ r.length →
      total .rtcm3 r ≤ r.length →
        let T := total .rtcm3 r
        let F := r.take T
        execFor C .fsStep s =
          if crcIn C (F.take (T - 3)) = be F (T - 3) then
            done s { s.ses with fsBuf := r.drop T, fsState := .validated, fsLen := BitVec.ofNat 10 (declared r) }
              { status := 0x00, value := BitVec.ofNat 64 (frameNum .rtcm3 F), data := .bytes (frameBytes .rtcm3 F) }
          else
            done s { s.ses with fsBuf := r.drop 1, fsState := .crcFail, fsLen := BitVec.ofNat 10 (declared r) }
              { status := 0x02 }

/-- In every instance RA.FRAG latches 0x80 exactly where the fragment, behind the unread bits of an accumulation it
continues, is longer than `BB_CAP` (R172); a fragment within it is answered with another status and leaves the latch clear.
A continuation while IDLE is never too long (R175). -/
def Obligations.FragmentCapacityInEveryInstance : Prop :=
  ∀ (C : Chip) (sf : Bool) (p : Bits) (s : State), s.ses.fatal = 0 →
    let held := if sf then 0 else s.ses.bb.length - s.ses.bbPos
    if (sf = true ∨ s.ses.raState = .accumulating) ∧ held + p.length > C.bbCap then
      execFor C (.raFrag sf p) s = done s { s.ses with fatal := 0x80 } { status := 0x80 }
    else
      ∃ ses r, execFor C (.raFrag sf p) s = done s ses r ∧ ses.fatal = 0 ∧ r.status ≠ 0x80
end

