-- ==== Sys2Proof/Laws/Bits.lean ====
section
/-!
SUPPORT. Lengths and bounds of bit strings, byte strings and the values read from them.
-/

namespace Sys2Proof.Machine

theorem foldl_bits_bound (s : Bits) (v : Nat) :
    s.foldl (fun v b => 2 * v + b.toNat) v < (v + 1) * 2 ^ s.length := by
  induction s generalizing v with
  | nil => simp
  | cons b s ih =>
    have hb : b.toNat ≤ 1 := by cases b <;> simp
    calc _ < (2 * v + b.toNat + 1) * 2 ^ s.length := ih _
      _ ≤ (2 * (v + 1)) * 2 ^ s.length := Nat.mul_le_mul_right _ (by omega)
      _ = _ := by simp only [List.length_cons, pow_succ]; ring

/-- A bit string of length `n` has a value below `2^n`. -/
theorem bitsToNat_lt (s : Bits) : bitsToNat s < 2 ^ s.length := by
  simpa [bitsToNat] using foldl_bits_bound s 0

@[simp] theorem length_slice {α : Type} (s : List α) (i n : Nat) :
    (slice s i n).length = min n (s.length - i) := by simp [slice]

/-- `U(s, p, n) < 2^n`. -/
theorem uval_lt (s : Bits) (p n : Nat) : uval s p n < 2 ^ n :=
  lt_of_lt_of_le (bitsToNat_lt _) (Nat.pow_le_pow_right (by omega) (by simp))

@[simp] theorem field_toNat (s : Bits) (p n : Nat) : (field s p n).toNat = uval s p n := by
  simp [field, Nat.mod_eq_of_lt (uval_lt s p n)]

theorem popcount_le {w : Nat} (v : BitVec w) : popcount v ≤ w := by
  simpa [popcount] using List.countP_le_length (p := fun i => v.getLsbD i) (l := List.range w)

@[simp] theorem length_bitsOfByte (b : Byte) : (bitsOfByte b).length = 8 := rfl

@[simp] theorem length_bitsOf (b : Bytes) : (bitsOf b).length = 8 * b.length := by
  induction b with
  | nil => rfl
  | cons x b ih =>
    have : bitsOf (x :: b) = bitsOfByte x ++ bitsOf b := rfl
    rw [this, List.length_append, ih, length_bitsOfByte, List.length_cons]; omega

@[simp] theorem length_packBytes (n : Nat) (s : Bits) : (packBytes n s).length = n := by
  induction n generalizing s with
  | zero => rfl
  | succ n ih => simp [packBytes, ih]

@[simp] theorem length_packBits (s : Bits) : (packBits s).length = (s.length + 7) / 8 := by simp [packBits]

@[simp] theorem length_bytes24 (c : BitVec 24) : (bytes24 c).length = 3 := rfl

/-- A bit string is all zero exactly when each of its bits is 0. -/
theorem allZero_iff (s : Bits) : allZero s = true ↔ ∀ b ∈ s, b = false := by simp [allZero]

@[simp] theorem allZero_append (s t : Bits) : allZero (s ++ t) = (allZero s && allZero t) := by
  simp [allZero, List.all_append]

end Sys2Proof.Machine
end

