-- ==== Sys2Proof/Laws/State.lean ====
section
/-!
SUPPORT. What each update of the state leaves in each field: one lemma per field per update, so that no proof unfolds
a record update.
-/

namespace Sys2Proof.Machine

/-! ### normalize -/

@[simp] theorem normalize_crc (s : Session) : (normalize s).crc = s.crc := rfl
@[simp] theorem normalize_ckA (s : Session) : (normalize s).ckA = s.ckA := rfl
@[simp] theorem normalize_ckB (s : Session) : (normalize s).ckB = s.ckB := rfl
@[simp] theorem normalize_bb (s : Session) : (normalize s).bb = s.bb.drop s.bbPos := rfl
@[simp] theorem normalize_bbPos (s : Session) : (normalize s).bbPos = 0 := rfl
@[simp] theorem normalize_fsMode (s : Session) : (normalize s).fsMode = s.fsMode := rfl
@[simp] theorem normalize_fsBuf (s : Session) : (normalize s).fsBuf = s.fsBuf := rfl
@[simp] theorem normalize_fsState (s : Session) : (normalize s).fsState = s.fsState := rfl
@[simp] theorem normalize_fsLen (s : Session) : (normalize s).fsLen = s.fsLen := rfl
@[simp] theorem normalize_raState (s : Session) : (normalize s).raState = s.raState := rfl
@[simp] theorem normalize_raPart (s : Session) : (normalize s).raPart = s.raPart := rfl
@[simp] theorem normalize_raSfn (s : Session) : (normalize s).raSfn = s.raSfn := rfl
@[simp] theorem normalize_mask (s : Session) : (normalize s).mask = s.mask := rfl
@[simp] theorem normalize_statMsg (s : Session) : (normalize s).statMsg = s.statMsg := rfl
@[simp] theorem normalize_statNull (s : Session) : (normalize s).statNull = s.statNull := rfl
@[simp] theorem normalize_statDrop (s : Session) : (normalize s).statDrop = s.statDrop := rfl
@[simp] theorem normalize_fatal (s : Session) : (normalize s).fatal = s.fatal := rfl

/-! ### addDrop -/

@[simp] theorem addDrop_crc (s : Session) (n : Nat) : (addDrop s n).crc = s.crc := rfl
@[simp] theorem addDrop_ckA (s : Session) (n : Nat) : (addDrop s n).ckA = s.ckA := rfl
@[simp] theorem addDrop_ckB (s : Session) (n : Nat) : (addDrop s n).ckB = s.ckB := rfl
@[simp] theorem addDrop_bb (s : Session) (n : Nat) : (addDrop s n).bb = s.bb := rfl
@[simp] theorem addDrop_bbPos (s : Session) (n : Nat) : (addDrop s n).bbPos = s.bbPos := rfl
@[simp] theorem addDrop_fsMode (s : Session) (n : Nat) : (addDrop s n).fsMode = s.fsMode := rfl
@[simp] theorem addDrop_fsBuf (s : Session) (n : Nat) : (addDrop s n).fsBuf = s.fsBuf := rfl
@[simp] theorem addDrop_fsState (s : Session) (n : Nat) : (addDrop s n).fsState = s.fsState := rfl
@[simp] theorem addDrop_fsLen (s : Session) (n : Nat) : (addDrop s n).fsLen = s.fsLen := rfl
@[simp] theorem addDrop_raState (s : Session) (n : Nat) : (addDrop s n).raState = s.raState := rfl
@[simp] theorem addDrop_raPart (s : Session) (n : Nat) : (addDrop s n).raPart = s.raPart := rfl
@[simp] theorem addDrop_raSfn (s : Session) (n : Nat) : (addDrop s n).raSfn = s.raSfn := rfl
@[simp] theorem addDrop_mask (s : Session) (n : Nat) : (addDrop s n).mask = s.mask := rfl
@[simp] theorem addDrop_statMsg (s : Session) (n : Nat) : (addDrop s n).statMsg = s.statMsg := rfl
@[simp] theorem addDrop_statNull (s : Session) (n : Nat) : (addDrop s n).statNull = s.statNull := rfl
@[simp] theorem addDrop_statDrop (s : Session) (n : Nat) : (addDrop s n).statDrop = s.statDrop + BitVec.ofNat 32 n := rfl
@[simp] theorem addDrop_fatal (s : Session) (n : Nat) : (addDrop s n).fatal = s.fatal := rfl

/-! ### addNull -/

@[simp] theorem addNull_crc (s : Session) (n : Nat) : (addNull s n).crc = s.crc := rfl
@[simp] theorem addNull_ckA (s : Session) (n : Nat) : (addNull s n).ckA = s.ckA := rfl
@[simp] theorem addNull_ckB (s : Session) (n : Nat) : (addNull s n).ckB = s.ckB := rfl
@[simp] theorem addNull_bb (s : Session) (n : Nat) : (addNull s n).bb = s.bb := rfl
@[simp] theorem addNull_bbPos (s : Session) (n : Nat) : (addNull s n).bbPos = s.bbPos := rfl
@[simp] theorem addNull_fsMode (s : Session) (n : Nat) : (addNull s n).fsMode = s.fsMode := rfl
@[simp] theorem addNull_fsBuf (s : Session) (n : Nat) : (addNull s n).fsBuf = s.fsBuf := rfl
@[simp] theorem addNull_fsState (s : Session) (n : Nat) : (addNull s n).fsState = s.fsState := rfl
@[simp] theorem addNull_fsLen (s : Session) (n : Nat) : (addNull s n).fsLen = s.fsLen := rfl
@[simp] theorem addNull_raState (s : Session) (n : Nat) : (addNull s n).raState = s.raState := rfl
@[simp] theorem addNull_raPart (s : Session) (n : Nat) : (addNull s n).raPart = s.raPart := rfl
@[simp] theorem addNull_raSfn (s : Session) (n : Nat) : (addNull s n).raSfn = s.raSfn := rfl
@[simp] theorem addNull_mask (s : Session) (n : Nat) : (addNull s n).mask = s.mask := rfl
@[simp] theorem addNull_statMsg (s : Session) (n : Nat) : (addNull s n).statMsg = s.statMsg := rfl
@[simp] theorem addNull_statNull (s : Session) (n : Nat) : (addNull s n).statNull = s.statNull + BitVec.ofNat 32 n := rfl
@[simp] theorem addNull_statDrop (s : Session) (n : Nat) : (addNull s n).statDrop = s.statDrop := rfl
@[simp] theorem addNull_fatal (s : Session) (n : Nat) : (addNull s n).fatal = s.fatal := rfl

/-! ### addMsg -/

@[simp] theorem addMsg_crc (s : Session) (n : Nat) : (addMsg s n).crc = s.crc := rfl
@[simp] theorem addMsg_ckA (s : Session) (n : Nat) : (addMsg s n).ckA = s.ckA := rfl
@[simp] theorem addMsg_ckB (s : Session) (n : Nat) : (addMsg s n).ckB = s.ckB := rfl
@[simp] theorem addMsg_bb (s : Session) (n : Nat) : (addMsg s n).bb = s.bb := rfl
@[simp] theorem addMsg_bbPos (s : Session) (n : Nat) : (addMsg s n).bbPos = s.bbPos := rfl
@[simp] theorem addMsg_fsMode (s : Session) (n : Nat) : (addMsg s n).fsMode = s.fsMode := rfl
@[simp] theorem addMsg_fsBuf (s : Session) (n : Nat) : (addMsg s n).fsBuf = s.fsBuf := rfl
@[simp] theorem addMsg_fsState (s : Session) (n : Nat) : (addMsg s n).fsState = s.fsState := rfl
@[simp] theorem addMsg_fsLen (s : Session) (n : Nat) : (addMsg s n).fsLen = s.fsLen := rfl
@[simp] theorem addMsg_raState (s : Session) (n : Nat) : (addMsg s n).raState = s.raState := rfl
@[simp] theorem addMsg_raPart (s : Session) (n : Nat) : (addMsg s n).raPart = s.raPart := rfl
@[simp] theorem addMsg_raSfn (s : Session) (n : Nat) : (addMsg s n).raSfn = s.raSfn := rfl
@[simp] theorem addMsg_mask (s : Session) (n : Nat) : (addMsg s n).mask = s.mask := rfl
@[simp] theorem addMsg_statMsg (s : Session) (n : Nat) : (addMsg s n).statMsg = s.statMsg + BitVec.ofNat 32 n := rfl
@[simp] theorem addMsg_statNull (s : Session) (n : Nat) : (addMsg s n).statNull = s.statNull := rfl
@[simp] theorem addMsg_statDrop (s : Session) (n : Nat) : (addMsg s n).statDrop = s.statDrop := rfl
@[simp] theorem addMsg_fatal (s : Session) (n : Nat) : (addMsg s n).fatal = s.fatal := rfl

/-! ### cutFront -/

@[simp] theorem cutFront_crc (s : Session) (n : Nat) : (cutFront s n).crc = s.crc := rfl
@[simp] theorem cutFront_ckA (s : Session) (n : Nat) : (cutFront s n).ckA = s.ckA := rfl
@[simp] theorem cutFront_ckB (s : Session) (n : Nat) : (cutFront s n).ckB = s.ckB := rfl
@[simp] theorem cutFront_bb (s : Session) (n : Nat) : (cutFront s n).bb = s.bb.drop n := rfl
@[simp] theorem cutFront_bbPos (s : Session) (n : Nat) : (cutFront s n).bbPos = 0 := rfl
@[simp] theorem cutFront_fsMode (s : Session) (n : Nat) : (cutFront s n).fsMode = s.fsMode := rfl
@[simp] theorem cutFront_fsBuf (s : Session) (n : Nat) : (cutFront s n).fsBuf = s.fsBuf := rfl
@[simp] theorem cutFront_fsState (s : Session) (n : Nat) : (cutFront s n).fsState = s.fsState := rfl
@[simp] theorem cutFront_fsLen (s : Session) (n : Nat) : (cutFront s n).fsLen = s.fsLen := rfl
@[simp] theorem cutFront_raState (s : Session) (n : Nat) : (cutFront s n).raState = s.raState := rfl
@[simp] theorem cutFront_raPart (s : Session) (n : Nat) : (cutFront s n).raPart = s.raPart := rfl
@[simp] theorem cutFront_raSfn (s : Session) (n : Nat) : (cutFront s n).raSfn = s.raSfn := rfl
@[simp] theorem cutFront_mask (s : Session) (n : Nat) : (cutFront s n).mask = s.mask := rfl
@[simp] theorem cutFront_statMsg (s : Session) (n : Nat) : (cutFront s n).statMsg = s.statMsg := rfl
@[simp] theorem cutFront_statNull (s : Session) (n : Nat) : (cutFront s n).statNull = s.statNull := rfl
@[simp] theorem cutFront_statDrop (s : Session) (n : Nat) : (cutFront s n).statDrop = s.statDrop := rfl
@[simp] theorem cutFront_fatal (s : Session) (n : Nat) : (cutFront s n).fatal = s.fatal := rfl

/-! ### clearBits -/

@[simp] theorem clearBits_crc (s : Session) : (clearBits s).crc = s.crc := rfl
@[simp] theorem clearBits_ckA (s : Session) : (clearBits s).ckA = s.ckA := rfl
@[simp] theorem clearBits_ckB (s : Session) : (clearBits s).ckB = s.ckB := rfl
@[simp] theorem clearBits_bb (s : Session) : (clearBits s).bb = [] := rfl
@[simp] theorem clearBits_bbPos (s : Session) : (clearBits s).bbPos = 0 := rfl
@[simp] theorem clearBits_fsMode (s : Session) : (clearBits s).fsMode = s.fsMode := rfl
@[simp] theorem clearBits_fsBuf (s : Session) : (clearBits s).fsBuf = s.fsBuf := rfl
@[simp] theorem clearBits_fsState (s : Session) : (clearBits s).fsState = s.fsState := rfl
@[simp] theorem clearBits_fsLen (s : Session) : (clearBits s).fsLen = s.fsLen := rfl
@[simp] theorem clearBits_raState (s : Session) : (clearBits s).raState = s.raState := rfl
@[simp] theorem clearBits_raPart (s : Session) : (clearBits s).raPart = s.raPart := rfl
@[simp] theorem clearBits_raSfn (s : Session) : (clearBits s).raSfn = s.raSfn := rfl
@[simp] theorem clearBits_mask (s : Session) : (clearBits s).mask = s.mask := rfl
@[simp] theorem clearBits_statMsg (s : Session) : (clearBits s).statMsg = s.statMsg := rfl
@[simp] theorem clearBits_statNull (s : Session) : (clearBits s).statNull = s.statNull := rfl
@[simp] theorem clearBits_statDrop (s : Session) : (clearBits s).statDrop = s.statDrop := rfl
@[simp] theorem clearBits_fatal (s : Session) : (clearBits s).fatal = s.fatal := rfl

/-! ### raIdle -/

@[simp] theorem raIdle_crc (s : Session) : (raIdle s).crc = s.crc := rfl
@[simp] theorem raIdle_ckA (s : Session) : (raIdle s).ckA = s.ckA := rfl
@[simp] theorem raIdle_ckB (s : Session) : (raIdle s).ckB = s.ckB := rfl
@[simp] theorem raIdle_bb (s : Session) : (raIdle s).bb = s.bb := rfl
@[simp] theorem raIdle_bbPos (s : Session) : (raIdle s).bbPos = s.bbPos := rfl
@[simp] theorem raIdle_fsMode (s : Session) : (raIdle s).fsMode = s.fsMode := rfl
@[simp] theorem raIdle_fsBuf (s : Session) : (raIdle s).fsBuf = s.fsBuf := rfl
@[simp] theorem raIdle_fsState (s : Session) : (raIdle s).fsState = s.fsState := rfl
@[simp] theorem raIdle_fsLen (s : Session) : (raIdle s).fsLen = s.fsLen := rfl
@[simp] theorem raIdle_raState (s : Session) : (raIdle s).raState = .idle := rfl
@[simp] theorem raIdle_raPart (s : Session) : (raIdle s).raPart = 0 := rfl
@[simp] theorem raIdle_raSfn (s : Session) : (raIdle s).raSfn = s.raSfn := rfl
@[simp] theorem raIdle_mask (s : Session) : (raIdle s).mask = s.mask := rfl
@[simp] theorem raIdle_statMsg (s : Session) : (raIdle s).statMsg = s.statMsg := rfl
@[simp] theorem raIdle_statNull (s : Session) : (raIdle s).statNull = s.statNull := rfl
@[simp] theorem raIdle_statDrop (s : Session) : (raIdle s).statDrop = s.statDrop := rfl
@[simp] theorem raIdle_fatal (s : Session) : (raIdle s).fatal = s.fatal := rfl

/-! ### raLost -/

@[simp] theorem raLost_crc (s : Session) : (raLost s).crc = s.crc := rfl
@[simp] theorem raLost_ckA (s : Session) : (raLost s).ckA = s.ckA := rfl
@[simp] theorem raLost_ckB (s : Session) : (raLost s).ckB = s.ckB := rfl
@[simp] theorem raLost_bb (s : Session) : (raLost s).bb = s.bb := rfl
@[simp] theorem raLost_bbPos (s : Session) : (raLost s).bbPos = s.bbPos := rfl
@[simp] theorem raLost_fsMode (s : Session) : (raLost s).fsMode = s.fsMode := rfl
@[simp] theorem raLost_fsBuf (s : Session) : (raLost s).fsBuf = s.fsBuf := rfl
@[simp] theorem raLost_fsState (s : Session) : (raLost s).fsState = s.fsState := rfl
@[simp] theorem raLost_fsLen (s : Session) : (raLost s).fsLen = s.fsLen := rfl
@[simp] theorem raLost_raState (s : Session) : (raLost s).raState = .idle := rfl
@[simp] theorem raLost_raPart (s : Session) : (raLost s).raPart = 0 := rfl
@[simp] theorem raLost_raSfn (s : Session) : (raLost s).raSfn = 0 := rfl
@[simp] theorem raLost_mask (s : Session) : (raLost s).mask = s.mask := rfl
@[simp] theorem raLost_statMsg (s : Session) : (raLost s).statMsg = s.statMsg := rfl
@[simp] theorem raLost_statNull (s : Session) : (raLost s).statNull = s.statNull := rfl
@[simp] theorem raLost_statDrop (s : Session) : (raLost s).statDrop = s.statDrop := rfl
@[simp] theorem raLost_fatal (s : Session) : (raLost s).fatal = s.fatal := rfl

/-! ### advance -/

@[simp] theorem advance_crc (s : Session) (n : Nat) : (advance s n).crc = s.crc := rfl
@[simp] theorem advance_ckA (s : Session) (n : Nat) : (advance s n).ckA = s.ckA := rfl
@[simp] theorem advance_ckB (s : Session) (n : Nat) : (advance s n).ckB = s.ckB := rfl
@[simp] theorem advance_bb (s : Session) (n : Nat) : (advance s n).bb = s.bb := rfl
@[simp] theorem advance_bbPos (s : Session) (n : Nat) : (advance s n).bbPos = s.bbPos + n := rfl
@[simp] theorem advance_fsMode (s : Session) (n : Nat) : (advance s n).fsMode = s.fsMode := rfl
@[simp] theorem advance_fsBuf (s : Session) (n : Nat) : (advance s n).fsBuf = s.fsBuf := rfl
@[simp] theorem advance_fsState (s : Session) (n : Nat) : (advance s n).fsState = s.fsState := rfl
@[simp] theorem advance_fsLen (s : Session) (n : Nat) : (advance s n).fsLen = s.fsLen := rfl
@[simp] theorem advance_raState (s : Session) (n : Nat) : (advance s n).raState = s.raState := rfl
@[simp] theorem advance_raPart (s : Session) (n : Nat) : (advance s n).raPart = s.raPart := rfl
@[simp] theorem advance_raSfn (s : Session) (n : Nat) : (advance s n).raSfn = s.raSfn := rfl
@[simp] theorem advance_mask (s : Session) (n : Nat) : (advance s n).mask = s.mask := rfl
@[simp] theorem advance_statMsg (s : Session) (n : Nat) : (advance s n).statMsg = s.statMsg := rfl
@[simp] theorem advance_statNull (s : Session) (n : Nat) : (advance s n).statNull = s.statNull := rfl
@[simp] theorem advance_statDrop (s : Session) (n : Nat) : (advance s n).statDrop = s.statDrop := rfl
@[simp] theorem advance_fatal (s : Session) (n : Nat) : (advance s n).fatal = s.fatal := rfl

/-! ### applyST1 -/

@[simp] theorem applyST1_crc (s : Session) (hd : Head) (es : List MaskEntry) (n : Nat) : (applyST1 s hd es n).crc = s.crc := rfl
@[simp] theorem applyST1_ckA (s : Session) (hd : Head) (es : List MaskEntry) (n : Nat) : (applyST1 s hd es n).ckA = s.ckA := rfl
@[simp] theorem applyST1_ckB (s : Session) (hd : Head) (es : List MaskEntry) (n : Nat) : (applyST1 s hd es n).ckB = s.ckB := rfl
@[simp] theorem applyST1_bb (s : Session) (hd : Head) (es : List MaskEntry) (n : Nat) : (applyST1 s hd es n).bb = s.bb.drop n := rfl
@[simp] theorem applyST1_bbPos (s : Session) (hd : Head) (es : List MaskEntry) (n : Nat) : (applyST1 s hd es n).bbPos = 0 := rfl
@[simp] theorem applyST1_fsMode (s : Session) (hd : Head) (es : List MaskEntry) (n : Nat) : (applyST1 s hd es n).fsMode = s.fsMode := rfl
@[simp] theorem applyST1_fsBuf (s : Session) (hd : Head) (es : List MaskEntry) (n : Nat) : (applyST1 s hd es n).fsBuf = s.fsBuf := rfl
@[simp] theorem applyST1_fsState (s : Session) (hd : Head) (es : List MaskEntry) (n : Nat) : (applyST1 s hd es n).fsState = s.fsState := rfl
@[simp] theorem applyST1_fsLen (s : Session) (hd : Head) (es : List MaskEntry) (n : Nat) : (applyST1 s hd es n).fsLen = s.fsLen := rfl
@[simp] theorem applyST1_raState (s : Session) (hd : Head) (es : List MaskEntry) (n : Nat) : (applyST1 s hd es n).raState = s.raState := rfl
@[simp] theorem applyST1_raPart (s : Session) (hd : Head) (es : List MaskEntry) (n : Nat) : (applyST1 s hd es n).raPart = s.raPart := rfl
@[simp] theorem applyST1_raSfn (s : Session) (hd : Head) (es : List MaskEntry) (n : Nat) : (applyST1 s hd es n).raSfn = s.raSfn := rfl
@[simp] theorem applyST1_mask (s : Session) (hd : Head) (es : List MaskEntry) (n : Nat) : (applyST1 s hd es n).mask = maskOf hd es := rfl
@[simp] theorem applyST1_statMsg (s : Session) (hd : Head) (es : List MaskEntry) (n : Nat) : (applyST1 s hd es n).statMsg = BitVec.ofNat 32 n := rfl
@[simp] theorem applyST1_statNull (s : Session) (hd : Head) (es : List MaskEntry) (n : Nat) : (applyST1 s hd es n).statNull = 0 := rfl
@[simp] theorem applyST1_statDrop (s : Session) (hd : Head) (es : List MaskEntry) (n : Nat) : (applyST1 s hd es n).statDrop = 0 := rfl
@[simp] theorem applyST1_fatal (s : Session) (hd : Head) (es : List MaskEntry) (n : Nat) : (applyST1 s hd es n).fatal = s.fatal := rfl

/-! ### the ports -/

@[simp] theorem State.reply_ses (s : State) (r : Reply) : (s.reply r).ses = r.1 := rfl
@[simp] theorem State.reply_cmds (s : State) (r : Reply) : (s.reply r).cmds = s.cmds := rfl
@[simp] theorem State.reply_resps (s : State) (r : Reply) : (s.reply r).resps = r.2 :: s.resps := rfl
@[simp] theorem State.withCmds_ses (s : State) (c : List Command) : (s.withCmds c).ses = s.ses := rfl
@[simp] theorem State.withCmds_cmds (s : State) (c : List Command) : (s.withCmds c).cmds = c := rfl
@[simp] theorem State.withCmds_resps (s : State) (c : List Command) : (s.withCmds c).resps = s.resps := rfl

/-! ### replies -/

@[simp] theorem answer_ses (s : Session) (c : Byte) : (answer s c).1 = s := rfl
@[simp] theorem answer_response (s : Session) (c : Byte) : (answer s c).2 = { status := c } := rfl
@[simp] theorem answerValue_ses (s : Session) (v : BitVec 64) : (answerValue s v).1 = s := rfl
@[simp] theorem answerValue_response (s : Session) (v : BitVec 64) : (answerValue s v).2 = { status := Status.ok, value := v } := rfl
@[simp] theorem raiseFatal_ses (s : Session) (c : Byte) : (raiseFatal s c).1 = { s with fatal := c } := rfl
@[simp] theorem raiseFatal_response (s : Session) (c : Byte) : (raiseFatal s c).2 = { status := c } := rfl

end Sys2Proof.Machine
end

