-- ==== Sys2Proof/Laws/Decoder.lean ====
section
/-!
SUPPORT. What the head decoder, the ST1 decoder, one pass of the drain and the drain can do, said once.
-/

namespace Sys2Proof.Machine

/-- The two ways a head decodes (R191): the ST1 head of at least 45 bits, or a dependent head of at least 37. -/
theorem headAt_head {s : Bits} {hd : Head} (h : headAt s = .head hd) :
    uval s 0 12 = 4073 ∧
    (uval s 12 4 = 1 ∧ 45 ≤ s.length ∧ hd = headST1 s ∨
      uval s 12 4 ∈ [2, 3, 4, 5, 6, 7, 8, 9, 11, 12] ∧ 37 ≤ s.length ∧ hd = headDependent s) := by
  unfold headAt at h
  split at h
  · cases h
  split at h
  · cases h
  split at h
  · cases h
  rename_i h12 hm h16
  refine ⟨by simpa using hm, ?_⟩
  have hlt := uval_lt s 12 4
  split at h
  iterate 4 cases h
  · split at h <;> cases h
  · split at h
    · cases h
    · cases h; exact .inl ⟨by assumption, by simp_all, rfl⟩
  · split at h
    · cases h
    · cases h
      rename_i n0 n13 n14 n15 n10 n1 hl
      refine .inr ⟨?_, by simpa using hl, rfl⟩
      simp only [List.mem_cons, List.not_mem_nil, or_false]
      have h0 : uval s 12 4 ≠ 0 ∧ uval s 12 4 ≠ 1 ∧ uval s 12 4 ≠ 10 := ⟨n0, n1, n10⟩
      have h1 : uval s 12 4 ≠ 13 ∧ uval s 12 4 ≠ 14 ∧ uval s 12 4 ≠ 15 := ⟨n13, n14, n15⟩
      omega

/-- A decoded head lies inside the bit string. -/
theorem headAt_len {s : Bits} {hd : Head} (h : headAt s = .head hd) : 37 ≤ hd.len ∧ hd.len ≤ s.length := by
  obtain ⟨-, ⟨-, hl, rfl⟩ | ⟨-, hl, rfl⟩⟩ := headAt_head h
  · exact ⟨show 37 ≤ 45 by decide, hl⟩
  · exact ⟨show 37 ≤ 37 by decide, hl⟩

/-- What the entry loop of `ST1At` answers (R196): as many entries as asked for, each with a cell mask of the right
size and an unreserved system id, and an offset inside the bit string. -/
theorem st1Entries_ok {s : Bits} {n o : Nat} {es : List MaskEntry} {o' : Nat}
    (h : st1Entries s n o = .ok (es, o')) (ho : o ≤ s.length) :
    es.length = n ∧ o ≤ o' ∧ o' ≤ s.length ∧
      ∀ e ∈ es, e.cell.length = nsat e * nsig e ∧ e.sys.toNat ≤ 7 := by
  induction n generalizing o es o' with
  | zero => cases h; exact ⟨rfl, Nat.le_refl _, ho, by simp⟩
  | succ n ih =>
    simp only [st1Entries] at h
    split at h
    · cases h
    split at h
    · cases h
    split at h
    · cases h
    split at h
    · cases h
    rename_i h61 h7 hc _ es' o3 hr
    cases h
    simp only [Bool.and_eq_true, decide_eq_true_eq, not_and, not_lt] at hc
    obtain ⟨hl, ho3, hs, he⟩ := ih hr (by split <;> [exact hc (by assumption); omega])
    refine ⟨by simp [hl], le_trans (by split <;> omega) ho3, hs, ?_⟩
    intro e hmem
    rcases List.mem_cons.mp hmem with rfl | hmem
    · refine ⟨?_, by simpa [entryAt] using h7⟩
      show (entryAt s o _).cell.length = popcount (field s (o + 4) 40) * popcount (field s (o + 44) 16)
      simp only [entryAt]
      split
      · have := hc (by assumption)
        simp only [length_slice, cellCount] at *
        omega
      · simp [cellCount]
    · exact he e hmem

/-- The codes with which the entry loop fails (R196). -/
theorem st1Entries_error {s : Bits} {n o : Nat} {c : Byte} (h : st1Entries s n o = .error c) :
    c = Status.needMoreData ∨ c = Status.reservedSystemId := by
  induction n generalizing o with
  | zero => cases h
  | succ n ih =>
    simp only [st1Entries] at h
    split at h
    · cases h; exact .inl rfl
    split at h
    · cases h; exact .inr rfl
    split at h
    · cases h; exact .inl rfl
    split at h
    · rename_i hr; cases h; exact ih hr
    · cases h

/-- What `ST1At` answers on success (R196). -/
theorem st1At_ok {s : Bits} {es : List MaskEntry} {n : Nat} (h : st1At s = .ok (es, n)) :
    es.length = uval s 45 4 ∧ es.length ≤ 15 ∧ 49 ≤ n ∧ n ≤ s.length ∧
      ∀ e ∈ es, e.cell.length = nsat e * nsig e ∧ e.sys.toNat ≤ 7 := by
  unfold st1At at h
  split at h
  · cases h
  · rename_i hl
    obtain ⟨h1, h2, h3, h4⟩ := st1Entries_ok h (by omega)
    have : es.length < 2 ^ 4 := h1 ▸ uval_lt s 45 4
    exact ⟨h1, by omega, h2, h3, h4⟩

/-- The codes with which `ST1At` fails (R196). -/
theorem st1At_error {s : Bits} {c : Byte} (h : st1At s = .error c) :
    c = Status.needMoreData ∨ c = Status.reservedSystemId := by
  unfold st1At at h
  split at h
  · cases h; exact .inl rfl
  · exact st1Entries_error h

/-- Everything one pass of the drain can do (R207). -/
theorem drainPass_cases (C : Chip) (s : Session) :
    (allZero s.bb = true ∧
      drainPass C s = .stop .clean (clearBits (addNull s s.bb.length)) [.cleanEnd s.bb.length]) ∨
    (allZero s.bb = false ∧
      (drainPass C s = .stop .needMore s [] ∨
      (∃ c, drainPass C s = dropAll s c) ∨
      (∃ hd es n, headAt s.bb = .head hd ∧ hd.subtype = 1 ∧ st1At s.bb = .ok (es, n) ∧
        drainPass C s = .go (applyST1 s hd es n) (.maskUpdate n)) ∨
      (∃ hd nb rec, headAt s.bb = .head hd ∧ hd.subtype ≠ 1 ∧ s.mask.valid = true ∧
        C.body.answer s.mask hd (isStale s hd) (s.bb.drop hd.len) = .consumed nb rec ∧
        drainPass C s = .go (cutFront (addMsg s (hd.len + nb)) (hd.len + nb))
          (.record hd.subtype (isStale s hd) (hd.len + nb) rec)))) := by
  by_cases hz : allZero s.bb = true
  · exact .inl ⟨hz, by simp [drainPass, hz]⟩
  refine .inr ⟨by simpa using hz, ?_⟩
  simp only [drainPass, if_neg hz]
  cases hh : headAt s.bb with
  | fail c =>
    by_cases hc : c = Status.needMoreData
    · exact .inl (if_pos hc)
    · exact .inr (.inl ⟨c, if_neg hc⟩)
  | fail10 hd => exact .inr (.inl ⟨_, rfl⟩)
  | head hd =>
    by_cases h1 : hd.subtype = 1
    · simp only [if_pos h1, passST1]
      cases hr : st1At s.bb with
      | error c =>
        by_cases hc : c = Status.needMoreData
        · exact .inl (if_pos hc)
        · exact .inr (.inl ⟨c, if_neg hc⟩)
      | ok r => exact .inr (.inr (.inl ⟨hd, r.1, r.2, rfl, h1, rfl, rfl⟩))
    · simp only [if_neg h1, passBody]
      by_cases hv : s.mask.valid = true
      · simp only [if_pos hv]
        cases hb : C.body.answer s.mask hd (isStale s hd) (s.bb.drop hd.len) with
        | needMoreData => exact .inl rfl
        | reject c => exact .inr (.inl ⟨_, rfl⟩)
        | consumed nb rec => exact .inr (.inr (.inr ⟨hd, nb, rec, rfl, h1, hv, hb, rfl⟩))
      · exact .inr (.inl ⟨_, if_neg hv⟩)

/-- A pass that goes on takes its event's bits, at least 37 of them, off the front of the buffer. -/
theorem drainPass_go {C : Chip} {s s' : Session} {ev : Event} (h : drainPass C s = .go s' ev) :
    37 ≤ eventBits ev ∧ eventBits ev ≤ s.bb.length ∧ s'.bb = s.bb.drop (eventBits ev) := by
  rcases drainPass_cases C s with ⟨-, e⟩ | ⟨-, e | ⟨c, e⟩ | ⟨hd, es, n, -, -, hr, e⟩ | ⟨hd, nb, rec, hh, -, -, hb, e⟩⟩
  · rw [e] at h; cases h
  · rw [e] at h; cases h
  · rw [e] at h; cases h
  · rw [e] at h; cases h
    obtain ⟨-, -, h1, h2, -⟩ := st1At_ok hr
    exact ⟨by simp only [eventBits]; omega, h2, rfl⟩
  · rw [e] at h; cases h
    obtain ⟨h1, h2⟩ := headAt_len hh
    have := C.body.consumed_le _ _ _ _ _ _ hb
    simp only [List.length_drop] at this
    exact ⟨by simp only [eventBits]; omega, by simp only [eventBits]; omega, rfl⟩

/-- More passes than bits are as good as any larger number of passes: the drain's fuel bounds nothing (R299). -/
theorem drainLoop_fuel (C : Chip) (f g : Nat) (s : Session) (evs : List Event)
    (hf : s.bb.length < f) (hg : s.bb.length < g) : drainLoop C f s evs = drainLoop C g s evs := by
  induction f generalizing g s evs with
  | zero => omega
  | succ f ih =>
    cases g with
    | zero => omega
    | succ g =>
      simp only [drainLoop]
      cases hp : drainPass C s with
      | stop e s' last => rfl
      | go s' ev =>
        obtain ⟨h1, h2, h3⟩ := drainPass_go hp
        have : s'.bb.length = s.bb.length - eventBits ev := by rw [h3, List.length_drop]
        exact ih g s' _ (by omega) (by omega)

theorem normalize_of_pos_zero {s : Session} (h : s.bbPos = 0) : normalize s = s := by
  cases s; cases h; rfl

/-- A pass that goes on leaves the cursor at the front. -/
theorem drainPass_go_pos {C : Chip} {s s' : Session} {ev : Event} (h : drainPass C s = .go s' ev) : s'.bbPos = 0 := by
  rcases drainPass_cases C s with ⟨-, e⟩ | ⟨-, e | ⟨c, e⟩ | ⟨_, _, _, -, -, -, e⟩ | ⟨_, _, _, -, -, -, -, e⟩⟩ <;>
    (rw [e] at h; cases h) <;> rfl

/-- The drain without fuel: the loop of R207 as its pseudocode states it. -/
theorem drain_unfold (C : Chip) (s : Session) (evs : List Event) :
    drain C s evs = match drainPass C (normalize s) with
      | .stop e s' last => (s', e, evs ++ last)
      | .go s' ev => drain C s' (evs ++ [ev]) := by
  unfold drain
  simp only [drainLoop]
  cases hp : drainPass C (normalize s) with
  | stop e s' last => rfl
  | go s' ev =>
    obtain ⟨h1, h2, h3⟩ := drainPass_go hp
    have hl : s'.bb.length = (normalize s).bb.length - eventBits ev := by rw [h3, List.length_drop]
    simp only [normalize_of_pos_zero (drainPass_go_pos hp)]
    exact drainLoop_fuel C (normalize s).bb.length (s'.bb.length + 1) s' _ (by omega) (by omega)

/-- Fields put side by side add up, each in its place. -/
theorem toNat_append_add {n m : Nat} (x : BitVec n) (y : BitVec m) : (x ++ y).toNat = x.toNat * 2 ^ m + y.toNat := by
  rw [BitVec.toNat_append, ← Nat.shiftLeft_add_eq_or_of_lt y.isLt, Nat.shiftLeft_eq]

/-- The head value of R98 as a number. -/
theorem packHead_toNat (hd : Head) (h : hd.len < 256) : (packHead hd).toNat =
    hd.msgnum.toNat + 2 ^ 12 * hd.subtype.toNat + 2 ^ 16 * hd.epoch.toNat + 2 ^ 36 * hd.ui.toNat + 2 ^ 40 * hd.mmi.toNat +
      2 ^ 41 * hd.iodssr.toNat + 2 ^ 45 * hd.len := by
  show BitVec.toNat (w := 11+8+4+1+4+20+4+12) _ = _
  unfold packHead
  simp only [toNat_append_add]
  simp [Nat.mod_eq_of_lt h]
  omega

/-- The verdict once the message number is right and the subtype is there (R191), written as one chain of tests. -/
theorem headAt_of_16 {s : Bits} (h16 : 16 ≤ s.length) (hm : uval s 0 12 = 4073) : headAt s =
    if uval s 12 4 ∈ [0, 13, 14, 15] then .fail Status.unknownSubtype
    else if uval s 12 4 = 10 then if s.length < 28 then .fail Status.needMoreData else .fail10 (headST10 s)
    else if uval s 12 4 = 1 then if s.length < 45 then .fail Status.needMoreData else .head (headST1 s)
    else if s.length < 37 then .fail Status.needMoreData else .head (headDependent s) := by
  unfold headAt
  rw [if_neg (by omega), if_neg (by simpa using hm), if_neg (by omega)]
  split <;> rename_i h
  iterate 4 simp [h]
  · simp [h]
  · simp [h]
  · rename_i n0 n13 n14 n15 n10
    have n0 : uval s 12 4 ≠ 0 := n0
    have n13 : uval s 12 4 ≠ 13 := n13
    have n14 : uval s 12 4 ≠ 14 := n14
    have n15 : uval s 12 4 ≠ 15 := n15
    have n10 : uval s 12 4 ≠ 10 := n10
    have n1 : uval s 12 4 ≠ 1 := h
    simp [n0, n13, n14, n15, n10, n1]

end Sys2Proof.Machine
end

