-- ==== Sys2Proof/Laws/Prefix.lean ====
section
/-!
SUPPORT. Values as sums of bits, and what stands whatever bits follow: heads, ST1 messages, drains (R200, R206, R210).
-/

namespace Sys2Proof.Machine

theorem bitsToNat_append (s t : Bits) : bitsToNat (s ++ t) = bitsToNat s * 2 ^ t.length + bitsToNat t := by
  have key : ∀ (t : Bits) (v : Nat), t.foldl (fun v b => 2 * v + b.toNat) v = v * 2 ^ t.length + bitsToNat t := by
    intro t
    induction t with
    | nil => intro v; simp [bitsToNat]
    | cons b t ih =>
      intro v
      simp only [bitsToNat, List.foldl_cons, List.length_cons, Nat.mul_zero, Nat.zero_add] at *
      rw [ih, ih b.toNat, pow_succ]; ring
  simp only [bitsToNat, List.foldl_append]
  exact key t _

theorem bitsToNat_eq_sum (s : Bits) :
    bitsToNat s = ∑ i ∈ Finset.range s.length, (s.getD i false).toNat * 2 ^ (s.length - 1 - i) := by
  induction s with
  | nil => rfl
  | cons b s ih =>
    have := bitsToNat_append [b] s
    rw [List.singleton_append] at this
    rw [this, ih, List.length_cons, Finset.sum_range_succ', add_comm]
    congr 1
    · refine Finset.sum_congr rfl fun i hi => ?_
      simp only [List.getD_cons_succ, Nat.add_sub_cancel]
      congr 2; omega
    · simp [bitsToNat]

/-- `U` is the sum of R12. -/
theorem uval_eq_sum {s : Bits} {p n : Nat} (h : p + n ≤ s.length) :
    uval s p n = ∑ i ∈ Finset.range n, (s.getD (p + i) false).toNat * 2 ^ (n - 1 - i) := by
  have hl : (slice s p n).length = n := by simp; omega
  rw [uval, bitsToNat_eq_sum, hl]
  refine Finset.sum_congr rfl fun i hi => ?_
  have : i < n := Finset.mem_range.mp hi
  simp [slice, List.getD_eq_getElem?_getD, this, List.getElem?_drop]

/-- The split law on values (R120). -/
theorem uval_add {s : Bits} {p m n : Nat} (h : p + m + n ≤ s.length) :
    uval s p (m + n) = uval s p m * 2 ^ n + uval s (p + m) n := by
  have e : slice s p (m + n) = slice s p m ++ slice s (p + m) n := by
    simp only [slice, List.take_add, List.drop_drop]
  have hl : (slice s (p + m) n).length = n := by simp; omega
  rw [uval, e, bitsToNat_append, hl]; rfl

/-- A value read inside a prefix does not depend on what follows. -/
theorem uval_append {s : Bits} (t : Bits) {p n : Nat} (h : p + n ≤ s.length) : uval (s ++ t) p n = uval s p n := by
  have : slice (s ++ t) p n = slice s p n := by
    simp only [slice, List.drop_append_of_le_length (show p ≤ s.length by omega)]
    exact List.take_append_of_le_length (by simp; omega)
  rw [uval, this, uval]

theorem slice_append {s : Bits} (t : Bits) {p n : Nat} (h : p + n ≤ s.length) : slice (s ++ t) p n = slice s p n := by
  simp only [slice, List.drop_append_of_le_length (show p ≤ s.length by omega)]
  exact List.take_append_of_le_length (by simp; omega)

theorem field_append {s : Bits} (t : Bits) {p n : Nat} (h : p + n ≤ s.length) : field (s ++ t) p n = field s p n := by
  rw [field, uval_append t h, field]

theorem flag_append {s : Bits} (t : Bits) {p : Nat} (h : p < s.length) : flag (s ++ t) p = flag s p := by
  simp [flag, List.getD_eq_getElem?_getD, List.getElem?_append_left h]

/-- A flag is a field of one bit. -/
theorem uval_one {s : Bits} {p : Nat} (h : p < s.length) : uval s p 1 = (flag s p).toNat := by
  rw [uval_eq_sum (by omega)]; simp [flag]

/-- A head stands whatever follows it. -/
theorem headAt_append {s : Bits} (t : Bits) (h : headAt s ≠ .fail Status.needMoreData) : headAt (s ++ t) = headAt s := by
  unfold headAt at *
  by_cases h12 : s.length < 12
  · simp [h12] at h
  have e12 : uval (s ++ t) 0 12 = uval s 0 12 := uval_append t (by omega)
  simp only [h12, if_false, e12, List.length_append, show ¬ s.length + t.length < 12 by omega] at h ⊢
  by_cases hm : uval s 0 12 ≠ Config.msgnum
  · simp only [if_pos hm]
  simp only [if_neg hm] at h ⊢
  by_cases h16 : s.length < 16
  · simp [h16] at h
  have e16 : uval (s ++ t) 12 4 = uval s 12 4 := uval_append t (by omega)
  simp only [h16, if_false, e16, show ¬ s.length + t.length < 16 by omega] at h ⊢
  split at h <;> try rfl
  all_goals
    split at h
    · simp at h
    · rename_i hl
      simp only [not_lt] at hl
      simp only [Config.head10Bits, Config.head1Bits, Config.headNBits] at hl
      rw [if_neg (by simp only [Config.head10Bits, Config.head1Bits, Config.headNBits]; omega),
        if_neg (by simp only [Config.head10Bits, Config.head1Bits, Config.headNBits]; omega)]
      simp only [headST10, headST1, headDependent]
      repeat rw [field_append t (by omega)]
      try rw [flag_append t (by omega)]

theorem entryAt_append {s : Bits} (t : Bits) {o : Nat} (cell : Bits) (h : o + 61 ≤ s.length) :
    entryAt (s ++ t) o cell = entryAt s o cell := by
  simp only [entryAt]
  rw [field_append t (by omega), field_append t (by omega), field_append t (by omega), flag_append t (by omega)]

/-- An ST1's entries stand whatever follows them. -/
theorem st1Entries_append {s : Bits} (t : Bits) {n o : Nat} (h : st1Entries s n o ≠ .error Status.needMoreData) :
    st1Entries (s ++ t) n o = st1Entries s n o := by
  induction n generalizing o with
  | zero => rfl
  | succ n ih =>
    simp only [st1Entries] at h ⊢
    by_cases h61 : s.length < o + Config.gnssEntryBits
    · simp [h61] at h
    have h61' : o + 61 ≤ s.length := by simpa using h61
    have es : uval (s ++ t) o 4 = uval s o 4 := uval_append t (by omega)
    have ef : flag (s ++ t) (o + 60) = flag s (o + 60) := flag_append t (by omega)
    have ec : cellCount (s ++ t) o = cellCount s o := by
      simp only [cellCount]; rw [field_append t (by omega), field_append t (by omega)]
    simp only [h61, if_false, es, ef, ec, List.length_append,
      show ¬ s.length + t.length < o + Config.gnssEntryBits by simp; omega] at h ⊢
    by_cases h7 : uval s o 4 > 7
    · simp only [if_pos h7]
    simp only [if_neg h7] at h ⊢
    by_cases hc : (flag s (o + 60) && decide (s.length < o + Config.gnssEntryBits + cellCount s o)) = true
    · simp [hc] at h
    have hc' : ¬ (flag s (o + 60) && decide (s.length + t.length < o + Config.gnssEntryBits + cellCount s o)) = true := by
      simp only [Bool.and_eq_true, decide_eq_true_eq, not_and] at hc ⊢
      intro hf; have := hc hf; omega
    simp only [if_neg hc, if_neg hc'] at h ⊢
    have hcell : (if flag s (o + 60) = true then slice (s ++ t) (o + Config.gnssEntryBits) (cellCount s o)
        else List.replicate (cellCount s o) true) =
        (if flag s (o + 60) = true then slice s (o + Config.gnssEntryBits) (cellCount s o)
        else List.replicate (cellCount s o) true) := by
      by_cases hf : flag s (o + 60) = true
      · simp only [if_pos hf]
        simp only [hf, Bool.true_and, decide_eq_true_eq, not_lt] at hc
        exact slice_append t hc
      · simp only [if_neg hf]
    rw [hcell, entryAt_append t _ h61']
    rw [ih]
    intro hn
    simp [hn] at h

/-- An ST1 decode stands whatever follows the bits it saw. -/
theorem st1At_append {s : Bits} (t : Bits) (h : st1At s ≠ .error Status.needMoreData) : st1At (s ++ t) = st1At s := by
  unfold st1At at *
  by_cases hl : s.length < Config.head1Bits + 4
  · simp [hl] at h
  have : ¬ (s ++ t).length < Config.head1Bits + 4 := by simp at hl ⊢; omega
  simp only [if_neg hl, if_neg this] at h ⊢
  rw [uval_append t (by simp at hl ⊢; omega)]
  exact st1Entries_append t h

/-! ### Bytes and their bits -/

theorem bitsOf_cons (x : Byte) (b : Bytes) : bitsOf (x :: b) = bitsOfByte x ++ bitsOf b := rfl

/-- `bits_of(b)[8i + j] = (b[i] >> (7 − j)) & 1` (R13). -/
theorem getElem?_bitsOf (b : Bytes) (j : Nat) (h : j < 8 * b.length) :
    (bitsOf b)[j]? = some ((b.getD (j / 8) 0).getLsbD (7 - j % 8)) := by
  induction b generalizing j with
  | nil => simp at h
  | cons x b ih =>
    rw [bitsOf_cons]
    by_cases hj : j < 8
    · rw [List.getElem?_append_left (by simpa using hj), Nat.div_eq_of_lt hj, Nat.mod_eq_of_lt hj]
      have : j = 0 ∨ j = 1 ∨ j = 2 ∨ j = 3 ∨ j = 4 ∨ j = 5 ∨ j = 6 ∨ j = 7 := by omega
      rcases this with rfl|rfl|rfl|rfl|rfl|rfl|rfl|rfl <;> rfl
    · rw [List.getElem?_append_right (by simpa using hj), length_bitsOfByte, ih _ (by simp at h; omega)]
      have e1 : j / 8 = (j - 8) / 8 + 1 := by omega
      have e2 : j % 8 = (j - 8) % 8 := by omega
      rw [e1, e2, List.getD_cons_succ]

/-- The bits of the byte that carries the first eight bits of a bit string, missing bits being 0. -/
theorem getLsbD_byteOfBits (s : Bits) (r : Nat) (hr : r < 8) : (byteOfBits s).getLsbD (7 - r) = s.getD r false := by
  have key : ∀ a b c d e f g h : Bool, ∀ r < 8,
      (BitVec.ofNat 8 (bitsToNat [a, b, c, d, e, f, g, h])).getLsbD (7 - r) = [a, b, c, d, e, f, g, h].getD r false := by
    decide +kernel
  have := key (s.getD 0 false) (s.getD 1 false) (s.getD 2 false) (s.getD 3 false) (s.getD 4 false) (s.getD 5 false)
    (s.getD 6 false) (s.getD 7 false) r hr
  refine Eq.trans this ?_
  have h : r = 0 ∨ r = 1 ∨ r = 2 ∨ r = 3 ∨ r = 4 ∨ r = 5 ∨ r = 6 ∨ r = 7 := by omega
  rcases h with rfl|rfl|rfl|rfl|rfl|rfl|rfl|rfl <;> rfl

theorem getD_packBytes (n : Nat) (s : Bits) (i : Nat) (h : i < n) :
    (packBytes n s).getD i 0 = byteOfBits (s.drop (8 * i)) := by
  induction n generalizing s i with
  | zero => omega
  | succ n ih =>
    cases i with
    | zero => rfl
    | succ i =>
      rw [packBytes, List.getD_cons_succ, ih _ _ (by omega), List.drop_drop]
      congr 2; omega

/-- A bit string comes back from the bytes that carry it (R91). -/
theorem take_packBits (s : Bits) : (bitsOf (packBits s)).take s.length = s := by
  apply List.ext_getElem?
  intro j
  by_cases hj : j < s.length
  · have hb : j / 8 < (s.length + 7) / 8 := by omega
    rw [List.getElem?_take_of_lt hj, getElem?_bitsOf _ _ (by simp; omega), packBits, getD_packBytes _ _ _ hb,
      getLsbD_byteOfBits _ _ (Nat.mod_lt _ (by omega)), List.getElem?_eq_getElem hj]
    have e : 8 * (j / 8) + j % 8 = j := by omega
    simp [List.getD_eq_getElem?_getD, List.getElem?_drop, e, hj]
  · rw [List.getElem?_eq_none (by simp; omega), List.getElem?_eq_none (by omega)]

end Sys2Proof.Machine
end

