-- ==== Sys2Proof/Laws/Reassembler.lean ====
section
/-!
SUPPORT. Induction over a drain, what a drain leaves alone, and the ends of RA.FRAG, said once.
-/

namespace Sys2Proof.Machine

theorem drain_normalize (C : Chip) (s : Session) (evs : List Event) : drain C (normalize s) evs = drain C s evs := by
  have : normalize (normalize s) = normalize s := normalize_of_pos_zero rfl
  simp only [drain, this]

/-- Induction over the passes of a drain, packaged once. -/
theorem drain_induct {C : Chip} {motive : Session → List Event → Drained → Prop}
    (stop : ∀ s evs e s' last, s.bbPos = 0 → drainPass C s = .stop e s' last → motive s evs (s', e, evs ++ last))
    (go : ∀ s evs s' ev d, s.bbPos = 0 → drainPass C s = .go s' ev → s'.bbPos = 0 → motive s' (evs ++ [ev]) d →
      motive s evs d)
    (s : Session) (evs : List Event) (h0 : s.bbPos = 0) : motive s evs (drain C s evs) := by
  suffices H : ∀ n s evs, s.bbPos = 0 → s.bb.length ≤ n → motive s evs (drain C s evs) from H _ s evs h0 le_rfl
  intro n
  induction n with
  | zero =>
    intro s evs h0 hn
    rw [drain_unfold, normalize_of_pos_zero h0]
    cases hp : drainPass C s with
    | stop e s' last => exact stop s evs e s' last h0 hp
    | go s' ev => obtain ⟨h1, h2, -⟩ := drainPass_go hp; omega
  | succ n ih =>
    intro s evs h0 hn
    rw [drain_unfold, normalize_of_pos_zero h0]
    cases hp : drainPass C s with
    | stop e s' last => exact stop s evs e s' last h0 hp
    | go s' ev =>
      obtain ⟨h1, h2, h3⟩ := drainPass_go hp
      have hl : s'.bb.length = s.bb.length - eventBits ev := by rw [h3, List.length_drop]
      have h0' := drainPass_go_pos hp
      exact go s evs s' ev _ h0 hp h0' (ih s' _ h0' (by omega))

/-- The elements a drain never writes (R45, R207). -/
structure DrainFrame (s t : Session) : Prop where
  crc : t.crc = s.crc
  ckA : t.ckA = s.ckA
  ckB : t.ckB = s.ckB
  fsMode : t.fsMode = s.fsMode
  fsBuf : t.fsBuf = s.fsBuf
  fsState : t.fsState = s.fsState
  fsLen : t.fsLen = s.fsLen
  raState : t.raState = s.raState
  raPart : t.raPart = s.raPart
  raSfn : t.raSfn = s.raSfn
  fatal : t.fatal = s.fatal

theorem DrainFrame.trans {a b c : Session} (h : DrainFrame a b) (k : DrainFrame b c) : DrainFrame a c :=
  ⟨k.crc.trans h.crc, k.ckA.trans h.ckA, k.ckB.trans h.ckB, k.fsMode.trans h.fsMode, k.fsBuf.trans h.fsBuf,
    k.fsState.trans h.fsState, k.fsLen.trans h.fsLen, k.raState.trans h.raState, k.raPart.trans h.raPart,
    k.raSfn.trans h.raSfn, k.fatal.trans h.fatal⟩

theorem drainPass_stop_frame {C : Chip} {s s' : Session} {e : DrainEnd} {last : List Event}
    (h : drainPass C s = .stop e s' last) : DrainFrame s s' := by
  rcases drainPass_cases C s with ⟨-, k⟩ | ⟨-, k | ⟨c, k⟩ | ⟨_, _, _, -, -, -, k⟩ | ⟨_, _, _, -, -, -, -, k⟩⟩ <;>
    (rw [k] at h; cases h) <;> constructor <;> rfl

theorem drainPass_go_frame {C : Chip} {s s' : Session} {ev : Event} (h : drainPass C s = .go s' ev) :
    DrainFrame s s' := by
  rcases drainPass_cases C s with ⟨-, k⟩ | ⟨-, k | ⟨c, k⟩ | ⟨_, _, _, -, -, -, k⟩ | ⟨_, _, _, -, -, -, -, k⟩⟩ <;>
    (rw [k] at h; cases h) <;> constructor <;> rfl

/-- A drain writes the bit buffer, the mask table and the counters, and nothing else. -/
theorem drain_frame (C : Chip) (s : Session) (evs : List Event) : DrainFrame s (drain C s evs).1 := by
  have h0 : DrainFrame s (normalize s) := by constructor <;> rfl
  refine h0.trans ?_
  rw [← drain_normalize]
  exact drain_induct (C := C) (motive := fun s _ d => DrainFrame s d.1)
    (fun s evs e s' last _ h => drainPass_stop_frame h)
    (fun s evs s' ev d _ h _ ih => (drainPass_go_frame h).trans ih) (normalize s) evs rfl

/-- The three ends of RA.FRAG after its drain, the last one split by the part number (R176, R177). -/
theorem raFinish_cases (s : Session) (e : DrainEnd) (evs : List Event) :
    (e = .clean ∧ raFinish (s, e, evs) =
      (raIdle s, { status := Status.ok, value := raValue (raIdle s), events := evs })) ∨
    (∃ c, e = .discarded c ∧ raFinish (s, e, evs) =
      (raLost s, { status := c, value := raValue (raLost s), events := evs })) ∨
    (e = .needMore ∧ s.raPart = 6 ∧ raFinish (s, e, evs) =
      (raLost (clearBits (addDrop s s.bb.length)),
        { status := Status.partOverflow, value := raValue (raLost (clearBits (addDrop s s.bb.length))),
          events := evs ++ [.partOverflow s.bb.length] })) ∨
    (e = .needMore ∧ s.raPart ≠ 6 ∧ raFinish (s, e, evs) =
      (s, { status := Status.needMoreData, value := raValue s, events := evs })) := by
  cases e with
  | clean => exact .inl ⟨rfl, rfl⟩
  | discarded c => exact .inr (.inl ⟨c, rfl, rfl⟩)
  | needMore =>
    by_cases h : s.raPart = 6
    · exact .inr (.inr (.inl ⟨rfl, h, by simp [raFinish, h]⟩))
    · exact .inr (.inr (.inr ⟨rfl, h, by simp [raFinish, h]⟩))

end Sys2Proof.Machine
end

