-- ==== Sys2Proof/Laws/Drain.lean ====
section
/-!
SUPPORT. What a whole drain can do, said once: its events, its ends, what it leaves, and that it goes on where it waited
when more bits stand behind (R181, R207, R210).
-/

namespace Sys2Proof.Machine

/-- The session with bits put behind its bit buffer. -/
def feed (s : Session) (t : Bits) : Session := { s with bb := s.bb ++ t }

/-- A pass that goes on does the same when more bits stand behind. -/
theorem drainPass_go_feed {C : Chip} {s s' : Session} {ev : Event} (t : Bits) (h : drainPass C s = .go s' ev) :
    drainPass C (feed s t) = .go (feed s' t) ev := by
  obtain ⟨-, hlen, hbb⟩ := drainPass_go h
  rcases drainPass_cases C s with
    ⟨-, k⟩ | ⟨hz, k | ⟨c, k⟩ | ⟨hd, es, n, hh, h1, hs, k⟩ | ⟨hd, nb, rec, hh, h1, hv, hb, k⟩⟩
  · rw [k] at h; cases h
  · rw [k] at h; cases h
  · rw [k] at h; cases h
  · have hz' : allZero (feed s t).bb = false := by simp [feed, hz]
    have hh' : headAt (feed s t).bb = .head hd := by rw [← hh]; exact headAt_append t (by rw [hh]; simp)
    have hs' : st1At (feed s t).bb = .ok (es, n) := by rw [← hs]; exact st1At_append t (by rw [hs]; simp)
    rw [k] at h; cases h
    simp only [drainPass, hz', Bool.false_eq_true, if_false, hh', if_pos h1, passST1, hs']
    simp only [eventBits] at hlen
    simp only [applyST1, feed, cutFront, List.drop_append_of_le_length hlen]
  · have hz' : allZero (feed s t).bb = false := by simp [feed, hz]
    have hh' : headAt (feed s t).bb = .head hd := by rw [← hh]; exact headAt_append t (by rw [hh]; simp)
    obtain ⟨-, hle⟩ := headAt_len hh
    have hnb := C.body.consumed_le _ _ _ _ _ _ hb
    have hb' : C.body.answer s.mask hd (isStale s hd) ((feed s t).bb.drop hd.len) = .consumed nb rec := by
      refine C.body.consumed_prefix _ _ _ _ _ _ hb _ ?_
      show ((s.bb ++ t).drop hd.len).take nb = _
      rw [List.drop_append_of_le_length hle, List.take_append_of_le_length hnb]
    have hst : isStale (feed s t) hd = isStale s hd := rfl
    have hm : (feed s t).mask = s.mask := rfl
    rw [k] at h; cases h
    simp only [drainPass, hz', Bool.false_eq_true, if_false, hh', if_neg h1, passBody, hm, if_pos hv, hst, hb']
    simp only [eventBits] at hlen
    simp only [feed, cutFront, addMsg, List.drop_append_of_le_length hlen]

theorem feed_pos (s : Session) (t : Bits) : (feed s t).bbPos = s.bbPos := rfl

theorem drainLoop_events (C : Chip) (f : Nat) (s : Session) (evs : List Event) :
    drainLoop C f s evs =
      ((drainLoop C f s []).1, (drainLoop C f s []).2.1, evs ++ (drainLoop C f s []).2.2) := by
  induction f generalizing s evs with
  | zero => simp [drainLoop]
  | succ f ih =>
    simp only [drainLoop]
    cases drainPass C s with
    | stop e s' last => simp
    | go s' ev => simp only [List.nil_append]; rw [ih s' (evs ++ [ev]), ih s' [ev]]; simp

/-- The events a drain was given only stand in front of its own (R207). -/
theorem drain_events (C : Chip) (s : Session) (evs : List Event) :
    drain C s evs = ((drain C s []).1, (drain C s []).2.1, evs ++ (drain C s []).2.2) :=
  drainLoop_events C _ _ _

/-- A pass that goes on, in front of a drain. -/
theorem drain_go {C : Chip} {s s' : Session} {ev : Event} (h0 : s.bbPos = 0) (h : drainPass C s = .go s' ev) :
    drain C s [] = ((drain C s' []).1, (drain C s' []).2.1, ev :: (drain C s' []).2.2) := by
  rw [drain_unfold, normalize_of_pos_zero h0, h]
  exact drain_events C s' [ev]

/-- A pass that stops is the drain. -/
theorem drain_stop {C : Chip} {s s' : Session} {e : DrainEnd} {last : List Event} (h0 : s.bbPos = 0)
    (h : drainPass C s = .stop e s' last) : drain C s [] = (s', e, last) := by
  rw [drain_unfold, normalize_of_pos_zero h0, h]; rfl

/-- How a pass that waits leaves the session: as it found it, with bits that are not all zero. -/
theorem drainPass_wait {C : Chip} {s s' : Session} {last : List Event} (h : drainPass C s = .stop .needMore s' last) :
    s' = s ∧ last = [] ∧ allZero s.bb = false := by
  rcases drainPass_cases C s with ⟨-, k⟩ | ⟨hz, k | ⟨c, k⟩ | ⟨_, _, _, -, -, -, k⟩ | ⟨_, _, _, -, -, -, -, k⟩⟩ <;>
    (rw [k] at h; cases h)
  exact ⟨rfl, rfl, hz⟩

/-- How a pass ends clean. -/
theorem drainPass_clean {C : Chip} {s s' : Session} {last : List Event} (h : drainPass C s = .stop .clean s' last) :
    allZero s.bb = true ∧ s' = clearBits (addNull s s.bb.length) ∧ last = [.cleanEnd s.bb.length] := by
  rcases drainPass_cases C s with ⟨hz, k⟩ | ⟨hz, k | ⟨c, k⟩ | ⟨_, _, _, -, -, -, k⟩ | ⟨_, _, _, -, -, -, -, k⟩⟩ <;>
    (rw [k] at h; cases h)
  exact ⟨hz, rfl, rfl⟩

/-- A drain that waits is the front of every drain with more bits behind: it goes on from where it waits (R181, R206). -/
theorem drain_feed {C : Chip} {s s' : Session} {evs : List Event} (t : Bits) (h0 : s.bbPos = 0)
    (h : drain C s [] = (s', .needMore, evs)) :
    drain C (feed s t) [] =
      ((drain C (feed s' t) []).1, (drain C (feed s' t) []).2.1, evs ++ (drain C (feed s' t) []).2.2) := by
  induction hn : s.bb.length using Nat.strong_induction_on generalizing s evs with
  | _ n ih =>
    cases hp : drainPass C s with
    | stop e s1 last =>
      rw [drain_stop h0 hp] at h; cases h
      obtain ⟨rfl, rfl, -⟩ := drainPass_wait hp
      simp
    | go s1 ev =>
      obtain ⟨h1, h2, h3⟩ := drainPass_go hp
      have hl : s1.bb.length = s.bb.length - eventBits ev := by rw [h3, List.length_drop]
      rw [drain_go h0 hp] at h
      simp only [Prod.mk.injEq] at h
      have := ih _ (by omega) (drainPass_go_pos hp)
        (show drain C s1 [] = (s', .needMore, (drain C s1 []).2.2) by rw [← h.1, ← h.2.1]) rfl
      rw [drain_go (show (feed s t).bbPos = 0 from h0) (drainPass_go_feed t hp), this, ← h.2.2]
      rfl

/-- A drain that ends clean does so with any number of zero bits behind; only the null count and CLEAN_END tell. -/
theorem drain_zeros {C : Chip} {s s' : Session} {evs : List Event} (z : Nat) (h0 : s.bbPos = 0)
    (h : drain C s [] = (s', .clean, evs)) :
    ∃ n pre, evs = pre ++ [.cleanEnd n] ∧
      drain C (feed s (List.replicate z false)) [] = (addNull s' z, .clean, pre ++ [.cleanEnd (n + z)]) := by
  induction hn : s.bb.length using Nat.strong_induction_on generalizing s evs with
  | _ n ih =>
    cases hp : drainPass C s with
    | stop e s1 last =>
      rw [drain_stop h0 hp] at h; cases h
      obtain ⟨hz, rfl, rfl⟩ := drainPass_clean hp
      refine ⟨s.bb.length, [], rfl, ?_⟩
      have hz' : allZero (feed s (List.replicate z false)).bb = true := by
        show allZero (s.bb ++ List.replicate z false) = true
        rw [allZero_append, hz, allZero_iff _ |>.mpr (by simp)]; rfl
      rw [drain_stop (C := C) (s := feed s (List.replicate z false)) h0 (by rw [drainPass, if_pos hz'])]
      simp only [feed, List.length_append, List.length_replicate, List.nil_append, addNull, clearBits, Prod.mk.injEq,
        and_true, Session.mk.injEq, true_and]
      rw [BitVec.add_assoc, ← BitVec.ofNat_add]
    | go s1 ev =>
      obtain ⟨h1, h2, h3⟩ := drainPass_go hp
      have hl : s1.bb.length = s.bb.length - eventBits ev := by rw [h3, List.length_drop]
      rw [drain_go h0 hp] at h
      simp only [Prod.mk.injEq] at h
      obtain ⟨m, pre, he, hd⟩ := ih _ (by omega) (drainPass_go_pos hp)
        (show drain C s1 [] = (s', .clean, (drain C s1 []).2.2) by rw [← h.1, ← h.2.1]) rfl
      refine ⟨m, ev :: pre, by rw [← h.2.2, he]; rfl, ?_⟩
      rw [drain_go (show (feed s _).bbPos = 0 from h0) (drainPass_go_feed _ hp), hd]
      rfl

/-- Induction over the passes of a drain with no events given. -/
theorem drain_induct_nil {C : Chip} {motive : Session → Drained → Prop}
    (stop : ∀ s e s' last, s.bbPos = 0 → drainPass C s = .stop e s' last → motive s (s', e, last))
    (go : ∀ s s' ev s'' e evs, s.bbPos = 0 → drainPass C s = .go s' ev → s'.bbPos = 0 → motive s' (s'', e, evs) →
      motive s (s'', e, ev :: evs))
    (s : Session) (h0 : s.bbPos = 0) : motive s (drain C s []) := by
  induction hn : s.bb.length using Nat.strong_induction_on generalizing s with
  | _ n ih =>
    cases hp : drainPass C s with
    | stop e s' last => rw [drain_stop h0 hp]; exact stop s e s' last h0 hp
    | go s' ev =>
      obtain ⟨h1, h2, h3⟩ := drainPass_go hp
      have hl : s'.bb.length = s.bb.length - eventBits ev := by rw [h3, List.length_drop]
      rw [drain_go h0 hp]
      exact go s s' ev _ _ _ h0 hp (drainPass_go_pos hp) (ih _ (by omega) s' (drainPass_go_pos hp) rfl)

/-- The codes a head fails with (R191). -/
theorem headAt_fail {s : Bits} {c : Byte} (h : headAt s = .fail c) :
    c = Status.needMoreData ∨ c = Status.unknownMessageNumber ∨ c = Status.unknownSubtype := by
  unfold headAt at h
  repeat' split at h
  all_goals first | (cases h; simp) | cases h

/-- What a pass that drops drops with (R209). -/
theorem drainPass_drop {C : Chip} {s s' : Session} {c : Byte} {last : List Event}
    (h : drainPass C s = .stop (.discarded c) s' last) :
    c ∈ [(0x03 : Byte), 0x04, 0x05, 0x07, 0x08, 0x0C, 0x0F] ∧ allZero s.bb = false ∧
      s' = clearBits (addDrop s s.bb.length) ∧ last = [.error c s.bb.length] := by
  unfold drainPass at h
  split at h
  · cases h
  rename_i hz
  have hz : allZero s.bb = false := by simpa using hz
  have fin : ∀ c', dropAll s c' = DrainPass.stop (.discarded c) s' last →
      c' ∈ [(0x03 : Byte), 0x04, 0x05, 0x07, 0x08, 0x0C, 0x0F] →
      c ∈ [(0x03 : Byte), 0x04, 0x05, 0x07, 0x08, 0x0C, 0x0F] ∧ allZero s.bb = false ∧
      s' = clearBits (addDrop s s.bb.length) ∧ last = [.error c s.bb.length] := by
    intro c' h hc; cases h; exact ⟨hc, hz, rfl, rfl⟩
  split at h
  · rename_i c' hh
    split at h
    · cases h
    · refine fin c' h ?_
      rcases headAt_fail hh with rfl | rfl | rfl
      · contradiction
      · decide
      · decide
  · exact fin _ h (by decide)
  · split at h
    · unfold passST1 at h
      split at h
      · rename_i c' hs
        split at h
        · cases h
        · refine fin c' h ?_
          rcases st1At_error hs with rfl | rfl
          · contradiction
          · decide
      · cases h
    · unfold passBody at h
      split at h
      · split at h
        · cases h
        · rename_i c' _
          exact fin _ h (by cases c' <;> decide)
        · cases h
      · exact fin _ h (by decide)

/-- What a drain leaves (R207, R210): the cursor at the front; the bits its events do not account for; nothing after a
clean end or a drop; after a wait a session on which the next pass waits again. -/
theorem drain_leaves (C : Chip) (s : Session) (h0 : s.bbPos = 0) :
    (drain C s []).1.bbPos = 0 ∧
    (drain C s []).1.bb = s.bb.drop ((drain C s []).2.2.map eventBits).sum ∧
    ((drain C s []).2.2.map eventBits).sum ≤ s.bb.length ∧
    match (drain C s []).2.1 with
    | .clean => (drain C s []).1.bb = []
    | .discarded c => (drain C s []).1.bb = [] ∧ c ∈ [(0x03 : Byte), 0x04, 0x05, 0x07, 0x08, 0x0C, 0x0F]
    | .needMore => drainPass C (drain C s []).1 = .stop .needMore (drain C s []).1 [] := by
  refine drain_induct_nil (C := C) (motive := fun s d =>
    d.1.bbPos = 0 ∧ d.1.bb = s.bb.drop (d.2.2.map eventBits).sum ∧ (d.2.2.map eventBits).sum ≤ s.bb.length ∧
    match d.2.1 with
    | .clean => d.1.bb = []
    | .discarded c => d.1.bb = [] ∧ c ∈ [(0x03 : Byte), 0x04, 0x05, 0x07, 0x08, 0x0C, 0x0F]
    | .needMore => drainPass C d.1 = .stop .needMore d.1 []) ?_ ?_ s h0
  · intro s e s' last h0 h
    cases e with
    | clean =>
      obtain ⟨-, rfl, rfl⟩ := drainPass_clean h
      simp [clearBits, eventBits]
    | needMore =>
      obtain ⟨rfl, rfl, -⟩ := drainPass_wait h
      simp [h0, h]
    | discarded c =>
      obtain ⟨hc, -, rfl, rfl⟩ := drainPass_drop h
      exact ⟨rfl, by simp [clearBits, eventBits], by simp [eventBits], rfl, hc⟩
  · intro s s' ev s'' e evs h0 h h0' ⟨i1, i2, i3, i4⟩
    obtain ⟨h1, h2, h3⟩ := drainPass_go h
    rw [h3] at i2 i3
    rw [List.length_drop] at i3
    refine ⟨i1, ?_, ?_, i4⟩
    · rw [i2, List.drop_drop]; simp
    · simp only [List.map_cons, List.sum_cons] at i3 ⊢; omega

/-- The mask table changes in a drain only with a reported MASK_UPDATE, and stays established (R205). -/
theorem drain_mask (C : Chip) (s : Session) (h0 : s.bbPos = 0) :
    ((drain C s []).1.mask = s.mask ∨
      (drain C s []).1.mask.valid = true ∧ ∃ n, Event.maskUpdate n ∈ (drain C s []).2.2) ∧
    (s.mask.valid = true → (drain C s []).1.mask.valid = true) := by
  refine drain_induct_nil (C := C) (motive := fun s d =>
    (d.1.mask = s.mask ∨ d.1.mask.valid = true ∧ ∃ n, Event.maskUpdate n ∈ d.2.2) ∧
    (s.mask.valid = true → d.1.mask.valid = true)) ?_ ?_ s h0
  · intro s e s' last h0 h
    have : s'.mask = s.mask := by
      cases e with
      | clean => obtain ⟨-, rfl, -⟩ := drainPass_clean h; rfl
      | needMore => obtain ⟨rfl, -⟩ := drainPass_wait h; rfl
      | discarded c => obtain ⟨-, -, rfl, -⟩ := drainPass_drop h; rfl
    exact ⟨.inl this, by rw [this]; exact id⟩
  · intro s s' ev s'' e evs h0 h h0' ⟨i1, i2⟩
    rcases drainPass_cases C s with
      ⟨-, k⟩ | ⟨-, k | ⟨c, k⟩ | ⟨hd, es, n, -, -, -, k⟩ | ⟨hd, nb, rec, -, -, hv, -, k⟩⟩ <;>
      (rw [k] at h; cases h)
    · have hv : s''.mask.valid = true := i2 rfl
      exact ⟨.inr ⟨hv, n, by simp⟩, fun _ => hv⟩
    · refine ⟨?_, i2⟩
      rcases i1 with i1 | ⟨i1, n, hn⟩
      · exact .inl i1
      · exact .inr ⟨i1, n, by simp [hn]⟩

/-- Every table a drain leaves meets the invariants (R35). -/
theorem drain_maskInv (C : Chip) (s : Session) (h0 : s.bbPos = 0) (hm : s.mask.Inv) : (drain C s []).1.mask.Inv := by
  revert hm
  refine drain_induct_nil (C := C) (motive := fun s d => s.mask.Inv → d.1.mask.Inv) ?_ ?_ s h0
  · intro s e s' last h0 h hm
    cases e with
    | clean => obtain ⟨-, rfl, -⟩ := drainPass_clean h; exact hm
    | needMore => obtain ⟨rfl, -⟩ := drainPass_wait h; exact hm
    | discarded c => obtain ⟨-, -, rfl, -⟩ := drainPass_drop h; exact hm
  · intro s s' ev s'' e evs h0 h h0' ih hm
    apply ih
    rcases drainPass_cases C s with
      ⟨-, k⟩ | ⟨-, k | ⟨c, k⟩ | ⟨hd, es, n, -, -, hr, k⟩ | ⟨hd, nb, rec, -, -, hv, -, k⟩⟩ <;>
      (rw [k] at h; cases h)
    · obtain ⟨-, h15, -, -, he⟩ := st1At_ok hr
      refine ⟨?_, fun h => absurd (show true = false from h) (by decide), fun e hmem => he e hmem⟩
      show es.length = (BitVec.ofNat 4 es.length).toNat
      rw [BitVec.toNat_ofNat, Nat.mod_eq_of_lt (by omega)]
    · exact hm

/-- The session with the reassembler's registers set. -/
def withRa (s : Session) (st : RaState) (n : Nat) (f : Byte) : Session :=
  { s with raState := st, raPart := n, raSfn := f }

/-- A pass neither reads nor writes the reassembler's registers. -/
theorem drainPass_withRa (C : Chip) (s : Session) (st : RaState) (n : Nat) (f : Byte) :
    drainPass C (withRa s st n f) = match drainPass C s with
      | .stop e s' last => .stop e (withRa s' st n f) last
      | .go s' ev => .go (withRa s' st n f) ev := by
  have e1 : (withRa s st n f).bb = s.bb := rfl
  have e2 : (withRa s st n f).mask = s.mask := rfl
  have e3 : ∀ hd, isStale (withRa s st n f) hd = isStale s hd := fun _ => rfl
  unfold drainPass
  rw [e1]
  by_cases hz : allZero s.bb = true
  · simp only [if_pos hz]; rfl
  simp only [if_neg hz]
  cases headAt s.bb with
  | fail c =>
    dsimp only
    by_cases hc : c = Status.needMoreData
    · simp only [if_pos hc]
    · simp only [if_neg hc]; rfl
  | fail10 _ => rfl
  | head hd =>
    dsimp only
    by_cases h1 : hd.subtype = 1
    · simp only [if_pos h1, passST1, e1]
      cases st1At s.bb with
      | error c =>
        dsimp only
        by_cases hc : c = Status.needMoreData
        · simp only [if_pos hc]
        · simp only [if_neg hc]; rfl
      | ok r => rfl
    · simp only [if_neg h1, passBody, e1, e2, e3]
      by_cases hv : s.mask.valid = true
      · simp only [if_pos hv]
        cases C.body.answer s.mask hd (isStale s hd) (s.bb.drop hd.len) <;> rfl
      · simp only [if_neg hv]; rfl

/-- A drain neither reads nor writes the reassembler's registers. -/
theorem drain_withRa (C : Chip) (s : Session) (st : RaState) (n : Nat) (f : Byte) (h0 : s.bbPos = 0) :
    drain C (withRa s st n f) [] = (withRa (drain C s []).1 st n f, (drain C s []).2.1, (drain C s []).2.2) := by
  refine drain_induct_nil (C := C) (motive := fun s d => drain C (withRa s st n f) [] = (withRa d.1 st n f, d.2.1, d.2.2))
    ?_ ?_ s h0
  · intro s e s' last h0 h
    exact drain_stop h0 (by rw [drainPass_withRa, h])
  · intro s s' ev s'' e evs h0 h h0' ih
    rw [drain_go (s := withRa s st n f) (s' := withRa s' st n f) h0 (by rw [drainPass_withRa, h]), ih]

end Sys2Proof.Machine
end

