-- ==== Sys2Proof/Laws/FrameSync.lean ====
section
/-!
SUPPORT. What the sync search and one FS.STEP can do, said once.
-/

namespace Sys2Proof.Machine

/-- `Compatible` (R151), byte by byte. -/
theorem compatible_iff (pat buf : Bytes) :
    compatible pat buf = true ↔ ∀ i (h1 : i < pat.length) (h2 : i < buf.length), buf[i] = pat[i] := by
  induction pat generalizing buf with
  | nil => simp [compatible]
  | cons p pat ih =>
    cases buf with
    | nil => simp [compatible]
    | cons b buf =>
      simp only [compatible, Bool.and_eq_true, beq_iff_eq, ih]
      constructor
      · rintro ⟨rfl, h⟩ i h1 h2
        cases i with
        | zero => rfl
        | succ i => exact h i (by simpa using h1) (by simpa using h2)
      · intro h
        refine ⟨(h 0 (by simp) (by simp)).symm, fun i h1 h2 => ?_⟩
        have := h (i + 1) (by simpa using h1) (by simpa using h2)
        simpa only [List.getElem_cons_succ] using this

/-- The sync search removes a prefix each of whose places is incompatible, and stops at a compatible one (R153). -/
theorem syncSearch_spec (pat buf : Bytes) :
    ∃ g, buf = g ++ syncSearch pat buf ∧ compatible pat (syncSearch pat buf) = true ∧
      ∀ j < g.length, compatible pat (buf.drop j) = false := by
  induction buf with
  | nil => exact ⟨[], rfl, by cases pat <;> rfl, by simp⟩
  | cons b buf ih =>
    by_cases hc : compatible pat (b :: buf) = true
    · exact ⟨[], by simp [syncSearch, hc], by simp [syncSearch, hc], by simp⟩
    · obtain ⟨g, h1, h2, h3⟩ := ih
      have hs : syncSearch pat (b :: buf) = syncSearch pat buf := by simp [syncSearch, hc]
      refine ⟨b :: g, by rw [hs, List.cons_append, ← h1], by rw [hs]; exact h2, ?_⟩
      intro j hj
      cases j with
      | zero => simpa using hc
      | succ j => exact h3 j (by simpa using hj)

/-- The sync search is determined by where the first compatible place is. -/
theorem syncSearch_eq {pat g r : Bytes} (hr : compatible pat r = true)
    (hg : ∀ j < g.length, compatible pat ((g ++ r).drop j) = false) : syncSearch pat (g ++ r) = r := by
  induction g with
  | nil =>
    cases r with
    | nil => rfl
    | cons b r => simp only [List.nil_append, syncSearch, if_pos hr]
  | cons b g ih =>
    have h0 := hg 0 (by simp)
    simp only [List.drop_zero, List.cons_append] at h0
    simp only [List.cons_append, syncSearch, h0]
    exact ih fun j hj => by simpa using hg (j + 1) (by simpa using hj)

/-- The length an FS.STEP records (R153). -/
def stepLen (m : FsMode) (buf : Bytes) : BitVec 10 :=
  match m with
  | .rtcm3 => BitVec.ofNat 10 (frameTotal m buf - 6)
  | .l6 => 0

/-- The four outcomes of FS.STEP (R157), `buf` being the buffer after the sync search. -/
theorem fsStepOp_cases (C : Chip) (s : Session) :
    ∃ buf, buf = syncSearch (syncPattern C s.fsMode) s.fsBuf ∧
    ((buf.length < headerBytes s.fsMode ∧
        fsStepOp C s = answer { s with fsBuf := buf, fsState := .searchingSync, fsLen := 0 } Status.needMoreData) ∨
      (headerBytes s.fsMode ≤ buf.length ∧ buf.length < frameTotal s.fsMode buf ∧
        fsStepOp C s =
          answer { s with fsBuf := buf, fsState := .haveLength, fsLen := stepLen s.fsMode buf } Status.needMoreData) ∨
      (headerBytes s.fsMode ≤ buf.length ∧ frameTotal s.fsMode buf ≤ buf.length ∧
        frameGood C s.fsMode (buf.take (frameTotal s.fsMode buf)) = true ∧
        fsStepOp C s =
          ({ s with
              fsBuf := buf.drop (frameTotal s.fsMode buf), fsState := .validated, fsLen := stepLen s.fsMode buf },
            { status := Status.ok, value := frameValue s.fsMode (buf.take (frameTotal s.fsMode buf)),
              data := .bytes (frameData s.fsMode (buf.take (frameTotal s.fsMode buf))) })) ∨
      (headerBytes s.fsMode ≤ buf.length ∧ frameTotal s.fsMode buf ≤ buf.length ∧
        frameGood C s.fsMode (buf.take (frameTotal s.fsMode buf)) = false ∧
        fsStepOp C s =
          answer { s with fsBuf := buf.drop 1, fsState := .crcFail, fsLen := stepLen s.fsMode buf }
            Status.checksumMismatch)) := by
  refine ⟨_, rfl, ?_⟩
  by_cases h1 : (syncSearch (syncPattern C s.fsMode) s.fsBuf).length < headerBytes s.fsMode
  · exact .inl ⟨h1, if_pos h1⟩
  refine .inr ?_
  have e : fsStepOp C s = _ := if_neg h1
  by_cases h2 : (syncSearch (syncPattern C s.fsMode) s.fsBuf).length <
      frameTotal s.fsMode (syncSearch (syncPattern C s.fsMode) s.fsBuf)
  · exact .inl ⟨not_lt.mp h1, h2, e.trans (if_pos h2)⟩
  refine .inr ?_
  have e := e.trans (if_neg h2)
  by_cases h3 : frameGood C s.fsMode ((syncSearch (syncPattern C s.fsMode) s.fsBuf).take
      (frameTotal s.fsMode (syncSearch (syncPattern C s.fsMode) s.fsBuf))) = true
  · exact .inl ⟨not_lt.mp h1, not_lt.mp h2, h3, e.trans (if_pos h3)⟩
  · exact .inr ⟨not_lt.mp h1, not_lt.mp h2, by simpa using h3, e.trans (if_neg h3)⟩

/-- The declared length is a 10-bit number (R76). -/
theorem declaredLength_lt (buf : Bytes) : declaredLength buf < 1024 := by
  have h1 : (byteAt buf 1 &&& 0x03).toNat ≤ 3 := by
    rw [BitVec.toNat_and]; exact Nat.and_le_right
  have h2 := (byteAt buf 2).isLt
  unfold declaredLength
  omega

end Sys2Proof.Machine
end

