-- ==== Sys2Proof/Laws/Ops.lean ====
section
/-!
SUPPORT. What the gate, the bounded reads, a command and a step can do, said once.
-/

namespace Sys2Proof.Machine

/-- With the latch clear the gate lets the command run. -/
theorem gated_run (f : Session → Reply) {s : State} (h : s.ses.fatal = 0) :
    gated f s = .next (s.reply (f s.ses)) := if_pos h

/-- With the latch set the gate returns it and nothing changes (R262). -/
theorem gated_blocked (f : Session → Reply) {s : State} (h : s.ses.fatal ≠ 0) :
    gated f s = .next (s.reply (answer s.ses s.ses.fatal)) := if_neg h

/-- A gated command always answers: with its own reply, or with the latch. -/
theorem gated_cases (f : Session → Reply) (s : State) :
    ∃ r, gated f s = .next (s.reply r) ∧
      (s.ses.fatal = 0 ∧ r = f s.ses ∨ s.ses.fatal ≠ 0 ∧ r = answer s.ses s.ses.fatal) := by
  by_cases h : s.ses.fatal = 0
  · exact ⟨_, gated_run f h, .inl ⟨h, rfl⟩⟩
  · exact ⟨_, gated_blocked f h, .inr ⟨h, rfl⟩⟩

/-- A bounded read ends in one of three ways (R111 to R113). -/
theorem boundedRead_cases (n : Nat) (s : Session) (ok : Reply) :
    ((n = 0 ∨ 64 < n) ∧ boundedRead n s ok = answer s Status.illegalOperand) ∨
    (1 ≤ n ∧ n ≤ 64 ∧ remBits s < n ∧ boundedRead n s ok = answer s Status.needMoreData) ∨
    (1 ≤ n ∧ n ≤ 64 ∧ n ≤ remBits s ∧ boundedRead n s ok = ok) := by
  unfold boundedRead
  split
  · exact .inl ⟨by omega, rfl⟩
  · split
    · exact .inr (.inl ⟨by omega, by omega, by omega, rfl⟩)
    · exact .inr (.inr ⟨by omega, by omega, by omega, rfl⟩)

/-- The machine's commands are those of the instance with the default parameters. -/
theorem exec_eq_execFor (i : Instr) (s : State) : exec i s = execFor Config.chip i s := by cases i <;> rfl

/-- The machine's step is that of the instance with the default parameters. -/
theorem step_eq_stepFor (s : State) : step s = stepFor Config.chip s := by
  have h : exec = execFor Config.chip := funext fun i => funext fun t => exec_eq_execFor i t
  rw [step, stepFor, h]

/-- With the latch clear every instruction answers with its session operation. -/
theorem execFor_run (C : Chip) (i : Instr) {s : State} (h : s.ses.fatal = 0) :
    execFor C i s = .next (s.reply (sessionOp C i s.ses)) := by
  unfold execFor
  split
  · rfl
  · exact gated_run _ h

/-- An instruction before which no gate stands answers with its session operation. -/
theorem execFor_ungated (C : Chip) {i : Instr} (hi : ungated i = true) (s : State) :
    execFor C i s = .next (s.reply (sessionOp C i s.ses)) := if_pos hi

/-- With the latch set a gated instruction returns the latch and changes nothing (R262). -/
theorem execFor_blocked (C : Chip) {i : Instr} (hi : ungated i = false) {s : State} (h : s.ses.fatal ≠ 0) :
    execFor C i s = .next (s.reply (answer s.ses s.ses.fatal)) := by
  rw [execFor, if_neg (by simp [hi]), gated_blocked _ h]

/-- Everything an instance's instruction can do: it answers, with its session operation or with the latch. -/
theorem execFor_cases (C : Chip) (i : Instr) (s : State) :
    ∃ r, execFor C i s = .next (s.reply r) ∧
      (r = sessionOp C i s.ses ∨ s.ses.fatal ≠ 0 ∧ ungated i = false ∧ r = answer s.ses s.ses.fatal) := by
  by_cases h : s.ses.fatal = 0
  · exact ⟨_, execFor_run C i h, .inl rfl⟩
  · cases hi : ungated i
    · exact ⟨_, execFor_blocked C hi h, .inr ⟨h, rfl, rfl⟩⟩
    · exact ⟨_, execFor_ungated C hi s, .inl rfl⟩

theorem exec_run (i : Instr) {s : State} (h : s.ses.fatal = 0) :
    exec i s = .next (s.reply (sessionOp Config.chip i s.ses)) := by rw [exec_eq_execFor, execFor_run _ _ h]

theorem exec_ungated {i : Instr} (hi : ungated i = true) (s : State) :
    exec i s = .next (s.reply (sessionOp Config.chip i s.ses)) := by rw [exec_eq_execFor, execFor_ungated _ hi]

theorem exec_blocked {i : Instr} (hi : ungated i = false) {s : State} (h : s.ses.fatal ≠ 0) :
    exec i s = .next (s.reply (answer s.ses s.ses.fatal)) := by rw [exec_eq_execFor, execFor_blocked _ hi h]

theorem exec_cases (i : Instr) (s : State) :
    ∃ r, exec i s = .next (s.reply r) ∧
      (r = sessionOp Config.chip i s.ses ∨ s.ses.fatal ≠ 0 ∧ ungated i = false ∧ r = answer s.ses s.ses.fatal) := by
  rw [exec_eq_execFor]
  exact execFor_cases Config.chip i s

/-- Everything a step of an instance can do, by what its command port holds. -/
theorem stepFor_cases (C : Chip) (s : State) :
    (s.cmds = [] ∧ stepFor C s = .next s) ∨
    ∃ c rest, s.cmds = c :: rest ∧
      ((∃ i, decode c = .ok i ∧ stepFor C s = execFor C i (s.withCmds rest)) ∨
       (∃ op, decode c = .error (.illegalCommand op) ∧ stepFor C s = illegalCommand (s.withCmds rest)) ∨
       ∃ m n, decode c = .error (.payloadMismatch m n) ∧ stepFor C s = .fault .payloadMismatch) := by
  rcases hc : s.cmds with - | ⟨c, rest⟩
  · exact .inl ⟨rfl, by simp only [stepFor, stepBy, hc]⟩
  · refine .inr ⟨c, rest, rfl, ?_⟩
    rcases h : decode c with (op | ⟨m, n⟩) | i
    · exact .inr (.inl ⟨op, rfl, by simp only [stepFor, stepBy, hc, h]⟩)
    · exact .inr (.inr ⟨m, n, rfl, by simp only [stepFor, stepBy, hc, h]⟩)
    · exact .inl ⟨i, rfl, by simp only [stepFor, stepBy, hc, h]⟩

end Sys2Proof.Machine
end

