-- ==== Sys2Proof/Laws/PerInstr.lean ====
section
/-!
SUPPORT. The per-instruction family EncodeWhole: an encoded instruction's payload is whole (R91).
-/

namespace Sys2Proof.Laws.EncodeWhole

open Sys2Proof.Machine

/-- The encoding of a well-formed instruction carries exactly the payload bytes its word states (R91), so the
command port delivers it. -/
def Statement (i : Instr) : Prop := i.wellFormed = true → (encode i).payload.length = payloadLength (encode i).word

/-- The bits of a command word (R90). -/
theorem getLsbD_wordOf (op a : Byte) (k : BitVec 16) (i : Nat) :
    (wordOf op a k).getLsbD i =
      if i < 16 then k.getLsbD i else if i < 24 then a.getLsbD (i - 16) else op.getLsbD (i - 24) := by
  show BitVec.getLsbD (w := 8 + 8 + 16) (op ++ a ++ k) i = _
  rw [BitVec.getLsbD_append, BitVec.getLsbD_append]
  by_cases h : i < 16
  · simp [h]
  · by_cases h2 : i < 24
    · simp [h, h2, show i - 16 < 8 by omega]
    · simp [h, h2, show ¬ i - 16 < 8 by omega, show i - 16 - 8 = i - 24 by omega]

theorem kOf_wordOf (op a : Byte) (k : BitVec 16) : kOf (wordOf op a k) = k := by
  apply BitVec.eq_of_getLsbD_eq
  intro i hi
  simp [kOf, getLsbD_wordOf, hi]

theorem aOf_wordOf (op a : Byte) (k : BitVec 16) : aOf (wordOf op a k) = a := by
  apply BitVec.eq_of_getLsbD_eq
  intro i hi
  simp [aOf, getLsbD_wordOf, hi, show 16 + i < 24 by omega]

theorem opOf_wordOf (op a : Byte) (k : BitVec 16) : opOf (wordOf op a k) = op := by
  apply BitVec.eq_of_getLsbD_eq
  intro i hi
  simp [opOf, getLsbD_wordOf, hi, show ¬ 24 + i < 16 by omega]

/-- A command whose opcode takes no payload. -/
theorem whole_none {op a : Byte} {k : BitVec 16} (h : payloadForm op = .none) :
    ([] : Bytes).length = payloadLength (wordOf op a k) := by
  rw [payloadLength, opOf_wordOf, h]; rfl

/-- A command with a byte payload. -/
theorem whole_bytes {op : Byte} {b : Bytes} (h : payloadForm op = .bytes) (hb : b.length ≤ maxPayload) :
    (withBytes op b).payload.length = payloadLength (withBytes op b).word := by
  show b.length = payloadLength (wordOf op 0 (BitVec.ofNat 16 b.length))
  rw [payloadLength, opOf_wordOf, kOf_wordOf, h, BitVec.toNat_ofNat,
    Nat.mod_eq_of_lt (show b.length < 2 ^ 16 by unfold maxPayload at hb; omega)]
  rfl

/-- A command with a bit payload. -/
theorem whole_bits {op a : Byte} {p : Bits} (h : payloadForm op = .bits) (hp : p.length ≤ maxPayload) :
    (withBits op a p).payload.length = payloadLength (withBits op a p).word := by
  show (packBits p).length = payloadLength (wordOf op a (BitVec.ofNat 16 p.length))
  rw [payloadLength, opOf_wordOf, kOf_wordOf, h, BitVec.toNat_ofNat,
    Nat.mod_eq_of_lt (show p.length < 2 ^ 16 by unfold maxPayload at hp; omega), length_packBits]
  rfl

theorem nop : Statement .nop := fun _ => whole_none rfl
theorem reset : Statement .reset := fun _ => whole_none rfl
theorem rdreg (a : Byte) : Statement (.rdreg a) := fun _ => whole_none rfl
theorem cfgMode (a : Byte) : Statement (.cfgMode a) := fun _ => whole_none rfl
theorem bcPeek (n : Byte) : Statement (.bcPeek n) := fun _ => whole_none rfl
theorem bcRdu (n : Byte) : Statement (.bcRdu n) := fun _ => whole_none rfl
theorem bcRds (n : Byte) : Statement (.bcRds n) := fun _ => whole_none rfl
theorem bcSkip (n : BitVec 16) : Statement (.bcSkip n) := fun _ => whole_none rfl
theorem bcPos : Statement .bcPos := fun _ => whole_none rfl
theorem bcRem : Statement .bcRem := fun _ => whole_none rfl
theorem bcAppend (p : Bits) : Statement (.bcAppend p) := fun h => whole_bits rfl (of_decide_eq_true h)
theorem bcDiscard : Statement .bcDiscard := fun _ => whole_none rfl
theorem bcClear : Statement .bcClear := fun _ => whole_none rfl
theorem crcInit : Statement .crcInit := fun _ => whole_none rfl
theorem crcUpd (b : Byte) : Statement (.crcUpd b) := fun _ => whole_none rfl
theorem crcGet : Statement .crcGet := fun _ => whole_none rfl
theorem crcCompute (b : Bytes) : Statement (.crcCompute b) := fun h => whole_bytes rfl (of_decide_eq_true h)
theorem crcVerify (f : Bytes) : Statement (.crcVerify f) := fun h => whole_bytes rfl (of_decide_eq_true h)
theorem cs8Init : Statement .cs8Init := fun _ => whole_none rfl
theorem cs8Upd (b : Byte) : Statement (.cs8Upd b) := fun _ => whole_none rfl
theorem cs8Get : Statement .cs8Get := fun _ => whole_none rfl
theorem cs8Compute (b : Bytes) : Statement (.cs8Compute b) := fun h => whole_bytes rfl (of_decide_eq_true h)
theorem fsPush (b : Byte) : Statement (.fsPush b) := fun _ => whole_none rfl
theorem fsStep : Statement .fsStep := fun _ => whole_none rfl
theorem raFrag (sf : Bool) (p : Bits) : Statement (.raFrag sf p) := fun h => whole_bits rfl (of_decide_eq_true h)
theorem decHead : Statement .decHead := fun _ => whole_none rfl
theorem decSt1 : Statement .decSt1 := fun _ => whole_none rfl
theorem decDrain : Statement .decDrain := fun _ => whole_none rfl
theorem maskRd (i : Byte) (f : BitVec 16) : Statement (.maskRd i f) := fun _ => whole_none rfl
theorem rtcmEnc (p : Bytes) : Statement (.rtcmEnc p) := fun h => whole_bytes rfl (of_decide_eq_true h)
theorem pipeNext : Statement .pipeNext := fun _ => whole_none rfl

end Sys2Proof.Laws.EncodeWhole
end

