-- ==== Sys2Proof/Tests/Slice0.lean ====
section
/-!
SUPPORT. Tests: what WellFormed refuses, words written out from the spec's encoding, the spec's vectors
(95_test_vectors.md, named V…), and for every obligation with hypotheses a state and operands that meet them
(test_witness_…). A vector for a dependent subtype runs with the fixture decoder T of that file.
-/

namespace Sys2Proof.Tests

-- One theorem after another: the kernel checks wait for each other, and each waiting one holds a thread's stack.
set_option Elab.async false

open Sys2Proof Sys2Proof.Machine Sys2Proof.Statements

/-! ### Helpers -/

/-- A machine with a session and nothing on its ports. -/
def mach (ses : Session) : State := { ses := ses, cmds := [], resps := [] }

/-- The session of the reset state. -/
def z : Session := Session.reset

/-- The reset session with bits in the buffer. -/
def zb (b : Bits) : Session := { z with bb := b }

/-- The reset session with bytes in the buffer. -/
def zf (b : Bytes) : Session := { z with fsBuf := b }

/-- What a command leaves and returns, where it leaves the command port empty and answers once. -/
def ansBy (run : Instr → State → Result) (i : Instr) (ses : Session) : Option (Session × Response) :=
  match run i (mach ses) with
  | .next { ses := a, cmds := [], resps := [r] } => some (a, r)
  | _ => none

/-- The same on the machine. -/
abbrev ans : Instr → Session → Option (Session × Response) := ansBy exec

/-- The status and the value a command returns. -/
def sv (i : Instr) (ses : Session) : Option (Byte × BitVec 64) := (ans i ses).map fun r => (r.2.status, r.2.value)

/-- A reply's status, value and event words. -/
def brief (r : Reply) : Byte × BitVec 64 × List (BitVec 64) := (r.2.status, r.2.value, r.2.events.map eventWord)

/-- A session's three counters. -/
def counters (s : Session) : BitVec 32 × BitVec 32 × BitVec 32 := (s.statMsg, s.statNull, s.statDrop)

/-- A byte string. -/
def hx (l : List Nat) : Bytes := l.map (BitVec.ofNat 8)

/-- The messages M33, M34, M4 and M4s. -/
def M33b : Bytes := hx [0xFE, 0x91, 0x12, 0x34, 0x52, 0x29, 5, 0, 0, 0, 0, 4, 0, 0, 0x90, 0, 0, 0, 0, 0x10, 0, 0]
def M33 : Bits := (bitsOf M33b).take 171
def M34 : Bits :=
  (bitsOf (hx [0xFE, 0x91, 0x12, 0x34, 0x52, 0x29, 5, 0, 0, 0, 0, 4, 0, 6, 0x24, 0, 0, 0, 0, 4, 0, 0x0C])).take 174
def M4 : Bits := (bitsOf (hx [0xFE, 0x94, 0x12, 0x35, 0x2D, 0x55, 0x55, 0x55, 0x40])).take 67
def M4s : Bits := M4.take 33 ++ [false, true, true, false] ++ M4.drop 37

/-- The session after M33. -/
def z33 : Session :=
  { z with
    mask :=
      { valid := true, epoch := 0x12345, ui := 2, mmi := false, iodssr := 5, ngnss := 2,
        entries :=
          [{ sys := 0, sat := 0xA000000000, sig := 0x8000, cma := false, cell := [true, true] },
            { sys := 2, sat := 0x4000000000, sig := 0x4000, cma := false, cell := [true] }] }
    statMsg := 171 }

/-- The entry with 40 satellites, 16 signals and a received cell mask of 640 ones. -/
def eFull : MaskEntry :=
  { sys := 7, sat := 0xFFFFFFFFFF, sig := 0xFFFF, cma := true, cell := List.replicate 640 true }

/-! ### The fixture decoder T -/

/-- The body length of T. -/
def bodyNeed (M : MaskTable) (hd : Head) : Nat :=
  let n := 10 * (M.entries.map nsat).sum
  if hd.subtype = 9 then max 5 n else n

/-- Whether T rejects. -/
def bodyRejects (hd : Head) (t : Bits) : Bool := hd.subtype = 9 && 5 ≤ t.length && (t.take 5).all id

/-- T's answer. -/
def testAnswer (M : MaskTable) (hd : Head) (_ : Bool) (t : Bits) : BodyAnswer :=
  if bodyRejects hd t then .reject .gridCountMismatch
  else if t.length < bodyNeed M hd then .needMoreData
  else .consumed (bodyNeed M hd) (t.take (bodyNeed M hd))

theorem testAnswer_consumed {M hd st t nb r} (h : testAnswer M hd st t = .consumed nb r) :
    bodyRejects hd t = false ∧ nb = bodyNeed M hd ∧ nb ≤ t.length ∧ r = t.take nb := by
  unfold testAnswer at h
  split at h
  · cases h
  · split at h
    · cases h
    · cases h
      refine ⟨by simpa using ‹¬ bodyRejects hd t = true›, rfl, by omega, rfl⟩

theorem bodyNeed_ge {M hd} (h : hd.subtype = 9) : 5 ≤ bodyNeed M hd := by
  simp [bodyNeed, h]

theorem bodyRejects_take {hd t m} (h : bodyRejects hd t = false) : bodyRejects hd (t.take m) = false := by
  simp only [bodyRejects, Bool.and_eq_false_iff, decide_eq_false_iff_not, List.length_take] at *
  by_cases hm : 5 ≤ min m t.length
  · have : min 5 m = 5 := by omega
    rcases h with (h | h) | h
    · exact .inl (.inl h)
    · exact absurd (by omega) h
    · right; rwa [List.take_take, this]
  · exact .inl (.inr hm)

/-- T as a body decoder: it meets the contract of R206. -/
def testBody : BodyDecoder where
  answer := testAnswer
  consumed_le := fun _ _ _ _ _ _ h => (testAnswer_consumed h).2.2.1
  consumed_prefix := by
    intro M hd st t nb r h t' ht
    obtain ⟨hr, rfl, hle, rfl⟩ := testAnswer_consumed h
    have hlen : bodyNeed M hd ≤ t'.length := by
      have := congrArg List.length ht
      simp only [List.length_take] at this; omega
    have hrej : bodyRejects hd t' = false := by
      by_cases h9 : hd.subtype = 9
      · have h5 := bodyNeed_ge (M := M) h9
        have e : t'.take 5 = t.take 5 := by
          have := congrArg (List.take 5) ht
          simpa [List.take_take, Nat.min_eq_left h5] using this
        simp only [bodyRejects, h9, e] at hr ⊢
        simp only [show (5 ≤ t.length) by omega, show (5 ≤ t'.length) by omega] at hr ⊢
        exact hr
      · simp only [bodyRejects, h9, decide_false, Bool.false_and]
    simp [testAnswer, hrej, Nat.not_lt.mpr hlen, ht]
  consumed_short := by
    intro M hd st t nb r h m hm
    obtain ⟨hr, rfl, hle, rfl⟩ := testAnswer_consumed h
    simp only [testAnswer, bodyRejects_take hr, List.length_take]
    simp; omega
  reject_extends := by
    intro M hd st t c h u
    unfold testAnswer at h
    split at h
    · rename_i hr
      cases h
      have : bodyRejects hd (t ++ u) = true := by
        simp only [bodyRejects, Bool.and_eq_true, decide_eq_true_eq] at hr ⊢
        refine ⟨⟨hr.1.1, by simp; omega⟩, ?_⟩
        rw [List.take_append_of_le_length hr.1.2]; exact hr.2
      simp [testAnswer, this]
    · split at h <;> cases h

/-- The default parameters with T behind the body port. -/
def CT : Chip := { Config.chip with body := testBody }

/-! ### WellFormed refuses a payload of 65536 units -/

theorem test_wf_bcAppend : (Instr.bcAppend (List.replicate 65536 false)).wellFormed = false := by
  simp only [Instr.wellFormed, List.length_replicate]; rfl
theorem test_wf_crcCompute : (Instr.crcCompute (List.replicate 65536 0)).wellFormed = false := by
  simp only [Instr.wellFormed, List.length_replicate]; rfl
theorem test_wf_crcVerify : (Instr.crcVerify (List.replicate 65536 0)).wellFormed = false := by
  simp only [Instr.wellFormed, List.length_replicate]; rfl
theorem test_wf_cs8Compute : (Instr.cs8Compute (List.replicate 65536 0)).wellFormed = false := by
  simp only [Instr.wellFormed, List.length_replicate]; rfl
theorem test_wf_raFrag : (Instr.raFrag true (List.replicate 65536 false)).wellFormed = false := by
  simp only [Instr.wellFormed, List.length_replicate]; rfl
theorem test_wf_rtcmEnc : (Instr.rtcmEnc (List.replicate 65536 0)).wellFormed = false := by
  simp only [Instr.wellFormed, List.length_replicate]; rfl
theorem test_wf_longest : (Instr.bcAppend (List.replicate 65535 false)).wellFormed = true := by
  simp only [Instr.wellFormed, List.length_replicate]; rfl

/-! ### Words written out from R90 and R94: opcode, `a`, `k`; unused fields hold junk -/

theorem test_decode_nop : decode ⟨0b00000000_10101011_1100110111101111#32, []⟩ = .ok .nop := rfl
theorem test_decode_reset : decode ⟨0b00000001_11111111_0000000000000001#32, []⟩ = .ok .reset := rfl
theorem test_decode_rdreg : decode ⟨0b00000010_00001011_0000000000000000#32, []⟩ = .ok (.rdreg 11) := rfl
theorem test_decode_cfgMode : decode ⟨0b00000011_00000001_0000000000000000#32, []⟩ = .ok (.cfgMode 1) := rfl
theorem test_decode_bcPeek : decode ⟨0b00010000_01000000_0000000000000000#32, []⟩ = .ok (.bcPeek 64) := rfl
theorem test_decode_bcRdu : decode ⟨0b00010001_00001100_0000000000000000#32, []⟩ = .ok (.bcRdu 12) := rfl
theorem test_decode_bcRds : decode ⟨0b00010010_11001000_1111111111111111#32, []⟩ = .ok (.bcRds 200) := rfl
theorem test_decode_bcSkip : decode ⟨0b00010011_01010101_1000000000000001#32, []⟩ = .ok (.bcSkip 0x8001) := rfl
theorem test_decode_bcPos : decode ⟨0b00010100_00000000_0000000000000000#32, []⟩ = .ok .bcPos := rfl
theorem test_decode_bcRem : decode ⟨0b00010101_00000000_0000000000000000#32, []⟩ = .ok .bcRem := rfl
/-- The pad bits after the `k`-th are ignored (R91). -/
theorem test_decode_bcAppend : decode ⟨0b00010110_00000000_0000000000001010#32, [0b10000001, 0b01111111]⟩ =
    .ok (.bcAppend [true, false, false, false, false, false, false, true, false, true]) := rfl
theorem test_decode_bcDiscard : decode ⟨0b00010111_00000000_0000000000000000#32, []⟩ = .ok .bcDiscard := rfl
theorem test_decode_bcClear : decode ⟨0b00011000_00000000_0000000000000000#32, []⟩ = .ok .bcClear := rfl
theorem test_decode_crcInit : decode ⟨0b00100000_00000000_0000000000000000#32, []⟩ = .ok .crcInit := rfl
theorem test_decode_crcUpd : decode ⟨0b00100001_11010011_0000000000000000#32, []⟩ = .ok (.crcUpd 0xD3) := rfl
theorem test_decode_crcGet : decode ⟨0b00100010_00000000_0000000000000000#32, []⟩ = .ok .crcGet := rfl
theorem test_decode_crcCompute : decode ⟨0b00100011_00000000_0000000000000011#32, [0xD3, 0, 1]⟩ =
    .ok (.crcCompute [0xD3, 0, 1]) := rfl
theorem test_decode_crcVerify : decode ⟨0b00100100_00000000_0000000000000010#32, [0x47, 0xEA]⟩ =
    .ok (.crcVerify [0x47, 0xEA]) := rfl
theorem test_decode_cs8Init : decode ⟨0b00101000_00000000_0000000000000000#32, []⟩ = .ok .cs8Init := rfl
theorem test_decode_cs8Upd : decode ⟨0b00101001_10000001_0000000000000000#32, []⟩ = .ok (.cs8Upd 0x81) := rfl
theorem test_decode_cs8Get : decode ⟨0b00101010_00000000_0000000000000000#32, []⟩ = .ok .cs8Get := rfl
theorem test_decode_cs8Compute : decode ⟨0b00101011_00000000_0000000000000001#32, [0xFE]⟩ =
    .ok (.cs8Compute [0xFE]) := rfl
theorem test_decode_fsPush : decode ⟨0b00110000_11010011_0000000000000000#32, []⟩ = .ok (.fsPush 0xD3) := rfl
theorem test_decode_fsStep : decode ⟨0b00110001_00000000_0000000000000000#32, []⟩ = .ok .fsStep := rfl
/-- Only bit 0 of `a` is read (R172). -/
theorem test_decode_raFrag : decode ⟨0b01000000_11111110_0000000000000011#32, [0b10111111]⟩ =
    .ok (.raFrag false [true, false, true]) := rfl
theorem test_decode_raFrag_start : decode ⟨0b01000000_00000001_0000000000000000#32, []⟩ = .ok (.raFrag true []) := rfl
theorem test_decode_decHead : decode ⟨0b01010000_00000000_0000000000000000#32, []⟩ = .ok .decHead := rfl
theorem test_decode_decSt1 : decode ⟨0b01010001_00000000_0000000000000000#32, []⟩ = .ok .decSt1 := rfl
theorem test_decode_decDrain : decode ⟨0b01010010_00000000_0000000000000000#32, []⟩ = .ok .decDrain := rfl
theorem test_decode_maskRd : decode ⟨0b01010011_00000001_0000000000010000#32, []⟩ = .ok (.maskRd 1 16) := rfl
theorem test_decode_rtcmEnc : decode ⟨0b01100000_00000000_0000000000000010#32, [0xAB, 0xCD]⟩ =
    .ok (.rtcmEnc [0xAB, 0xCD]) := rfl
theorem test_decode_pipeNext : decode ⟨0b01100001_00000000_0000000000000000#32, []⟩ = .ok .pipeNext := rfl
/-- Neighbours of assigned opcodes are refused by name (R95), and so is a payload of the wrong size (R91). -/
theorem test_decode_unassigned : decode ⟨0x04000000, []⟩ = .error (.illegalCommand 4) ∧
    decode ⟨0xFF123456, []⟩ = .error (.illegalCommand 0xFF) ∧
    decode ⟨0x62000000, []⟩ = .error (.illegalCommand 0x62) ∧
    decode ⟨0x16000009, [0]⟩ = .error (.payloadMismatch 2 1) := ⟨rfl, rfl, rfl, rfl⟩
/-- The table's numbering: the payload's first byte is bits 39:32 (log entry 18). -/
theorem test_decodeTableWord : decodeTableWord 40 (0x2B000001 + 0xFE * 2 ^ 32) = some (.cs8Compute [0xFE]) := rfl

/-! ### System -/

theorem test_rdreg_status : sv (.rdreg 0) { z33 with fatal := 0x81, fsMode := .l6, fsState := .crcFail } =
    some (0, 0x814B) := by decide +kernel
/-- V70 reads MASK_HDR; the word's subframe number stands above its part (R40). -/
theorem test_rdreg_words : sv (.rdreg 8) z33 = some (0, 0x2468A425) ∧
    sv (.rdreg 7) { z with raSfn := 0xFE, raPart := 5 } = some (0, 0xFE05) ∧ sv (.rdreg 12) z = some (0x0B, 0) := by
  decide +kernel
/-- V2 -/
theorem test_cfgMode : ans (.cfgMode 1) { zf [1, 2, 3] with fsLen := 9, fsState := .haveLength, crc := 7 } =
    some ({ z with fsMode := .l6, crc := 7 }, { status := 0 }) ∧ sv (.cfgMode 2) z = some (0x0B, 0) := by decide +kernel
/-- V4: the gate stands before the opcode check. -/
theorem test_fatal_gate : sv .bcRem { z with fatal := 0x81 } = some (0x81, 0) ∧
    sv .nop { z with fatal := 0x81 } = some (0, 0) ∧ ans .reset { z33 with fatal := 0x81 } = some (z, { status := 0 }) ∧
    (match step { ses := { z with fatal := 0x81 }, cmds := [⟨0x04000000, []⟩], resps := [] } with
      | .next t => t.resps = [{ status := 0x81 }]
      | _ => False) := ⟨by decide +kernel, by decide +kernel, by decide +kernel, rfl⟩

/-! ### Bit cursor -/

/-- V12 -/
theorem test_peek : sv (.bcPeek 4) { zb [true, false, true, true, false] with bbPos := 1 } = some (0, 6) ∧
    sv (.bcPeek 5) { zb [true, false, true, true, false] with bbPos := 1 } = some (1, 0) := by decide +kernel
/-- V10, V13 -/
theorem test_rdu : ans (.bcRdu 12) (zb (bitsOf [0xFE, 0x91])) =
      some ({ zb (bitsOf [0xFE, 0x91]) with bbPos := 12 }, { status := 0, value := 4073 }) ∧
    sv (.bcRdu 65) (zb (List.replicate 65 true)) = some (0x0B, 0) := by decide +kernel
/-- V14 -/
theorem test_rds : sv (.bcRds 15) (zb (true :: List.replicate 14 false)) = some (0, 0xFFFFFFFFFFFFC000) ∧
    sv (.bcRds 1) (zb [true]) = some (0, 0xFFFFFFFFFFFFFFFF) ∧ sv (.bcRds 4) (zb [false, true, true, true]) = some (0, 7) := by
  decide +kernel
theorem test_rds_64 : sv (.bcRds 64) (zb (true :: List.replicate 63 false)) = some (0, 0x8000000000000000) := by
  decide +kernel
/-- V12 -/
theorem test_skip : ans (.bcSkip 4) { zb [true, false, true, true, false] with bbPos := 1 } =
      some ({ zb [true, false, true, true, false] with bbPos := 5 }, { status := 0 }) ∧
    sv (.bcSkip 5) { zb [true, false, true, true, false] with bbPos := 1 } = some (1, 0) ∧ sv (.bcSkip 0) z = some (0, 0) := by
  decide +kernel
theorem test_pos_rem : sv .bcPos { zb [true, true, false] with bbPos := 2 } = some (0, 2) ∧
    sv .bcRem { zb [true, true, false] with bbPos := 2 } = some (0, 1) := by decide +kernel
/-- V15 -/
theorem test_append : ans (.bcAppend [true]) { zb [false, false] with bbPos := 1 } =
    some ({ zb [false, false, true] with bbPos := 1 }, { status := 0 }) := by decide +kernel
theorem test_discard_clear : ans .bcDiscard { zb [true, true, false] with bbPos := 2 } = some (zb [false], { status := 0 }) ∧
    ans .bcClear { zb [true, true] with bbPos := 1, raState := .accumulating, raPart := 2 } =
      some ({ z with raState := .accumulating, raPart := 2 }, { status := 0 }) := by decide +kernel

/-! ### Integrity -/

/-- The table of R132, eight entries a row. -/
def table : List (BitVec 24) :=
  [0x000000, 0x864CFB, 0x8AD50D, 0x0C99F6, 0x93E6E1, 0x15AA1A, 0x1933EC, 0x9F7F17,
    0xA18139, 0x27CDC2, 0x2B5434, 0xAD18CF, 0x3267D8, 0xB42B23, 0xB8B2D5, 0x3EFE2E,
    0xC54E89, 0x430272, 0x4F9B84, 0xC9D77F, 0x56A868, 0xD0E493, 0xDC7D65, 0x5A319E,
    0x64CFB0, 0xE2834B, 0xEE1ABD, 0x685646, 0xF72951, 0x7165AA, 0x7DFC5C, 0xFBB0A7] ++
  [0x0CD1E9, 0x8A9D12, 0x8604E4, 0x00481F, 0x9F3708, 0x197BF3, 0x15E205, 0x93AEFE,
    0xAD50D0, 0x2B1C2B, 0x2785DD, 0xA1C926, 0x3EB631, 0xB8FACA, 0xB4633C, 0x322FC7,
    0xC99F60, 0x4FD39B, 0x434A6D, 0xC50696, 0x5A7981, 0xDC357A, 0xD0AC8C, 0x56E077,
    0x681E59, 0xEE52A2, 0xE2CB54, 0x6487AF, 0xFBF8B8, 0x7DB443, 0x712DB5, 0xF7614E] ++
  [0x19A3D2, 0x9FEF29, 0x9376DF, 0x153A24, 0x8A4533, 0x0C09C8, 0x00903E, 0x86DCC5,
    0xB822EB, 0x3E6E10, 0x32F7E6, 0xB4BB1D, 0x2BC40A, 0xAD88F1, 0xA11107, 0x275DFC,
    0xDCED5B, 0x5AA1A0, 0x563856, 0xD074AD, 0x4F0BBA, 0xC94741, 0xC5DEB7, 0x43924C,
    0x7D6C62, 0xFB2099, 0xF7B96F, 0x71F594, 0xEE8A83, 0x68C678, 0x645F8E, 0xE21375] ++
  [0x15723B, 0x933EC0, 0x9FA736, 0x19EBCD, 0x8694DA, 0x00D821, 0x0C41D7, 0x8A0D2C,
    0xB4F302, 0x32BFF9, 0x3E260F, 0xB86AF4, 0x2715E3, 0xA15918, 0xADC0EE, 0x2B8C15,
    0xD03CB2, 0x567049, 0x5AE9BF, 0xDCA544, 0x43DA53, 0xC596A8, 0xC90F5E, 0x4F43A5,
    0x71BD8B, 0xF7F170, 0xFB6886, 0x7D247D, 0xE25B6A, 0x641791, 0x688E67, 0xEEC29C] ++
  [0x3347A4, 0xB50B5F, 0xB992A9, 0x3FDE52, 0xA0A145, 0x26EDBE, 0x2A7448, 0xAC38B3,
    0x92C69D, 0x148A66, 0x181390, 0x9E5F6B, 0x01207C, 0x876C87, 0x8BF571, 0x0DB98A,
    0xF6092D, 0x7045D6, 0x7CDC20, 0xFA90DB, 0x65EFCC, 0xE3A337, 0xEF3AC1, 0x69763A,
    0x578814, 0xD1C4EF, 0xDD5D19, 0x5B11E2, 0xC46EF5, 0x42220E, 0x4EBBF8, 0xC8F703] ++
  [0x3F964D, 0xB9DAB6, 0xB54340, 0x330FBB, 0xAC70AC, 0x2A3C57, 0x26A5A1, 0xA0E95A,
    0x9E1774, 0x185B8F, 0x14C279, 0x928E82, 0x0DF195, 0x8BBD6E, 0x872498, 0x016863,
    0xFAD8C4, 0x7C943F, 0x700DC9, 0xF64132, 0x693E25, 0xEF72DE, 0xE3EB28, 0x65A7D3,
    0x5B59FD, 0xDD1506, 0xD18CF0, 0x57C00B, 0xC8BF1C, 0x4EF3E7, 0x426A11, 0xC426EA] ++
  [0x2AE476, 0xACA88D, 0xA0317B, 0x267D80, 0xB90297, 0x3F4E6C, 0x33D79A, 0xB59B61,
    0x8B654F, 0x0D29B4, 0x01B042, 0x87FCB9, 0x1883AE, 0x9ECF55, 0x9256A3, 0x141A58,
    0xEFAAFF, 0x69E604, 0x657FF2, 0xE33309, 0x7C4C1E, 0xFA00E5, 0xF69913, 0x70D5E8,
    0x4E2BC6, 0xC8673D, 0xC4FECB, 0x42B230, 0xDDCD27, 0x5B81DC, 0x57182A, 0xD154D1] ++
  [0x26359F, 0xA07964, 0xACE092, 0x2AAC69, 0xB5D37E, 0x339F85, 0x3F0673, 0xB94A88,
    0x87B4A6, 0x01F85D, 0x0D61AB, 0x8B2D50, 0x145247, 0x921EBC, 0x9E874A, 0x18CBB1,
    0xE37B16, 0x6537ED, 0x69AE1B, 0xEFE2E0, 0x709DF7, 0xF6D10C, 0xFA48FA, 0x7C0401,
    0x42FA2F, 0xC4B6D4, 0xC82F22, 0x4E63D9, 0xD11CCE, 0x575035, 0x5BC9C3, 0xDD8538]

theorem test_crcTab : (List.range 256).map (fun i => crcTab 0x1864CFB (BitVec.ofNat 8 i)) = table := by decide +kernel
/-- V20 -/
theorem test_crcCompute : ans (.crcCompute (hx [0x31, 0x32, 0x33, 0x34, 0x35, 0x36, 0x37, 0x38, 0x39])) { z with crc := 5 } =
    some ({ z with crc := 5 }, { status := 0, value := 0xCDE703, data := .bytes [0xCD, 0xE7, 0x03] }) := by decide +kernel
/-- V22 -/
theorem test_crc_stream : ans (.crcUpd 0) { z with crc := 0x19A569 } = some ({ z with crc := 0x47EA4B }, { status := 0 }) ∧
    ans .crcInit { z with crc := 0x19A569 } = some (z, { status := 0 }) ∧
    ans .crcGet { z with crc := 0x47EA4B } =
      some ({ z with crc := 0x47EA4B }, { status := 0, value := 0x47EA4B, data := .bytes [0x47, 0xEA, 0x4B] }) := by
  decide +kernel
/-- V24, V25 -/
theorem test_crcVerify : sv (.crcVerify (hx [0xD3, 0, 0, 0x47, 0xEA, 0x4B])) z = some (0, 1) ∧
    sv (.crcVerify (hx [0xD3, 0, 0, 0x47, 0xEA, 0x4A])) z = some (0, 0) ∧
    sv (.crcVerify (hx [0xD3, 0, 1, 0x47, 0xEA, 0x4B])) z = some (0, 0) := by decide +kernel
theorem test_crcVerify_short : sv (.crcVerify []) z = some (0, 0) ∧ sv (.crcVerify [0, 0]) z = some (0, 0) ∧
    sv (.crcVerify [0, 0, 0]) z = some (0, 1) := by decide +kernel
/-- V26 -/
theorem test_cs8Compute : ans (.cs8Compute [1, 2, 3, 4]) z =
      some (z, { status := 0, value := 0x0A14, data := .bytes [0x0A, 0x14] }) ∧
    sv (.cs8Compute [0xFF, 0xFF]) z = some (0, 0xFEFD) := by decide +kernel
theorem test_cs8_stream : ans (.cs8Upd 4) { z with ckA := 6, ckB := 10 } =
      some ({ z with ckA := 0x0A, ckB := 0x14 }, { status := 0 }) ∧
    sv .cs8Get { z with ckA := 0x0A, ckB := 0x14 } = some (0, 0x0A14) ∧
    ans .cs8Init { z with ckA := 6, ckB := 10, crc := 1 } = some ({ z with crc := 1 }, { status := 0 }) := by decide +kernel

/-! ### Frame synchroniser -/

/-- V50 -/
theorem test_fsPush_waits : ans (.fsPush 0x13) (zf [0xD3, 0]) = some (zf [0xD3, 0, 0x13], { status := 0 }) ∧
    ans .fsStep (zf [0xD3, 0, 0x13]) =
      some ({ zf [0xD3, 0, 0x13] with fsState := .haveLength, fsLen := 19 }, { status := 1 }) := by decide +kernel
/-- The second frame of V52. -/
def good : Bytes := hx [0xD3, 0, 2, 0xAB, 0xCD, 0x5C, 0x1E, 0xC3]
/-- V52: a bad frame costs its first byte. -/
theorem test_fsStep_bad : ans .fsStep (zf (hx [0xD3, 0, 2, 1, 2, 0xDC, 0xD5, 0xF2] ++ good)) =
    some ({ zf (hx [0, 2, 1, 2, 0xDC, 0xD5, 0xF2] ++ good) with fsState := .crcFail, fsLen := 2 }, { status := 2 }) := by
  decide +kernel
/-- V52, V54: garbage is skipped; reserved header bits come back in the value. -/
theorem test_fsStep_good : ans .fsStep (zf (hx [0, 2, 1, 2, 0xDC, 0xD5, 0xF2] ++ good)) =
      some ({ z with fsState := .validated, fsLen := 2 }, { status := 0, value := 2, data := .bytes [0xAB, 0xCD] }) ∧
    sv .fsStep (zf (hx [0xD3, 0xFC, 2, 0xAB, 0xCD, 0x5C, 0xA8, 0x7F])) = some (0, 0x3F0002) := by decide +kernel
/-- The broadcast frame of V55. -/
def l6 : Bytes :=
  hx [0x1A, 0xCF, 0xFC, 0x1D, 0xC1, 0xA1] ++ packBits (true :: M33 ++ List.replicate 1524 false) ++ List.replicate 32 0
/-- V55 -/
theorem test_fsStep_l6 : (fsStepOp CT { zf ([0x1A, 0xCF, 0] ++ l6) with fsMode := .l6 }) =
    ({ z with fsMode := .l6, fsState := .validated },
      { status := 0, value := 0xC1A10143, data := .bytes ((l6.drop 6).take 212) }) := by decide +kernel
theorem test_fsStep_l6_short : (fsStepOp CT { zf (l6.take 249) with fsMode := .l6 }) =
    ({ zf (l6.take 249) with fsMode := .l6, fsState := .haveLength }, { status := 1 }) := by decide +kernel

/-! ### Head, masks, drain -/

/-- V31 -/
theorem test_decHead : ans .decHead { zb (true :: (M4.take 37)) with bbPos := 1 } =
      some (zb (M4.take 37), { status := 0, value := 0x0004AA5001234FE9 }) ∧
    sv .decHead (zb (M4.take 36)) = some (1, 0) := by decide +kernel
/-- V30, V32 -/
theorem test_decHead_codes : sv .decHead (zb (List.replicate 12 false)) = some (3, 0) ∧
    sv .decHead (zb (bitsOf [0xFE, 0x9D])) = some (4, 0) ∧
    sv .decHead (zb ((bitsOf [0xFE, 0x9A, 0x45, 0x60]).take 28)) = some (8, 0x000380000456AFE9) := by decide +kernel
/-- V33 -/
theorem test_decSt1 : ans .decSt1 (zb M33) =
    some (z33, { status := 0, value := 171, events := [.maskUpdate 171] }) := by decide +kernel
/-- V34, V35: received cell masks; one bit short changes nothing. -/
theorem test_decSt1_cells : (ans .decSt1 (zb M34)).map (fun r => (r.2.value, r.1.mask.entries.map (·.cell))) =
      some (174, [[true, false], [true]]) ∧ ans .decSt1 (zb (M34.take 173)) = some (zb (M34.take 173), { status := 1 }) ∧
    ans .decSt1 (zb M4) = some (zb M4, { status := 0x10 }) := by decide +kernel
/-- V37: the mask, a body of T, and zero bits. -/
theorem test_drain : (brief (decDrainOp CT (zb (M33 ++ M4 ++ [false, false, false]))) =
      (0, 0, [0x000000AB00000101, 0x0000004300000402, 0x0000000300000004])) ∧
    counters (decDrainOp CT (zb (M33 ++ M4 ++ [false, false, false]))).1 = (238, 3, 0) := by decide +kernel
/-- V36, V38: without a mask the message is dropped; another IODSSR is stale. -/
theorem test_drain_gate : brief (decDrainOp CT (zb M4)) = (5, 0, [0x0000004300000503]) ∧
    brief (decDrainOp CT { z33 with bb := M4s }) = (0, 0, [0x0000004300010402, 4]) := by decide +kernel
/-- V3C -/
theorem test_maskRd : [0, 1, 2, 3, 4, 5, 6, 16, 17, 7].map (fun f => sv (.maskRd 0 f) z33) =
    [some (0, 0), some (0, 0xA000000000), some (0, 0x8000), some (0, 0), some (0, 2), some (0, 1), some (0, 2),
      some (0, 3), some (0x0B, 0), some (0x0B, 0)] := by decide +kernel
theorem test_maskRd_last : sv (.maskRd 1 1) z33 = some (0, 0x4000000000) ∧ sv (.maskRd 2 0) z33 = some (0x0B, 0) ∧
    sv (.maskRd 0 0) z = some (5, 0) ∧ (satlist (z33.mask.entries.headD eFull), siglist eFull) =
      ([1, 3], [0, 1, 2, 3, 4, 5, 6, 7, 8, 9, 10, 11, 12, 13, 14, 15]) := by decide +kernel

/-- R89, R97 -/
theorem test_codes : (z33.mask.entries.map fun e => systemOf e.sys) = [some .gps, some .galileo] ∧ systemOf 7 = some .beidou3 ∧
    systemOf 8 = none ∧ updateSeconds z33.mask.ui = 5 ∧ updateSeconds 15 = 10800 := by decide +kernel

/-! ### Reassembler -/

/-- V60 -/
theorem test_raFrag : brief (raFragOp CT true (M33.take 45) z) = (1, 0x010101, []) ∧
    brief (raFragOp CT false (M33.drop 45) (raFragOp CT true (M33.take 45) z).1) =
      (0, 0x010000, [0x000000AB00000101, 4]) := by decide +kernel
/-- V61, V62, V65 -/
theorem test_raFrag_codes : ans (.raFrag false [true]) z = some (z, { status := 0x0D }) ∧
    ans (.raFrag true (M33.take 44)) z =
      some ({ z with statDrop := 44 }, { status := 0x0E, events := [.error 1 44] }) ∧
    brief (raFragOp CT true (M33 ++ List.replicate 41 false) (raFragOp CT true (M33.take 100) z).1) =
      (0, 0x010000, [0x0000006400000006, 0x000000AB00000101, 0x0000002900000004]) := by decide +kernel

/-! ### Encoder and pipeline -/

/-- V40, V41 -/
theorem test_rtcmEnc : ans (.rtcmEnc [0xAB, 0xCD]) z = some (z, { status := 0, value := 8, data := .bytes good }) ∧
    ans (.rtcmEnc []) z = some (z, { status := 0, value := 6, data := .bytes [0xD3, 0, 0, 0x47, 0xEA, 0x4B] }) := by
  decide +kernel
/-- V70 -/
theorem test_pipeNext : (brief (pipeNextOp CT (zf (rtcmFrame CT M33b))) =
      (0, 0x100010000, [0x000000AB00000101, 0x0000000500000004])) ∧
    statusReg (pipeNextOp CT (zf (rtcmFrame CT M33b))).1 = 0x0032 ∧
    brief (pipeNextOp CT (zf [0xD3, 0, 0, 0x47, 0xEA, 0x4B])) = (0x0E, 0x100000000, [0x103]) := by decide +kernel
/-- V72 -/
theorem test_pipeNext_l6 : brief (pipeNextOp CT { zf ([0x1A, 0xCF, 0] ++ l6) with fsMode := .l6 }) =
    (0, 0x100010000, [0x000000AB00000101, 0x000005F400000004]) := by decide +kernel

/-! ### Witnesses: a state and operands for the hypotheses of each obligation, at the boundaries of its clauses -/

theorem of_ans {run : Instr → State → Result} {i : Instr} {s : Session} {r : Session × Response}
    (h : ansBy run i s = some r) : run i (mach s) = done (mach s) r.1 r.2 := by
  unfold ansBy at h
  split at h
  · rename_i heq
    cases h
    exact heq
  · cases h

/-- A command answers, and what it leaves and returns passes a test. -/
abbrev AnswersBy (run : Instr → State → Result) (i : Instr) (s : Session) (P : Session → Response → Bool) : Prop :=
  ∃ ses r, run i (mach s) = done (mach s) ses r ∧ P ses r = true

/-- The same on the machine. -/
abbrev Answers : Instr → Session → (Session → Response → Bool) → Prop := AnswersBy exec

theorem answers_of {run : Instr → State → Result} {i : Instr} {s : Session} {P : Session → Response → Bool}
    (h : (ansBy run i s).any (fun r => P r.1 r.2) = true) : AnswersBy run i s P := by
  cases hr : ansBy run i s with
  | none => rw [hr] at h; cases h
  | some r => rw [hr] at h; exact ⟨r.1, r.2, of_ans hr, h⟩

/-- The reset machine with commands on its port. -/
def fed (cs : List Command) : State := { ses := z, cmds := cs, resps := [] }

/-- `n` zero bits. -/
def zeros (n : Nat) : Bits := List.replicate n false

/-- The machine after a list of instructions, or the reset machine. -/
def after (is : List Instr) : State := (runAll is (mach z)).getD (mach z)

theorem test_witness_StepRunsDecodedCommand : (fed [⟨0x02010000, []⟩, ⟨0, []⟩]).cmds = ⟨0x02010000, []⟩ :: [⟨0, []⟩] ∧
    decode ⟨0x02010000, []⟩ = .ok (.rdreg 1) := ⟨rfl, rfl⟩

theorem test_witness_IdleStepKeepsAllState : ({ mach z33 with resps := [{ status := 0 }] }).cmds = [] := rfl

theorem test_witness_UnassignedOpcodeIsIllegal : (fed [⟨0x62FFFFFF, [1]⟩]).cmds = [⟨0x62FFFFFF, [1]⟩] ∧
    ((0x62FFFFFF : Word).toNat / 2 ^ 24 ∉ assigned ∧ (0x04000000 : Word).toNat / 2 ^ 24 ∉ assigned) ∧
    (fed []).ses.fatal = 0 ∧ ({ z with fatal := 0x81 } : Session).fatal ≠ 0 := by
  refine ⟨rfl, ?_, rfl, ?_⟩ <;> decide +kernel

theorem test_witness_StepFaultsOnlyOnBrokenPayload : step (fed [⟨0x23000001, []⟩]) = .fault .payloadMismatch ∧
    (0x23000001 : Word).toNat / 2 ^ 24 ∈ assigned ∧ ([] : Bytes).length ≠ paid 0x23000001 := by
  refine ⟨rfl, ?_, ?_⟩ <;> decide

theorem test_witness_CommandsRunInOrder : (∀ i ∈ [Instr.crcUpd 1, .bcAppend [true], .decDrain], i.wellFormed = true) ∧
    runAll [.crcUpd 1, .bcAppend [true], .decDrain] (mach z) = some (after [.crcUpd 1, .bcAppend [true], .decDrain]) := by
  constructor <;> decide +kernel

theorem test_witness_OpcodeTable : ([] : Bytes).length = (0#16).toNat ∧
    (List.replicate 65535 (0 : Byte)).length = (65535#16).toNat ∧ [(0 : Byte), 0].length = ((9#16).toNat + 7) / 8 ∧
    (List.replicate 8192 (0 : Byte)).length = ((65535#16).toNat + 7) / 8 ∧ (0x05000000 : Word).toNat / 2 ^ 24 ∉ assigned := by
  refine ⟨rfl, ?_, rfl, ?_, by decide⟩ <;> simp only [List.length_replicate] <;> rfl

theorem test_witness_DecodeOfEncode : (Instr.raFrag true (zeros 65535)).wellFormed = true := by
  simp only [Instr.wellFormed, zeros, List.length_replicate]; rfl

theorem test_witness_DecodedIsWellFormed : decode ⟨0x40010003, [0xA0]⟩ = .ok (.raFrag true [true, false, true]) := rfl

theorem test_witness_FetchedWordRuns : decodeTableWord 32 0x53010001 = some (.maskRd 1 1) := rfl

theorem test_witness_StepKeepsInvariants : Session.Inv Config.chip z33 ∧
    ∃ t, step { fed [⟨0x52000000, []⟩] with ses := z33 } = .next t := ⟨by decide +kernel, _, rfl⟩

/-- An instance with every parameter away from its default, the data bits split as the source has them (C1). -/
def COther : Chip :=
  { l6Pre := #v[1, 2, 3, 4], fragSkipBits := 2, fragPayloadBits := 1687, fsCap := 1029, bbCap := 10122, crcPoly := 0x1000001,
    crcInit := 0xABCDEF, body := testBody }

theorem test_witness_OperationsKeepInvariantsForEveryChip : Session.Inv COther z33 ∧
    (∃ t, execFor COther .decDrain (mach z33) = .next t) ∧
    ∃ t, stepFor COther { fed [⟨0x52000000, []⟩] with ses := z33 } = .next t :=
  ⟨by decide +kernel, ⟨_, rfl⟩, ⟨_, rfl⟩⟩

/-- A frame of the other instance's preamble is found, and its parameters decide what its commands do. -/
theorem test_witness_ParametersDecideInEveryInstance : COther.Ok ∧ Config.chip.Ok ∧
    ansBy (execFor COther) .crcInit z = some ({ z with crc := 0xABCDEF }, { status := 0 }) ∧
    (ansBy (execFor COther) (.fsPush 0) (zf (List.replicate 1029 0))).map (·.2.status) = some 0x81 ∧
    (ansBy (execFor COther) (.fsPush 0) (zf (List.replicate 1028 0))).map (·.2.status) = some 0 ∧
    (ansBy (execFor COther) (.bcAppend [true]) (zb (zeros 10122))).map (·.2.status) = some 0x80 ∧
    (ansBy (execFor COther) (.bcAppend [true]) (zb (zeros 10121))).map (·.2.status) = some 0 ∧ 10122 < (zeros 10123).length ∧
    AnswersBy (execFor COther) .fsStep { zf ([1, 1, 2, 3, 4] ++ List.replicate 246 0) with fsMode := .l6 }
      (fun s r => r.status == 0 && s.fsBuf == []) := by
  refine ⟨?_, ?_, ?_, ?_, ?_, ?_, ?_, ?_, answers_of ?_⟩ <;> decide +kernel

theorem test_witness_WriteSets : (∃ t, exec .nop (mach z) = .next t) ∧
    opcode .nop ∉ [0x01, 0x20, 0x21, 0x28, 0x29, 0x16, 0x17, 0x18, 0x50, 0x51, 0x52, 0x40, 0x61, 0x11, 0x12, 0x13, 0x03,
      0x30, 0x31] ∧
    (∃ t, exec (.bcAppend []) (mach z) = .next t) ∧ opcode (.bcAppend []) ∈ [0x16, 0x40, 0x61] ∧
    (∃ t, exec (.fsPush 0) (mach z) = .next t) ∧ opcode (.fsPush 0) = 0x30 ∧
    (∃ t, exec .reset (mach z) = .next t) ∧ opcode .reset = 0x01 ∧
    (∃ t, exec .fsStep (mach { z with fatal := 0x81 }) = .next t) ∧ opcode .fsStep ≠ 0x01 := by
  refine ⟨⟨_, rfl⟩, by decide, ⟨_, rfl⟩, by decide, ⟨_, rfl⟩, by decide, ⟨_, rfl⟩, by decide, ⟨_, rfl⟩, by decide⟩

theorem test_witness_ReadersChangeNothing : (∃ t, exec (.bcPeek 1) (mach (zb [true])) = .next t) ∧
    opcode (.bcPeek 1) ∈ [0x00, 0x02, 0x10, 0x14, 0x15, 0x22, 0x23, 0x24, 0x2A, 0x2B, 0x53, 0x60] := ⟨⟨_, rfl⟩, by decide⟩

theorem test_witness_FatalGate : (mach { z with fatal := 0x80 }).ses.fatal ≠ 0 ∧ opcode .nop ∉ [0x01, 0x02] ∧
    opcode .decDrain ∉ [0x01, 0x02] := by decide

/-- A broadcast frame whose subframe indicator is 0, with the given payload bits. -/
def l6Cont (p : Bits) : Bytes := hx [0x1A, 0xCF, 0xFC, 0x1D, 0, 0] ++ packBits (false :: p) ++ List.replicate 32 0

/-- An accumulation that one more frame takes over `BB_CAP`. -/
def zOver : Session :=
  { z with fsMode := .l6, fsBuf := l6Cont (zeros 1695), raState := .accumulating, raPart := 1, bb := zeros 14690 }

theorem test_witness_PipeNextValueOnFatal : Answers .pipeNext zOver (fun s _ => s.fatal != 0) :=
  answers_of (by decide +kernel)

theorem test_witness_FatalOnlyFromCapacity : Answers (.bcAppend [true]) (zb (zeros 16384)) (fun s _ => s.fatal != 0) ∧
    Answers (.raFrag true (zeros 16385)) z (fun s _ => s.fatal != 0) ∧
    Answers (.raFrag false [true]) { zb (zeros 16384) with raState := .accumulating, raPart := 1 } (fun s _ => s.fatal != 0) ∧
    Answers (.fsPush 0) (zf (List.replicate 4096 0)) (fun s _ => s.fatal != 0) ∧
    Answers .pipeNext zOver (fun s _ => s.fatal != 0) :=
  ⟨answers_of (by decide +kernel), answers_of (by decide +kernel), answers_of (by decide +kernel),
    answers_of (by decide +kernel), test_witness_PipeNextValueOnFatal⟩

theorem test_witness_RdregReadsTheRegisterMap : Session.Inv Config.chip z33 ∧ sv (.rdreg 11) z33 = some (0, 0) ∧
    sv (.rdreg 12) z33 = some (0x0B, 0) ∧ sv (.rdreg 255) z33 = some (0x0B, 0) := by decide +kernel

theorem test_witness_CfgModeSetsModeAndEmptiesBytes : z.fatal = 0 ∧
    [0, 1, 2, 255].map (fun a => sv (.cfgMode a) z) = [some (0, 0), some (0, 0), some (0x0B, 0), some (0x0B, 0)] := by
  decide +kernel

theorem test_witness_BoundedReads : (zb (List.replicate 64 true)).fatal = 0 ∧
    [0, 1, 64, 65].map (fun a => sv (.bcRdu a) (zb (List.replicate 64 true))) =
      [some (0x0B, 0), some (0, 1), some (0, 0xFFFFFFFFFFFFFFFF), some (0x0B, 0)] ∧
    sv (.bcRdu 64) (zb (List.replicate 63 true)) = some (1, 0) := by decide +kernel

/-- 65 bits with the cursor at 1. -/
def z65 : Session := { zb (zeros 64 ++ [true]) with bbPos := 1 }

theorem test_witness_CursorLaws : z65.fatal = 0 ∧ z65.bbPos ≤ z65.bb.length ∧
    (1 ≤ (1 : Byte).toNat ∧ 1 ≤ (63 : Byte).toNat ∧ (64 : Byte).toNat = (1 : Byte).toNat + (63 : Byte).toNat ∧
      (64 : Byte).toNat ≤ 64 ∧ z65.bbPos + (64 : Byte).toNat ≤ z65.bb.length) ∧
    Answers (.bcRdu 64) z65 (fun _ r => r.status == 0) ∧
    (opcode (.bcSkip 65) ∈ [0x10, 0x11, 0x12, 0x13] ∧ Answers (.bcSkip 65) z65 (fun _ r => r.status != 0)) ∧
    ∃ s : Session, s.fatal = 0 ∧ s.bbPos ≤ s.bb.length ∧ s.bb.length - s.bbPos = (64 : Byte).toNat - 1 :=
  ⟨by decide +kernel, by decide +kernel, by decide +kernel, answers_of (by decide +kernel),
    ⟨by decide, answers_of (by decide +kernel)⟩, { z65 with bbPos := 2 }, by decide +kernel⟩

theorem test_witness_SkipPosAndRem : z65.fatal = 0 ∧ sv (.bcSkip 64) z65 = some (0, 0) ∧ sv (.bcSkip 65) z65 = some (1, 0) := by
  decide +kernel

theorem test_witness_AppendDiscardAndClear : (zb (zeros 16383)).fatal = 0 ∧
    sv (.bcAppend [true]) (zb (zeros 16383)) = some (0, 0) ∧ sv (.bcAppend [true, true]) (zb (zeros 16383)) = some (0x80, 0) := by
  decide +kernel

theorem test_witness_CrcTableFormIsBitwiseForm : (0x1864CFB : BitVec 25).msb = true := by decide

theorem test_witness_StreamingCrc : (mach { z with crc := 0xFFFFFF }).ses.fatal = 0 := rfl

theorem test_witness_OneShotCrc : (mach z).ses.fatal = 0 ∧ 3 ≤ [(0 : Byte), 0, 0].length := by decide

theorem test_witness_CrcRoundTrip : (mach z).ses.fatal = 0 ∧ (List.replicate 65532 (0 : Byte)).length + 3 ≤ 65535 := by
  simp only [List.length_replicate]; decide

theorem test_witness_DoubleAccumulator : (mach { z with ckA := 255, ckB := 255 }).ses.fatal = 0 := rfl

theorem test_witness_PushAppendsOneByte : (zf (List.replicate 4095 0)).fatal = 0 ∧
    sv (.fsPush 1) (zf (List.replicate 4095 0)) = some (0, 0) ∧ sv (.fsPush 1) (zf (List.replicate 4096 0)) = some (0x81, 0) := by
  decide +kernel

/-- A frame of the longest payload but for its last byte. -/
def longFront : Bytes := hx [0xD3, 3, 0xFF] ++ List.replicate 1025 0

theorem test_witness_StepFindsAFrame : (zf longFront).fatal = 0 ∧ (sv .fsStep (zf [0xD3, 0])).map (·.1) = some 1 ∧
    (sv .fsStep (zf (longFront ++ [0]))).map (·.1) = some 2 ∧ (sv .fsStep (zf good)).map (·.1) = some 0 := by
  decide +kernel

theorem test_witness_StepKeepsLessThanAFrame :
    Answers .fsStep (zf longFront) (fun s r => r.status == 1 && s.fsBuf.length == 1028) ∧
    Answers .fsStep { zf (l6.take 249) with fsMode := .l6 } (fun s r => r.status == 1 && s.fsBuf.length == 249) :=
  ⟨answers_of (by decide +kernel), answers_of (by decide +kernel)⟩

/-- The frame of V41 with the payload 01 02, and the other one with a damaged trailer. -/
def good2 : Bytes := hx [0xD3, 0, 2, 1, 2, 0xDC, 0xD5, 0xF3]
def damaged : Bytes := hx [0xD3, 0, 2, 0xAB, 0xCD, 0x5C, 0x1E, 0xC2]

theorem test_witness_SynchroniserLaws : z.fatal = 0 ∧ z.fsMode = .rtcm3 ∧ z.fsBuf = [] ∧ WellFormedFrame good ∧
    WellFormedFrame good2 ∧ (0xD3 ∉ List.replicate 4088 (0x11 : Byte)) ∧
    (List.replicate 4088 (0x11 : Byte)).length + good.length ≤ 4096 ∧ damaged.length = good.length ∧
    damaged.take (good.length - 3) = good.take (good.length - 3) ∧ damaged ≠ good ∧ 0xD3 ∉ damaged.drop 1 ∧
    damaged.length + good2.length ≤ 4096 ∧ Answers .fsStep (zf good) (fun _ r => r.status == 0) ∧
    Answers .fsStep z (fun _ r => r.status == 1) := by
  refine ⟨rfl, rfl, rfl, ?_, ?_, ?_, ?_, ?_, ?_, ?_, ?_, ?_, answers_of (by decide +kernel), answers_of (by decide +kernel)⟩
  · unfold WellFormedFrame; decide +kernel
  · unfold WellFormedFrame; decide +kernel
  · rw [List.mem_replicate]; decide
  · rw [List.length_replicate]; decide +kernel
  all_goals decide +kernel

theorem test_witness_HeadIsExaminedNotConsumed : (mach (zb M4)).ses.fatal = 0 ∧
    [11, 12, 16, 36, 37].map (fun n => (verdict (M4.take n)).1) = [1, 1, 1, 1, 0] ∧
    [44, 45].map (fun n => (verdict (M33.take n)).1) = [1, 0] := by decide +kernel

/-- The session whose buffer is an ST1 of the given entries and then one bit. -/
def zSt1 (es : List MaskEntry) : Session := zb (st1Bits 0xFFFFF 15 true 15 es ++ [true])

theorem test_witness_St1DecodesWhatWasEncoded :
    ∀ es ∈ [[], z33.mask.entries, List.replicate 15 eFull], (zSt1 es).fatal = 0 ∧ es.length ≤ 15 ∧ (∀ e ∈ es, Sendable e) ∧
      unread (mach (zSt1 es)) = st1Bits 0xFFFFF 15 true 15 es ++ [true] := by
  intro es hes
  have h : ∀ es ∈ [[], z33.mask.entries, List.replicate 15 eFull], es.length ≤ 15 ∧
      ∀ e ∈ es, e.sys.toNat ≤ 7 ∧ e.cell.length = ones e.sat * ones e.sig ∧ (e.cma = false → ∀ b ∈ e.cell, b = true) := by
    decide +kernel
  exact ⟨rfl, (h es hes).1, (h es hes).2, rfl⟩

theorem test_witness_TruncatedSt1NeedsMore : ∀ k ∈ [0, 44, 45, 749], (zb ((st1Bits 0 0 true 0 [eFull]).take k)).fatal = 0 ∧
    [eFull].length ≤ 15 ∧ (∀ e ∈ [eFull], Sendable e) ∧ k < (st1Bits 0 0 true 0 [eFull]).length ∧
    unread (mach (zb ((st1Bits 0 0 true 0 [eFull]).take k))) = (st1Bits 0 0 true 0 [eFull]).take k := by
  intro k hk
  have h : ∀ k ∈ [0, 44, 45, 749], k < (st1Bits 0 0 true 0 [eFull]).length := by decide +kernel
  have he : ∀ e ∈ [eFull], e.sys.toNat ≤ 7 ∧ e.cell.length = ones e.sat * ones e.sig ∧
      (e.cma = false → ∀ b ∈ e.cell, b = true) := by decide +kernel
  exact ⟨rfl, by decide, he, h k hk, rfl⟩

theorem test_witness_St1RefusalsDropNothing : (verdict (unread (mach z))).1 ≠ 0 ∧
    ((verdict (unread (mach (zb M4)))).1 = 0 ∧ U (unread (mach (zb M4))) 12 4 ≠ 1) ∧
    ∀ sys ∈ [8, 15], ([] : List MaskEntry).length < 1 ∧ 8 ≤ sys ∧ sys ≤ 15 ∧ 57 ≤ (zeros 57).length ∧
      unread (mach (zb (st1Front 0 0 false 0 1 ++ [].flatMap entryBits ++ bitsN 4 sys ++ zeros 57))) =
        st1Front 0 0 false 0 1 ++ [].flatMap entryBits ++ bitsN 4 sys ++ zeros 57 := by
  refine ⟨by decide +kernel, by decide +kernel, ?_⟩
  intro sys hs
  have h : ∀ sys ∈ [8, 15], 8 ≤ sys ∧ sys ≤ 15 := by decide
  exact ⟨by decide, (h sys hs).1, (h sys hs).2, by decide, rfl⟩

theorem test_witness_DrainMessageByMessage : z.fatal = 0 ∧ (∀ x ∈ unread (mach (zb (zeros 5))), x = false) ∧
    (∃ x ∈ M4, x ≠ false) ∧ (verdict (M4.take 36)).1 = 1 ∧ (verdict (bitsOf [0xFE, 0x9D])).1 = 4 ∧
    ((verdict M33).1 = 0 ∧ U M33 12 4 = 1 ∧ sv .decSt1 (zb M33) = some (0, 171) ∧ sv .decSt1 (zb (M33.take 170)) = some (1, 0)) ∧
    ((verdict M4).1 = 0 ∧ U M4 12 4 = 4 ∧ z.mask.valid = false ∧ z33.mask.valid = true) := by decide +kernel

theorem test_witness_DrainConservesBits : Answers .decDrain (zb (M33 ++ zeros 3)) (fun _ r => r.status == 0) ∧
    Answers .decDrain (zb (M33 ++ M4.take 12)) (fun s r => r.status == 1 && s.bb.length == 12) :=
  ⟨answers_of (by decide +kernel), answers_of (by decide +kernel)⟩

theorem test_witness_DrainCountsBits : Answers .decDrain (zb M4) (fun _ r => r.events == [.error 5 67]) ∧
    ∀ n, Event.maskUpdate n ∉ [Event.error 5 67] :=
  ⟨answers_of (by decide +kernel), fun n => by simp⟩

/-- Commands and sessions that wait for more. -/
def waits : List (Instr × Session) :=
  [(.bcPeek 1, z), (.bcRdu 64, zb (zeros 63)), (.bcRds 1, z), (.bcSkip 65535, z), (.fsStep, zf longFront),
    (.decHead, zb (M33.take 44)), (.decSt1, zb (M33.take 170)), (.decDrain, zb (M33 ++ M4.take 36))]

theorem test_witness_RetryChangesNothing : ∀ x ∈ waits,
    opcode x.1 ∈ [0x10, 0x11, 0x12, 0x13, 0x31, 0x50, 0x51, 0x52] ∧ x.2.fatal = 0 ∧
      Answers x.1 x.2 (fun _ r => r.status == 1) := by
  intro x hx
  have h : ∀ x ∈ waits, opcode x.1 ∈ [0x10, 0x11, 0x12, 0x13, 0x31, 0x50, 0x51, 0x52] ∧ x.2.fatal = 0 ∧
      (ans x.1 x.2).any (fun r => r.2.status == 1) = true := by decide +kernel
  exact ⟨(h x hx).1, (h x hx).2.1, answers_of (h x hx).2.2⟩

theorem test_witness_MaskLivesUntilTheNextSt1 : opcode .decSt1 ≠ 0x01 ∧
    Answers .decSt1 (zb M33) (fun s _ => s.mask == z33.mask) ∧ z33.mask.valid = true ∧
    Answers (.cfgMode 1) z33 (fun s _ => s.mask == z33.mask) :=
  ⟨by decide, answers_of (by decide +kernel), rfl, answers_of (by decide +kernel)⟩

/-- A table whose one entry has 640 cells. -/
def zFull : Session := { z with mask := { z33.mask with ngnss := 1, entries := [eFull] } }

theorem test_witness_MaskReadOut : z.mask.Inv ∧ zFull.mask.Inv ∧ zFull.fatal = 0 ∧ sv (.maskRd 0 6) zFull = some (0, 640) ∧
    sv (.maskRd 0 7) zFull = some (0x0B, 0) ∧ sv (.maskRd 0 15) zFull = some (0x0B, 0) ∧
    sv (.maskRd 0 16) zFull = some (0, 0xFFFFFFFFFFFFFFFF) ∧ sv (.maskRd 0 25) zFull = some (0, 0xFFFFFFFFFFFFFFFF) ∧
    sv (.maskRd 0 26) zFull = some (0x0B, 0) ∧ sv (.maskRd 1 0) zFull = some (0x0B, 0) ∧ sv (.maskRd 0 0) z = some (5, 0) := by
  decide +kernel

theorem test_witness_StartFragment : z.fatal = 0 ∧ (sv (.raFrag true (zeros 16385)) z).map (·.1) = some 0x80 ∧
    (sv (.raFrag true (zeros 16384)) z).map (·.1) = some 0x0E ∧
    (sv (.raFrag true M33) { zb (zeros 9) with raState := .accumulating, raPart := 5 }).map (·.1) = some 0 ∧
    (sv (.raFrag true (M33.take 45)) z).map (·.1) = some 1 ∧
    (sv (.raFrag true M4) { z with raSfn := 255 }).map (·.1) = some 5 := by decide +kernel

/-- An accumulation of five parts that waits. -/
def zAcc (b : Bits) : Session := { zb b with raState := .accumulating, raPart := 5, raSfn := 1 }

theorem test_witness_ContinuationFragment : sv (.raFrag false []) { z with raSfn := 2 } = some (0x0D, 0x20000) ∧
    sv (.raFrag false [true]) { zAcc (true :: zeros 16384) with bbPos := 1 } = some (0x80, 0) ∧
    (sv (.raFrag false [false]) { zAcc (true :: zeros 16384) with bbPos := 2 }).map (·.1) = some 0 ∧
    sv (.raFrag false (M33.drop 45)) (zAcc (M33.take 45)) = some (0, 0x10000) ∧
    sv (.raFrag false []) (zAcc (M33.take 45)) = some (9, 0) ∧
    sv (.raFrag false []) { zAcc (M33.take 45) with raPart := 4 } = some (1, 0x10501) ∧
    sv (.raFrag false (bitsOf [0xFE, 0x9D])) (zAcc []) = some (4, 0) := by decide +kernel

theorem test_witness_ReassemblerLaws : (zAcc (M33.take 45)).RaInv ∧ z.RaInv ∧
    Answers (.raFrag false []) (zAcc (M33.take 45)) (fun _ r => r.status == 9) ∧
    Answers (.raFrag true M33) z (fun s r => r.status == 0 && s.raState == .idle) :=
  ⟨by decide +kernel, by decide +kernel, answers_of (by decide +kernel), answers_of (by decide +kernel)⟩

/-- `COther`'s CRC of a payload's header and payload, and a frame it accepts; each premise at its bound. -/
def otherFrame : Bytes := [0xD3, 0, 1, 0x55] ++ trailer (crcIn COther [0xD3, 0, 1, 0x55])

theorem test_witness_ChecksumsInEveryInstance : COther.Ok ∧ z.fatal = 0 ∧ z.fsMode = .rtcm3 ∧ 0xD3 ∉ [(0x11 : Byte)] ∧
    otherFrame.head? = some 0xD3 ∧ 3 ≤ otherFrame.length ∧ total .rtcm3 otherFrame = otherFrame.length ∧
    (List.replicate 1023 (0 : Byte)).length ≤ 1023 ∧
    (ansBy (execFor COther) .fsStep (zf (0x11 :: otherFrame))).map (·.2.status) = some 0 ∧
    (ansBy (execFor COther) .fsStep (zf (0x11 :: otherFrame.dropLast ++ [0]))).map (·.2.status) = some 2 ∧
    (ansBy (execFor COther) (.crcVerify otherFrame) z).map (·.2.value) = some 1 ∧ sv (.crcVerify otherFrame) z = some (0, 0) ∧
    (ansBy (execFor COther) (.rtcmEnc [0x55]) z).map (·.2.data) = some (.bytes otherFrame) := by decide +kernel

theorem test_witness_FragmentCapacityInEveryInstance : z.fatal = 0 ∧
    [10122, 10123].map (fun n => (ansBy (execFor COther) (.raFrag true (zeros n)) z).map (·.2.status)) =
      [some 0x0E, some 0x80] ∧
    [1, 2].map (fun n => (ansBy (execFor COther) (.raFrag false [true])
      { zAcc (zeros (10121 + n)) with bbPos := 1 }).map (·.2.status)) = [some 3, some 0x80] ∧
    (ansBy (execFor COther) (.raFrag false (zeros 10123)) z).map (·.2.status) = some 0x0D := by decide +kernel

/-- M33, M4 and 15 zero bits in six fragments, the first a whole head. -/
def messages : Bits := M33 ++ M4
def firstPart : Bits := messages.take 45
def moreParts : List Bits :=
  [slice messages 45 40, slice messages 85 40, slice messages 125 40, slice messages 165 40, messages.drop 205 ++ zeros 15]
def fragments (j : Nat) : List Instr := .raFrag true firstPart :: (moreParts.take j).map (.raFrag false)
def direct : List Instr := [.bcClear, .bcAppend messages, .decDrain]

/-- The state of the instance with T after a list of instructions. -/
def afterT (is : List Instr) : State := (runBy (execFor CT) is (mach z)).getD (mach z)

theorem test_witness_ReassemblyEquivalence : z.fatal = 0 ∧ z.raState = .idle ∧
    runBy (execFor CT) direct (mach z) = some (afterT direct) ∧
    ((afterT direct).resps.head?).map (·.status) = some 0 ∧
    (firstPart :: moreParts).flatten = messages ++ List.replicate 15 false ∧ messages.length + 15 ≤ CT.bbCap ∧
    moreParts.length + 1 ≤ 6 ∧ (verdict firstPart).1 = 0 ∧
    (∀ j < moreParts.length, runBy (execFor CT) (fragments j) (mach z) = some (afterT (fragments j)) ∧
      ((afterT (fragments j)).resps.head?).map (·.status) = some 1) ∧
    runBy (execFor CT) (fragments 5) (mach z) = some (afterT (fragments 5)) := by decide +kernel

theorem test_witness_RtcmFrameIsBuilt : z.fatal = 0 ∧ (sv (.rtcmEnc (List.replicate 1023 0)) z).map (·.1) = some 0 ∧
    sv (.rtcmEnc (List.replicate 1024 0)) z = some (0x0B, 0) := by decide +kernel

theorem test_witness_RtcmRoundTrip : z.fatal = 0 ∧ (List.replicate 1023 (0xD3 : Byte)).length ≤ 1023 ∧ z.fsMode = .rtcm3 ∧
    z.fsBuf = [] := ⟨rfl, by rw [List.length_replicate], rfl, rfl⟩

theorem test_witness_PipeNextIsTheComposition : ({ z with fatal := 0x81 } : Session).fatal ≠ 0 ∧ z.fatal = 0 ∧
    sv .pipeNext z = some (1, 0) ∧ sv .pipeNext (zf good) = some (0x0E, 0x100000000) ∧
    (sv .pipeNext { zf l6 with fsMode := .l6 }).map (·.1) = some 0 := by decide +kernel

/-- An ST1 too long for two parts. -/
def longSt1 : Bits := st1Bits 0 0 false 0 (List.replicate 15 eFull)

/-- Its first part buffered, its second in a broadcast frame. -/
def zTwo : Session :=
  { z with
    fsMode := .l6
    fsBuf := l6Cont (slice longSt1 1695 1695)
    raState := .accumulating
    raPart := 1
    bb := longSt1.take 1695 }

theorem test_witness_FramedPathNeverExhausts : zTwo.fatal = 0 ∧ zTwo.fsMode = .l6 ∧ zTwo.RaInv ∧
    (zTwo.raState = .accumulating → zTwo.bb.length - zTwo.bbPos ≤ 1695 * zTwo.raPart) ∧
    Answers .pipeNext zTwo (fun s _ => s.raState == .accumulating && s.bb.length == 3390) :=
  ⟨rfl, rfl, by decide +kernel, by decide +kernel, answers_of (by decide +kernel)⟩

theorem test_witness_EventWord : 0 < 2 ^ 32 ∧ 2 ^ 32 - 1 < 2 ^ 32 ∧
    eventWord (.record 4 true 67 []) = 0x0000004300010402 ∧ eventWord (.partOverflow 1272) = 0x000004F800000905 := by decide +kernel

end Sys2Proof.Tests
end

section
/-!
SUPPORT. How an instruction answers in the statements' terms, and CRC24Q: the table form of `Step` is the bitwise form of
R131, and every value made with it is the number the statements write.
-/

namespace Sys2Proof.Machine

open Sys2Proof.Statements

/-! ### Answers -/

theorem execFor_done (C : Chip) (i : Instr) {s : State} (h : s.ses.fatal = 0) :
    execFor C i s = done s (sessionOp C i s.ses).1 (sessionOp C i s.ses).2 := execFor_run C i h

theorem done_inj {s : State} {a b : Session} {q r : Response} : done s a q = done s b r ↔ a = b ∧ q = r := by
  simp [done]

/-! ### CRC24Q -/

/-- A shift is a left shift of the 24 bits, with the generator where the top bit leaves (R131). -/
theorem crcShift_eq (poly : BitVec 25) (c : BitVec 24) :
    crcShift poly c = c <<< 1 ^^^ (if c.msb then poly.setWidth 24 else 0#24) := by
  have hbit : (c.setWidth 25 <<< 1).getLsbD 24 = c.msb := by simp [BitVec.msb_eq_getLsbD_last]
  have hshift : (c.setWidth 25 <<< 1).setWidth 24 = c <<< 1 := by
    apply BitVec.eq_of_getLsbD_eq
    intro i hi
    simp [hi]
  simp only [crcShift, hbit]
  split
  · rw [BitVec.setWidth_xor, hshift]
  · rw [hshift, BitVec.xor_zero]

theorem crcShift_xor (poly : BitVec 25) (c d : BitVec 24) :
    crcShift poly (c ^^^ d) = crcShift poly c ^^^ crcShift poly d := by
  have hpoly : (if (c ^^^ d).msb then poly.setWidth 24 else 0#24) =
      (if c.msb then poly.setWidth 24 else 0#24) ^^^ (if d.msb then poly.setWidth 24 else 0#24) := by
    rw [BitVec.msb_xor]
    cases c.msb <;> cases d.msb <;> simp
  rw [crcShift_eq, crcShift_eq, crcShift_eq, hpoly, BitVec.shiftLeft_xor_distrib]
  ac_rfl

/-- The shifts are linear: what makes the table form possible. -/
theorem crcShifts_xor (poly : BitVec 25) (n : Nat) (c d : BitVec 24) :
    crcShifts poly n (c ^^^ d) = crcShifts poly n c ^^^ crcShifts poly n d := by
  induction n generalizing c d with
  | zero => rfl
  | succ n ih => rw [crcShifts, crcShift_xor, ih]; rfl

/-- As long as no set bit leaves at the top, the shifts are a left shift. -/
theorem crcShifts_of_lt (poly : BitVec 25) (n : Nat) (c : BitVec 24) (h : c.toNat * 2 ^ n < 2 ^ 24) :
    crcShifts poly n c = c <<< n := by
  induction n generalizing c with
  | zero => simp [crcShifts]
  | succ n ih =>
    have hc : c.toNat * 2 * 2 ^ n < 2 ^ 24 := by rw [pow_succ] at h; linarith
    have hc2 : 2 * c.toNat < 2 ^ 24 := by nlinarith [Nat.two_pow_pos n]
    have htop : c.msb = false := BitVec.msb_eq_false_iff_two_mul_lt.mpr hc2
    have hs : crcShift poly c = c <<< 1 := by simp [crcShift_eq, htop]
    have hd : (c <<< 1).toNat = c.toNat * 2 := by
      rw [BitVec.toNat_shiftLeft, Nat.shiftLeft_eq, pow_one, Nat.mod_eq_of_lt (by omega)]
    rw [crcShifts, hs, ih _ (by rw [hd]; exact hc), ← BitVec.shiftLeft_add, Nat.add_comm]

/-- The table form of `Step` is the bitwise form (R131): the table is entered with the top byte, the rest only moves up. -/
theorem crcStep_eq_bitwise (poly : BitVec 25) (c : BitVec 24) (b : Byte) :
    crcStep poly c b = crcStepBitwise poly c b := by
  have hsplit : c ^^^ (b.setWidth 24 <<< 16) =
      (c.setWidth 16).setWidth 24 ^^^ ((c.extractLsb' 16 8 ^^^ b).setWidth 24 <<< 16) := by
    apply BitVec.eq_of_getLsbD_eq
    intro i hi
    by_cases h : i < 16
    · simp [h, hi]
    · simp [h, hi, show i - 16 < 8 by omega, show 16 + (i - 16) = i by omega]
  have hlow : crcShifts poly 8 ((c.setWidth 16).setWidth 24) = c <<< 8 := by
    have hlt := (c.setWidth 16).isLt
    have hle : ((c.setWidth 16).setWidth 24).toNat ≤ (c.setWidth 16).toNat := by
      rw [BitVec.toNat_setWidth]; exact Nat.mod_le _ _
    rw [crcShifts_of_lt _ _ _ (by omega)]
    apply BitVec.eq_of_getLsbD_eq
    intro i hi
    by_cases h : i < 8
    · simp [h]
    · simp [h, hi, show i - 8 < 16 by omega, show i - 8 < 24 by omega]
  rw [crcStepBitwise, hsplit, crcShifts_xor, hlow, crcStep, crcTab, crcStepBitwise, BitVec.ofNat_eq_ofNat,
    BitVec.zero_xor]

/-- One shift as the number of R131's bitwise form; where bit 24 comes out set, the generator clears it again. -/
theorem crcShift_toNat {poly : BitVec 25} (hp : poly.msb = true) (c : BitVec 24) :
    (crcShift poly c).toNat = crcBit poly.toNat c.toNat := by
  have hd : (c.setWidth 25 <<< 1).toNat = 2 * c.toNat := by
    have := c.isLt
    simp [Nat.shiftLeft_eq]; omega
  have hbit : (2 * c.toNat).testBit 24 = (c.setWidth 25 <<< 1).msb := by
    rw [BitVec.msb_eq_getLsbD_last, BitVec.getLsbD, hd]
  have hlow : ∀ x : BitVec 25, x.msb = false → (x.setWidth 24).toNat = x.toNat := by
    intro x hx
    have := BitVec.msb_eq_false_iff_two_mul_lt.mp hx
    rw [BitVec.toNat_setWidth, Nat.mod_eq_of_lt (by omega)]
  simp only [crcShift, crcBit, hbit, ← BitVec.msb_eq_getLsbD_last (c.setWidth 25 <<< 1)]
  cases h : (c.setWidth 25 <<< 1).msb with
  | true => simp only [if_true]; rw [hlow _ (by simp [h, hp]), BitVec.toNat_xor, hd]
  | false => simp only [Bool.false_eq_true, if_false]; rw [hlow _ h, hd]

theorem crcShifts_toNat {poly : BitVec 25} (hp : poly.msb = true) (n : Nat) (c : BitVec 24) :
    (crcShifts poly n c).toNat = (crcBit poly.toNat)^[n] c.toNat := by
  induction n generalizing c with
  | zero => rfl
  | succ n ih => rw [crcShifts, ih, crcShift_toNat hp, Function.iterate_succ_apply]

/-- `Step` as the number of R131's bitwise form, for every generator of degree 24. -/
theorem crcStep_toNat {poly : BitVec 25} (hp : poly.msb = true) (c : BitVec 24) (b : Byte) :
    (crcStep poly c b).toNat = crcByte poly.toNat c.toNat b.toNat := by
  have hb : (b.setWidth 24 <<< 16).toNat = b.toNat * 65536 := by
    have := b.isLt
    simp [Nat.shiftLeft_eq]; omega
  rw [crcStep_eq_bitwise, crcStepBitwise, crcShifts_toNat hp, BitVec.toNat_xor, hb, crcByte]

theorem foldl_crcStep_toNat {poly : BitVec 25} (hp : poly.msb = true) (b : Bytes) (c : BitVec 24) :
    (b.foldl (crcStep poly) c).toNat = b.foldl (fun c x => crcByte poly.toNat c x.toNat) c.toNat := by
  induction b generalizing c with
  | nil => rfl
  | cons x b ih => rw [List.foldl_cons, List.foldl_cons, ih, crcStep_toNat hp]

theorem crc24q_toNat {C : Chip} (hp : C.crcPoly.msb = true) (b : Bytes) : (crc24q C b).toNat = crcIn C b :=
  foldl_crcStep_toNat hp b C.crcInit

theorem bytes24_eq_trailer (c : BitVec 24) : bytes24 c = trailer c.toNat := by
  simp only [bytes24, trailer, List.cons.injEq, and_true]
  refine ⟨?_, ?_, ?_⟩ <;> apply BitVec.eq_of_toNat_eq <;> simp [Nat.shiftRight_eq_div_pow]

theorem be24_toNat (b : Bytes) (i : Nat) : (be24 b i).toNat = be b i := by
  show BitVec.toNat (w := 8 + 8 + 8) _ = _
  simp only [be24, toNat_append_add, byteAt, be]
  omega

end Sys2Proof.Machine
end

section
/-!
SUPPORT. Frames: their numbers and bits in the statements' terms, what FS.STEP does where it finds one, and what PIPE.NEXT
hands on.
-/

namespace Sys2Proof.Machine

open Sys2Proof.Statements

/-! ### Frames -/

theorem declaredLength_eq (buf : Bytes) : declaredLength buf = declared buf := by
  have hmask : (byteAt buf 1 &&& 0x03).toNat = (byteAt buf 1).toNat % 4 := by
    rw [BitVec.toNat_and]
    exact Nat.and_two_pow_sub_one_eq_mod _ 2
  rw [declaredLength, hmask]
  rfl

theorem frameTotal_eq (m : FsMode) (buf : Bytes) : frameTotal m buf = total m buf := by
  cases m
  · simp only [frameTotal, total, declaredLength_eq]
  · rfl

theorem stepLen_rtcm3 (buf : Bytes) : stepLen .rtcm3 buf = BitVec.ofNat 10 (declared buf) := by
  simp only [stepLen, frameTotal, declaredLength_eq, Nat.add_sub_cancel_left]

theorem frameData_eq (m : FsMode) (F : Bytes) : frameData m F = frameBytes m F := by
  cases m
  · simp only [frameData, frameBytes, slice, declaredLength_eq]
  · rfl

/-- The frame value of an RTCM3 frame (R154) as a number. -/
theorem frameValue_rtcm3 (F : Bytes) : frameValue .rtcm3 F = BitVec.ofNat 64 (frameNum .rtcm3 F) := by
  have hlen : declared F < 1024 := declaredLength_eq F ▸ declaredLength_lt F
  have hbyte := (byteAt F 1).isLt
  apply BitVec.eq_of_toNat_eq
  simp only [frameValue, frameNum, BitVec.toNat_setWidth, toNat_append_add, BitVec.extractLsb'_toNat, BitVec.toNat_ofNat,
    declaredLength_eq, Nat.shiftRight_eq_div_pow]
  simp only [byteAt] at hbyte ⊢
  omega

/-- The check of an RTCM3 frame (R153), on numbers. -/
theorem frameGood_rtcm3 {C : Chip} (hp : C.crcPoly.msb = true) (F : Bytes) :
    frameGood C .rtcm3 F = true ↔ crcIn C (F.take (F.length - 3)) = be F (F.length - 3) := by
  rw [frameGood, beq_iff_eq, ← crc24q_toNat hp, ← be24_toNat, BitVec.toNat_inj]

theorem crcVerdict_iff {C : Chip} (hp : C.crcPoly.msb = true) (f : Bytes) :
    crcVerdict C f = true ↔ 3 ≤ f.length ∧ crcIn C (f.take (f.length - 3)) = be f (f.length - 3) := by
  rw [crcVerdict, Bool.and_eq_true, decide_eq_true_iff, beq_iff_eq, ← crc24q_toNat hp, ← be24_toNat, BitVec.toNat_inj]

theorem crcResponse_eq (c : BitVec 24) : crcResponse c =
    { status := 0x00, value := BitVec.ofNat 64 c.toNat, data := .bytes (trailer c.toNat) } := by
  rw [crcResponse, bytes24_eq_trailer, BitVec.ofNat_toNat]
  rfl

/-- A preamble of one byte fits exactly where that byte stands. -/
theorem compatible_singleton_cons (p b : Byte) (buf : Bytes) : compatible [p] (b :: buf) = (p == b) := by
  simp [compatible]

/-- The sync search in mode 0 removes the bytes in front of the first preamble (R151, R153). -/
theorem syncSearch_singleton {p : Byte} {g r : Bytes} (hg : p ∉ g) (hr : r.head? = some p) :
    syncSearch [p] (g ++ r) = r := by
  obtain ⟨rest, rfl⟩ : ∃ rest, r = p :: rest := List.head?_eq_some_iff.mp hr
  refine syncSearch_eq (by rw [compatible_singleton_cons, beq_self_eq_true]) fun j hj => ?_
  rw [List.drop_append_of_le_length hj.le, List.drop_eq_getElem_cons hj, List.cons_append, compatible_singleton_cons,
    beq_eq_false_iff_ne]
  exact fun h => hg (h ▸ List.getElem_mem hj)

/-- A whole buffer that agrees with the pattern begins with it. -/
theorem take_of_compatible {pat buf : Bytes} (h : compatible pat buf = true) (hl : pat.length ≤ buf.length) :
    buf.take pat.length = pat := by
  refine List.ext_getElem (by simpa using hl) fun i h1 h2 => ?_
  rw [List.getElem_take]
  exact (compatible_iff pat buf).mp h i h2 (by omega)

/-! ### The bits of a broadcast frame -/

/-- The first bits of a byte string, as the statements number them, are the front of all its bits (R13). -/
theorem firstBits_eq_take {b : Bytes} {n : Nat} (h : n ≤ 8 * b.length) : firstBits b n = (bitsOf b).take n := by
  apply List.ext_getElem?
  intro j
  by_cases hj : j < n
  · simp [firstBits, hj, getElem?_bitsOf b j (by omega)]
  · rw [List.getElem?_eq_none (by simp [firstBits]; omega), List.getElem?_eq_none (by simp; omega)]

theorem bitsOf_take (b : Bytes) (n : Nat) : bitsOf (b.take n) = (bitsOf b).take (8 * n) := by
  induction n generalizing b with
  | zero => rfl
  | succ n ih =>
    cases b with
    | nil => rfl
    | cons x b =>
      rw [List.take_succ_cons, bitsOf_cons, bitsOf_cons, ih, Nat.mul_succ, Nat.add_comm, ← length_bitsOfByte x,
        List.take_length_add_append]

/-- The fragment of a broadcast frame, from its 1696 data bits (R77, R80, R235). -/
theorem fragmentOf_l6 (C : Chip) {F : Bytes} (hF : F.length = 250) {r : Response} (hd : r.data = .bytes (frameBytes .l6 F)) :
    fragmentOf C .l6 r =
      (r.value.toNat % 2 == 1, ((firstBits (F.drop 6) 1696).drop C.fragSkipBits).take C.fragPayloadBits) := by
  have hbits : bitsOf (frameBytes .l6 F) = firstBits (F.drop 6) 1696 := by
    rw [firstBits_eq_take (by rw [List.length_drop]; omega)]
    exact bitsOf_take (F.drop 6) 212
  have hlow : r.value.getLsbD 0 = (r.value.toNat % 2 == 1) := by
    rw [BitVec.getLsbD, Nat.testBit_zero]
    rfl
  simp only [fragmentOf, hd, dataBytes, hbits, hlow, slice]

/-! ### FS.STEP where it finds a frame -/

/-- Where FS.STEP in mode 1 returns OK, a frame of 250 bytes that begins with `L6_PRE` leaves the buffer (R151, R153). -/
theorem fsStepOp_ok_l6 {C : Chip} {s t : Session} {r : Response} (hm : s.fsMode = .l6) (h : fsStepOp C s = (t, r))
    (hok : r.status = Status.ok) :
    ∃ g F, s.fsBuf = g ++ F ++ t.fsBuf ∧ F.length = 250 ∧ F.take 4 = C.l6Pre.toList ∧ t.fsMode = .l6 ∧
      t.fatal = s.fatal ∧ r.data = .bytes (frameBytes .l6 F) := by
  obtain ⟨g, hbuf, hcompat, -⟩ := syncSearch_spec (syncPattern C s.fsMode) s.fsBuf
  obtain ⟨buf, rfl, hcases⟩ := fsStepOp_cases C s
  rw [hm] at hbuf hcompat hcases
  generalize syncSearch (syncPattern C .l6) s.fsBuf = buf at hbuf hcompat hcases
  rcases hcases with ⟨-, e⟩ | ⟨-, -, e⟩ | ⟨-, hT, -, e⟩ | ⟨-, -, -, e⟩ <;> rw [h] at e <;> cases e
  · cases hok
  · cases hok
  · have hlen : 250 ≤ buf.length := hT
    have hpre : buf.take C.l6Pre.toList.length = C.l6Pre.toList :=
      take_of_compatible hcompat (by rw [Vector.length_toList]; omega)
    rw [Vector.length_toList] at hpre
    refine ⟨g, buf.take 250, ?_, by rw [List.length_take]; omega, ?_, rfl, rfl, rfl⟩
    · rw [List.append_assoc]
      exact hbuf.trans (congrArg (g ++ ·) (List.take_append_drop 250 buf).symm)
    · rw [List.take_take]; exact hpre
  · cases hok

/-- FS.STEP in mode 0 on a buffer with a whole frame behind bytes that are no preamble (R153, R154). -/
theorem fsStepOp_rtcm3 {C : Chip} {s : Session} {g r : Bytes} (hp : C.crcPoly.msb = true) (hm : s.fsMode = .rtcm3)
    (hbuf : s.fsBuf = g ++ r) (hg : 0xD3 ∉ g) (hr : r.head? = some 0xD3) (hT : total .rtcm3 r ≤ r.length) :
    fsStepOp C s =
      if crcIn C ((r.take (total .rtcm3 r)).take (total .rtcm3 r - 3)) =
          be (r.take (total .rtcm3 r)) (total .rtcm3 r - 3) then
        ({ s with fsBuf := r.drop (total .rtcm3 r), fsState := .validated, fsLen := BitVec.ofNat 10 (declared r) },
          { status := 0x00, value := BitVec.ofNat 64 (frameNum .rtcm3 (r.take (total .rtcm3 r))),
            data := .bytes (frameBytes .rtcm3 (r.take (total .rtcm3 r))) })
      else
        ({ s with fsBuf := r.drop 1, fsState := .crcFail, fsLen := BitVec.ofNat 10 (declared r) }, { status := 0x02 }) := by
  have h6 : 6 ≤ total .rtcm3 r := Nat.le_add_right 6 _
  have hF : (r.take (total .rtcm3 r)).length = total .rtcm3 r := by rw [List.length_take]; omega
  have hgood := frameGood_rtcm3 hp (r.take (total .rtcm3 r))
  rw [hF] at hgood
  obtain ⟨buf, rfl, hcases⟩ := fsStepOp_cases C s
  have hsync : syncSearch (syncPattern C s.fsMode) s.fsBuf = r := by
    rw [hm, hbuf]; exact syncSearch_singleton hg hr
  rw [hsync, hm, frameTotal_eq, stepLen_rtcm3, frameValue_rtcm3, frameData_eq] at hcases
  rw [hm]
  rcases hcases with ⟨hlt, -⟩ | ⟨-, hlt, -⟩ | ⟨-, -, hcrc, e⟩ | ⟨-, -, hcrc, e⟩
  · have : r.length < 3 := hlt
    omega
  · omega
  · rw [e, if_pos (hgood.mp hcrc)]; rfl
  · rw [e, if_neg fun h => by rw [hgood.mpr h] at hcrc; cases hcrc]; rfl

/-! ### Encoder and pipeline -/

/-- The frame RTCM.ENC writes (R71, R231), its trailer as a number. -/
theorem rtcmFrame_eq {C : Chip} (hp : C.crcPoly.msb = true) (p : Bytes) :
    rtcmFrame C p = rtcmHeader p.length ++ p ++ trailer (crcIn C (rtcmHeader p.length ++ p)) := by
  simp only [rtcmFrame, bytes24_eq_trailer, crc24q_toNat hp]

/-- PIPE.NEXT on a session from which FS.STEP removes a frame (R235). -/
theorem pipeNextOp_of_frame {C : Chip} {s s1 : Session} {r : Response} (hr : fsStepOp C s = (s1, r))
    (hok : r.status = Status.ok) :
    pipeNextOp C s =
      let f := fragmentOf C s1.fsMode r
      let q := raFragOp C f.1 f.2 s1
      (q.1, { status := q.2.status, value := q.2.value + 0x100000000, events := q.2.events }) := by
  simp only [pipeNextOp, hr, if_pos hok]

/-- PIPE.NEXT on a session from which FS.STEP removes no frame (R235). -/
theorem pipeNextOp_of_no_frame {C : Chip} {s s1 : Session} {r : Response} (hr : fsStepOp C s = (s1, r))
    (hno : r.status ≠ Status.ok) :
    pipeNextOp C s = (s1, { status := r.status, value := raValue s1 }) := by
  simp only [pipeNextOp, hr, if_neg hno]

/-- PIPE.NEXT in mode 1 where FS.STEP returns a frame: the frame begins with `L6_PRE`, and RA.FRAG runs on its bits
(R77, R151, R235). -/
theorem pipeNext_l6_of_fsStep {C : Chip} {s : State} (hf : s.ses.fatal = 0) {ses : Session} {r : Response}
    (hm : s.ses.fsMode = .l6) (h : execFor C .fsStep s = done s ses r) (hok : r.status = 0x00) :
    ∃ g F, s.ses.fsBuf = g ++ F ++ ses.fsBuf ∧ F.length = 250 ∧ F.take 4 = C.l6Pre.toList ∧
      ∃ ses' q v,
        execFor C
          (.raFrag (r.value.toNat % 2 == 1)
            (((firstBits (F.drop 6) 1696).drop C.fragSkipBits).take C.fragPayloadBits))
          { s with ses := ses } = done s ses' q ∧
        execFor C .pipeNext s = done s ses' { status := q.status, value := v, events := q.events } ∧
        (q.status ≠ 0x80 → v = q.value + 0x100000000) := by
  rw [execFor_done C _ hf, done_inj] at h
  obtain ⟨hses, hr⟩ := h
  have hstep : fsStepOp C s.ses = (ses, r) := Prod.ext hses hr
  obtain ⟨g, F, hbuf, hF, hpre, hmode, hfatal, hdata⟩ := fsStepOp_ok_l6 hm hstep hok
  have hpipe : sessionOp C .pipeNext s.ses = _ := pipeNextOp_of_frame hstep hok
  rw [hmode, fragmentOf_l6 C hF hdata] at hpipe
  refine ⟨g, F, hbuf, hF, hpre, _, _, _, execFor_done C _ (hfatal.trans hf), ?_, fun _ => rfl⟩
  rw [execFor_done C _ hf, hpipe]
  rfl

end Sys2Proof.Machine
end

section
/-!
SUPPORT. What RA.FRAG can do, said once, and that it sets the latch in its capacity test alone.
-/

namespace Sys2Proof.Machine

/-! ### The ways of a fragment -/

/-- A start fragment longer than `BB_CAP` only sets the latch (R172). -/
theorem raStart_too_long {C : Chip} {p : Bits} (h : C.bbCap < p.length) (s : Session) :
    raStart C p s = raiseFatal s Status.bufferExhausted := if_pos h

/-- The session a start fragment with the head `hd` is drained on (R172, R179). -/
def started (s : Session) (hd : Head) (p : Bits) : Session :=
  { s with bb := p, bbPos := 0, raState := .accumulating, raPart := 1, raSfn := nextSfn hd s.raSfn }

/-- The session a start fragment without a head leaves (R173). -/
def rejected (s : Session) (p : Bits) : Session := raLost (clearBits (addDrop s p.length))

/-- The session a continuation fragment is drained on (R172, R174). -/
def continued (s : Session) (p : Bits) : Session :=
  { normalize s with bb := (normalize s).bb ++ p, raPart := s.raPart + 1 }

/-- The three ways of a start fragment (R172, R173, R178). -/
theorem raStart_cases (C : Chip) (p : Bits) (s : Session) :
    (C.bbCap < p.length ∧ raStart C p s = raiseFatal s Status.bufferExhausted) ∨
    (p.length ≤ C.bbCap ∧ ∃ hd, headAt p = .head hd ∧
      raStart C p s = raFinish (drain C (started (abandon s).1 hd p) (abandon s).2)) ∨
    (p.length ≤ C.bbCap ∧ (∀ hd, headAt p ≠ .head hd) ∧
      raStart C p s = (rejected (abandon s).1 p,
        { status := Status.startRejected, value := raValue (rejected (abandon s).1 p),
          events := (abandon s).2 ++ [.error (headCode (headAt p)) p.length] })) := by
  unfold raStart
  by_cases hp : p.length > C.bbCap
  · exact .inl ⟨hp, if_pos hp⟩
  refine .inr ?_
  rw [if_neg hp]
  cases hh : headAt p with
  | head hd => exact .inl ⟨not_lt.mp hp, hd, rfl, rfl⟩
  | fail c => exact .inr ⟨not_lt.mp hp, by simp, rfl⟩
  | fail10 hd => exact .inr ⟨not_lt.mp hp, by simp, rfl⟩

/-- The three ways of a continuation fragment (R172, R174, R175). -/
theorem raContinue_cases (C : Chip) (p : Bits) (s : Session) :
    (s.raState = .idle ∧ raContinue C p s = (s, { status := Status.noStart, value := raValue s })) ∨
    (s.raState = .accumulating ∧ C.bbCap < remBits s + p.length ∧
      raContinue C p s = raiseFatal s Status.bufferExhausted) ∨
    (s.raState = .accumulating ∧ remBits s + p.length ≤ C.bbCap ∧
      raContinue C p s = raFinish (drain C (continued s p) [])) := by
  unfold raContinue
  cases hst : s.raState with
  | idle => exact .inl ⟨rfl, rfl⟩
  | accumulating =>
    by_cases hp : remBits s + p.length > C.bbCap
    · exact .inr (.inl ⟨rfl, hp, if_pos hp⟩)
    · exact .inr (.inr ⟨rfl, not_lt.mp hp, if_neg hp⟩)

/-- Abandoning an accumulation writes the bit buffer and the drop count alone (R178). -/
theorem abandon_frame (s : Session) : DrainFrame s (abandon s).1 := by
  unfold abandon
  cases s.raState <;> constructor <;> rfl

/-! ### The answers of a fragment -/

/-- The codes with which a drain drops (R209). -/
theorem drain_discarded {C : Chip} {s : Session} {evs : List Event} {c : Byte} (h : (drain C s evs).2.1 = .discarded c) :
    c ∈ [(0x03 : Byte), 0x04, 0x05, 0x07, 0x08, 0x0C, 0x0F] := by
  rw [← drain_normalize, drain_events] at h
  have hleaves := (drain_leaves C (normalize s) rfl).2.2.2
  rw [h] at hleaves
  exact hleaves.2

/-- RA.FRAG that comes to its drain leaves the latch and does not answer 0x80 (R172). -/
theorem raFinish_drain_answers (C : Chip) (s : Session) (evs : List Event) :
    (raFinish (drain C s evs)).1.fatal = s.fatal ∧ (raFinish (drain C s evs)).2.status ≠ 0x80 := by
  have hfatal := (drain_frame C s evs).fatal
  have hcode := fun c => drain_discarded (C := C) (s := s) (evs := evs) (c := c)
  rcases hd : drain C s evs with ⟨t, e, es⟩
  rw [hd] at hfatal hcode
  rcases raFinish_cases t e es with ⟨-, k⟩ | ⟨c, he, k⟩ | ⟨-, -, k⟩ | ⟨-, -, k⟩ <;> rw [k]
  · exact ⟨hfatal, (by decide : Status.ok ≠ 0x80)⟩
  · refine ⟨hfatal, fun h80 => ?_⟩
    have hmem := hcode c he
    rw [show c = 0x80 from h80] at hmem
    exact absurd hmem (by decide)
  · exact ⟨hfatal, (by decide : Status.partOverflow ≠ 0x80)⟩
  · exact ⟨hfatal, (by decide : Status.needMoreData ≠ 0x80)⟩

/-- A start fragment within `BB_CAP` is answered with another status and leaves the latch (R172, R173). -/
theorem raStart_within {C : Chip} {p : Bits} {s : Session} (h : p.length ≤ C.bbCap) :
    (raStart C p s).1.fatal = s.fatal ∧ (raStart C p s).2.status ≠ 0x80 := by
  have hfatal := (abandon_frame s).fatal
  rcases raStart_cases C p s with ⟨hlong, -⟩ | ⟨-, hd, -, e⟩ | ⟨-, -, e⟩
  · omega
  · rw [e]
    obtain ⟨h1, h2⟩ := raFinish_drain_answers C (started (abandon s).1 hd p) (abandon s).2
    exact ⟨h1.trans hfatal, h2⟩
  · rw [e]
    exact ⟨hfatal, (by decide : Status.startRejected ≠ 0x80)⟩

/-- A continuation fragment within `BB_CAP`, or while IDLE, is answered with another status and leaves the latch
(R174, R175). -/
theorem raContinue_within {C : Chip} {p : Bits} {s : Session}
    (h : s.raState = .accumulating → remBits s + p.length ≤ C.bbCap) :
    (raContinue C p s).1.fatal = s.fatal ∧ (raContinue C p s).2.status ≠ 0x80 := by
  rcases raContinue_cases C p s with ⟨-, e⟩ | ⟨hst, hlong, -⟩ | ⟨-, -, e⟩
  · rw [e]
    exact ⟨rfl, (by decide : Status.noStart ≠ 0x80)⟩
  · have := h hst
    omega
  · rw [e]
    exact raFinish_drain_answers C (continued s p) []

end Sys2Proof.Machine
end

section
/-!
SUPPORT. The invariants of R35 through every operation, every command and every step, whatever the parameters and the body
decoder.
-/

namespace Sys2Proof.Machine

/-! ### Commands that return the session they were given -/

theorem peekOp_ses (n : Nat) (s : Session) : (peekOp n s).1 = s := by
  rcases boundedRead_cases n s (answerValue s (BitVec.ofNat 64 (uval s.bb s.bbPos n))) with
    ⟨-, e⟩ | ⟨-, -, -, e⟩ | ⟨-, -, -, e⟩ <;> rw [peekOp, e] <;> rfl

theorem rdregOp_ses (a : Byte) (s : Session) : (rdregOp a s).1 = s := by
  unfold rdregOp
  split <;> rfl

theorem cellWord_ses (s : Session) (e : MaskEntry) (w : Nat) : (cellWord s e w).1 = s := by
  unfold cellWord
  dsimp only
  split <;> rfl

theorem maskField_ses (s : Session) (e : MaskEntry) (f : Nat) : (maskField s e f).1 = s := by
  unfold maskField
  split
  iterate 7 rfl
  split
  · exact cellWord_ses _ _ _
  · rfl

theorem maskRdOp_ses (i f : Nat) (s : Session) : (maskRdOp i f s).1 = s := by
  unfold maskRdOp
  split
  · split
    · rfl
    · split
      · exact maskField_ses _ _ _
      · rfl
  · rfl

theorem rtcmEncOp_ses (C : Chip) (p : Bytes) (s : Session) : (rtcmEncOp C p s).1 = s := by
  unfold rtcmEncOp
  split <;> rfl

/-! ### Invariants -/

/-- The invariants of R35 without the reassembler's: what holds also on the way through RA.FRAG, between the step of the
part number and the end of the drain. -/
structure RestInv (C : Chip) (s : Session) : Prop where
  pos_le : s.bbPos ≤ s.bb.length
  bits_le : s.bb.length ≤ C.bbCap
  bytes_le : s.fsBuf.length ≤ C.fsCap
  mask : s.mask.Inv
  latch : s.fatal = 0 ∨ s.fatal = Status.bufferExhausted ∨ s.fatal = Status.unsynchronizable

theorem fsStateCode_le (x : FsState) : (fsStateCode x).toNat ≤ 4 := by cases x <;> decide

theorem inv_iff {C : Chip} {s : Session} : Session.Inv C s ↔ RestInv C s ∧ s.RaInv := by
  constructor
  · rintro ⟨hpos, hbits, hbytes, hra, -, hmask, hlatch⟩
    exact ⟨⟨hpos, hbits, hbytes, hmask, hlatch⟩, hra⟩
  · rintro ⟨⟨hpos, hbits, hbytes, hmask, hlatch⟩, hra⟩
    exact ⟨hpos, hbits, hbytes, hra, fsStateCode_le _, hmask, hlatch⟩

/-- A reassembler that is IDLE with part number 0 meets its invariant. -/
theorem raInv_of_idle {s : Session} (hst : s.raState = .idle) (hp : s.raPart = 0) : s.RaInv :=
  ⟨fun _ => hp, fun h => by rw [hst] at h; cases h⟩

section
variable {C : Chip} {s t : Session}

/-- A change of the bit buffer, the mask table and the counters alone keeps the invariants it does not touch. -/
theorem RestInv.of_frame (h : RestInv C s) (f : DrainFrame s t) (hpos : t.bbPos ≤ t.bb.length)
    (hbits : t.bb.length ≤ C.bbCap) (hmask : t.mask.Inv) : RestInv C t :=
  ⟨hpos, hbits, f.fsBuf ▸ h.bytes_le, hmask, f.fatal ▸ h.latch⟩

theorem inv_of_frame (h : Session.Inv C s) (f : DrainFrame s t) (hpos : t.bbPos ≤ t.bb.length)
    (hbits : t.bb.length ≤ C.bbCap) (hmask : t.mask.Inv) : Session.Inv C t := by
  obtain ⟨hrest, hra⟩ := inv_iff.mp h
  refine inv_iff.mpr ⟨hrest.of_frame f hpos hbits hmask, ?_⟩
  rw [Session.RaInv, f.raState, f.raPart]
  exact hra

theorem normalize_frame (s : Session) : DrainFrame s (normalize s) := by constructor <;> rfl

theorem applyST1_frame (s : Session) (hd : Head) (es : List MaskEntry) (n : Nat) :
    DrainFrame s (applyST1 s hd es n) := by constructor <;> rfl

theorem RestInv.normalize (h : RestInv C s) : RestInv C (normalize s) :=
  h.of_frame (normalize_frame s) (Nat.zero_le _) (le_trans (by simp) h.bits_le) h.mask

theorem inv_normalize (h : Session.Inv C s) : Session.Inv C (normalize s) := by
  have hrest := (inv_iff.mp h).1.normalize
  exact inv_of_frame h (normalize_frame s) hrest.pos_le hrest.bits_le hrest.mask

/-- The table of a decoded ST1 meets the invariants (R28, R35). -/
theorem maskOf_inv {b : Bits} {es : List MaskEntry} {n : Nat} (hd : Head) (h : st1At b = .ok (es, n)) :
    (maskOf hd es).Inv := by
  obtain ⟨-, hcount, -, -, hentries⟩ := st1At_ok h
  refine ⟨?_, fun hv => absurd hv (by simp [maskOf]), hentries⟩
  simp only [maskOf, BitVec.toNat_ofNat]
  rw [Nat.mod_eq_of_lt (by omega)]

/-- A drain keeps the invariants that are not the reassembler's. -/
theorem RestInv.drain (h : RestInv C s) (evs : List Event) : RestInv C (drain C s evs).1 := by
  have hn := h.normalize
  obtain ⟨hpos, hbb, -⟩ := drain_leaves C (Machine.normalize s) rfl
  have hmask := drain_maskInv C (Machine.normalize s) rfl hn.mask
  have hframe := drain_frame C (Machine.normalize s) []
  rw [← drain_normalize, drain_events]
  refine hn.of_frame hframe (by rw [hpos]; exact Nat.zero_le _) ?_ hmask
  rw [hbb, List.length_drop]
  exact le_trans (Nat.sub_le _ _) hn.bits_le

theorem inv_drain (h : Session.Inv C s) (evs : List Event) : Session.Inv C (drain C s evs).1 := by
  have hrest := (inv_iff.mp h).1.drain evs
  exact inv_of_frame h (drain_frame C s evs) hrest.pos_le hrest.bits_le hrest.mask

end

/-! ### The cursor -/

section
variable {C : Chip} {s : Session}

theorem inv_advance {n : Nat} (h : Session.Inv C s) (hn : n ≤ remBits s) : Session.Inv C (advance s n) := by
  have hpos := (inv_iff.mp h).1.pos_le
  refine inv_of_frame h (by constructor <;> rfl) ?_ (inv_iff.mp h).1.bits_le (inv_iff.mp h).1.mask
  simp only [advance_bbPos, advance_bb, remBits] at hn ⊢
  omega

/-- A bounded read keeps the invariants if it does where that many bits are left. -/
theorem inv_boundedRead {n : Nat} {ok : Reply} (h : Session.Inv C s)
    (hok : n ≤ remBits s → Session.Inv C ok.1) : Session.Inv C (boundedRead n s ok).1 := by
  rcases boundedRead_cases n s ok with ⟨-, e⟩ | ⟨-, -, -, e⟩ | ⟨-, -, hn, e⟩ <;> rw [e]
  · exact h
  · exact h
  · exact hok hn

/-- A fatal condition sets the latch alone, to one of its two codes (R262, R267). -/
theorem inv_raiseFatal {c : Byte} (h : Session.Inv C s) (hc : c = Status.bufferExhausted ∨ c = Status.unsynchronizable) :
    Session.Inv C (raiseFatal s c).1 := by
  obtain ⟨⟨hpos, hbits, hbytes, hmask, -⟩, hra⟩ := inv_iff.mp h
  exact inv_iff.mpr ⟨⟨hpos, hbits, hbytes, hmask, .inr hc⟩, hra⟩

theorem inv_skipOp (n : Nat) (h : Session.Inv C s) : Session.Inv C (skipOp n s).1 := by
  unfold skipOp
  split
  · exact h
  · exact inv_advance h (by omega)

theorem inv_appendOp (p : Bits) (h : Session.Inv C s) : Session.Inv C (appendOp C p s).1 := by
  have hpos := (inv_iff.mp h).1.pos_le
  unfold appendOp
  split
  · exact inv_raiseFatal h (.inl rfl)
  · refine inv_of_frame h (by constructor <;> rfl) ?_ ?_ (inv_iff.mp h).1.mask
    · simp only [answer_ses, List.length_append]; omega
    · simp only [answer_ses, List.length_append]; omega

theorem inv_clearOp (h : Session.Inv C s) : Session.Inv C (clearOp s).1 :=
  inv_of_frame h (by constructor <;> rfl) le_rfl (Nat.zero_le _) (inv_iff.mp h).1.mask

/-! ### The frame synchroniser -/

/-- A change of the synchroniser's registers keeps the invariants if the byte buffer stays within `FS_CAP`. -/
theorem inv_withFs {t : Session} (h : Session.Inv C s) (hb : t.fsBuf.length ≤ C.fsCap)
    (ht : t = { s with fsMode := t.fsMode, fsBuf := t.fsBuf, fsState := t.fsState, fsLen := t.fsLen }) :
    Session.Inv C t := by
  obtain ⟨⟨hpos, hbits, -, hmask, hlatch⟩, hra⟩ := inv_iff.mp h
  rw [ht]
  exact inv_iff.mpr ⟨⟨hpos, hbits, hb, hmask, hlatch⟩, hra⟩

theorem inv_fsPushOp (b : Byte) (h : Session.Inv C s) : Session.Inv C (fsPushOp C b s).1 := by
  have hbytes := (inv_iff.mp h).1.bytes_le
  unfold fsPushOp
  split
  · exact inv_raiseFatal h (.inr rfl)
  · refine inv_withFs h ?_ rfl
    simp only [answer_ses, List.length_append, List.length_singleton]
    omega

theorem length_syncSearch_le (pat buf : Bytes) : (syncSearch pat buf).length ≤ buf.length := by
  obtain ⟨g, hbuf, -⟩ := syncSearch_spec pat buf
  have := congrArg List.length hbuf
  rw [List.length_append] at this
  omega

/-- FS.STEP only removes bytes. -/
theorem inv_fsStepOp (h : Session.Inv C s) : Session.Inv C (fsStepOp C s).1 := by
  obtain ⟨buf, hbuf, hcases⟩ := fsStepOp_cases C s
  have hle : buf.length ≤ C.fsCap := by
    rw [hbuf]; exact le_trans (length_syncSearch_le _ _) (inv_iff.mp h).1.bytes_le
  have hdrop : ∀ n, (buf.drop n).length ≤ C.fsCap := fun n => by rw [List.length_drop]; omega
  rcases hcases with ⟨-, e⟩ | ⟨-, -, e⟩ | ⟨-, -, -, e⟩ | ⟨-, -, -, e⟩ <;> rw [e]
  · exact inv_withFs h hle rfl
  · exact inv_withFs h hle rfl
  · exact inv_withFs h (hdrop _) rfl
  · exact inv_withFs h (hdrop _) rfl

theorem inv_cfgModeOp (a : Byte) (h : Session.Inv C s) : Session.Inv C (cfgModeOp a s).1 := by
  unfold cfgModeOp
  split
  · exact inv_withFs h (Nat.zero_le _) rfl
  · exact inv_withFs h (Nat.zero_le _) rfl
  · exact h

/-! ### The decoder -/

theorem inv_decHeadOp (h : Session.Inv C s) : Session.Inv C (decHeadOp s).1 := by
  unfold decHeadOp
  dsimp only
  split <;> exact inv_normalize h

theorem inv_applyST1 {hd : Head} {es : List MaskEntry} {n : Nat} (h : Session.Inv C s) (hst : st1At s.bb = .ok (es, n)) :
    Session.Inv C (applyST1 s hd es n) := by
  refine inv_of_frame h (applyST1_frame s hd es n) (Nat.zero_le _) ?_ (maskOf_inv hd hst)
  rw [applyST1_bb, List.length_drop]
  exact le_trans (Nat.sub_le _ _) (inv_iff.mp h).1.bits_le

theorem inv_decSt1Op (h : Session.Inv C s) : Session.Inv C (decSt1Op s).1 := by
  have hn := inv_normalize h
  unfold decSt1Op
  dsimp only
  split
  · exact hn
  · exact hn
  · split
    · split
      · exact hn
      · rename_i hst; exact inv_applyST1 hn hst
    · exact hn

/-! ### The reassembler -/

theorem RestInv.raIdle (h : RestInv C s) : Session.Inv C (raIdle s) :=
  inv_iff.mpr ⟨⟨h.pos_le, h.bits_le, h.bytes_le, h.mask, h.latch⟩, raInv_of_idle rfl rfl⟩

theorem RestInv.raLost (h : RestInv C s) : Session.Inv C (raLost s) :=
  inv_iff.mpr ⟨⟨h.pos_le, h.bits_le, h.bytes_le, h.mask, h.latch⟩, raInv_of_idle rfl rfl⟩

theorem RestInv.clear (h : RestInv C s) (n : Nat) : RestInv C (clearBits (addDrop s n)) :=
  h.of_frame (by constructor <;> rfl) le_rfl (Nat.zero_le _) h.mask

/-- The end of RA.FRAG makes room for the next part: an accumulation that goes on has at most five (R35, R177). -/
theorem RestInv.raFinish (d : Drained) (h : RestInv C d.1) (hst : d.1.raState = .accumulating) (hlo : 1 ≤ d.1.raPart)
    (hhi : d.1.raPart ≤ 6) : Session.Inv C (raFinish d).1 := by
  obtain ⟨t, e, evs⟩ := d
  rcases raFinish_cases t e evs with ⟨-, k⟩ | ⟨c, -, k⟩ | ⟨-, -, k⟩ | ⟨-, hne, k⟩ <;> rw [k]
  · exact h.raIdle
  · exact h.raLost
  · exact (h.clear _).raLost
  · have hle : t.raPart ≤ 6 := hhi
    have hst : t.raState = .accumulating := hst
    exact inv_iff.mpr ⟨h, fun hidle => by simp [hst] at hidle, fun _ => ⟨hlo, show t.raPart ≤ 6 - 1 by omega⟩⟩

theorem RestInv.abandon (h : RestInv C s) : RestInv C (abandon s).1 := by
  unfold Machine.abandon
  cases s.raState with
  | idle => exact h
  | accumulating => exact h.normalize.of_frame (by constructor <;> rfl) h.normalize.pos_le h.normalize.bits_le h.mask

/-- A drain leaves the reassembler's registers, so it may end RA.FRAG (R172). -/
theorem inv_raFinish_drain (evs : List Event) (h : RestInv C s) (hst : s.raState = .accumulating) (hlo : 1 ≤ s.raPart)
    (hhi : s.raPart ≤ 6) : Session.Inv C (raFinish (drain C s evs)).1 := by
  have f := drain_frame C s evs
  exact RestInv.raFinish _ (h.drain evs) (f.raState.trans hst) (f.raPart ▸ hlo) (f.raPart ▸ hhi)

theorem inv_raStart (p : Bits) (h : Session.Inv C s) : Session.Inv C (raStart C p s).1 := by
  have ha := (inv_iff.mp h).1.abandon
  rcases raStart_cases C p s with ⟨-, e⟩ | ⟨hp, hd, -, e⟩ | ⟨-, -, e⟩ <;> rw [e]
  · exact inv_raiseFatal h (.inl rfl)
  · exact inv_raFinish_drain _ ⟨Nat.zero_le _, hp, ha.bytes_le, ha.mask, ha.latch⟩ rfl le_rfl (show 1 ≤ 6 by decide)
  · exact (ha.clear _).raLost

theorem inv_raContinue (p : Bits) (h : Session.Inv C s) : Session.Inv C (raContinue C p s).1 := by
  obtain ⟨hrest, -, hacc⟩ := inv_iff.mp h
  rcases raContinue_cases C p s with ⟨-, e⟩ | ⟨-, -, e⟩ | ⟨hst, hp, e⟩ <;> rw [e]
  · exact h
  · exact inv_raiseFatal h (.inl rfl)
  · obtain ⟨-, hmax⟩ := hacc hst
    have hlen : (continued s p).bb.length ≤ C.bbCap := by
      simpa only [continued, normalize_bb, List.length_append, List.length_drop, remBits] using hp
    refine inv_raFinish_drain _ ⟨Nat.zero_le _, hlen, hrest.bytes_le, hrest.mask, hrest.latch⟩ hst
      (Nat.le_add_left 1 s.raPart) ?_
    show s.raPart + 1 ≤ 6
    have : s.raPart ≤ 6 - 1 := hmax
    omega

theorem inv_raFragOp (sf : Bool) (p : Bits) (h : Session.Inv C s) : Session.Inv C (raFragOp C sf p s).1 := by
  cases sf
  · exact inv_raContinue p h
  · exact inv_raStart p h

/-! ### The pipeline -/

theorem inv_pipeNextOp (h : Session.Inv C s) : Session.Inv C (pipeNextOp C s).1 := by
  have hstep := inv_fsStepOp h
  rcases hr : fsStepOp C s with ⟨s1, r⟩
  rw [hr] at hstep
  by_cases hok : r.status = Status.ok
  · rw [pipeNextOp_of_frame hr hok]
    dsimp only
    exact inv_raFragOp _ _ hstep
  · rw [pipeNextOp_of_no_frame hr hok]; exact hstep

/-! ### Every command and every step -/

theorem inv_emptyMask : MaskTable.empty.Inv := by decide

theorem inv_reset (C : Chip) : Session.Inv C (Session.resetFor C) :=
  inv_iff.mpr ⟨⟨le_rfl, Nat.zero_le _, Nat.zero_le _, inv_emptyMask, .inl rfl⟩, raInv_of_idle rfl rfl⟩

/-- Every command's session operation keeps the invariants of R35. -/
theorem inv_sessionOp (i : Instr) (h : Session.Inv C s) : Session.Inv C (sessionOp C i s).1 := by
  cases i with
  | nop | bcPos | bcRem | crcGet | crcCompute | crcVerify | cs8Get | cs8Compute => exact h
  | crcInit | crcUpd | cs8Init | cs8Upd => exact h
  | reset => exact inv_reset C
  | rdreg a => exact (rdregOp_ses a s).symm ▸ h
  | cfgMode a => exact inv_cfgModeOp a h
  | bcPeek n => exact (peekOp_ses n.toNat s).symm ▸ h
  | bcRdu n => exact inv_boundedRead h (inv_advance h)
  | bcRds n => exact inv_boundedRead h (inv_advance h)
  | bcSkip n => exact inv_skipOp n.toNat h
  | bcAppend p => exact inv_appendOp p h
  | bcDiscard => exact inv_normalize h
  | bcClear => exact inv_clearOp h
  | fsPush b => exact inv_fsPushOp b h
  | fsStep => exact inv_fsStepOp h
  | raFrag sf p => exact inv_raFragOp sf p h
  | decHead => exact inv_decHeadOp h
  | decSt1 => exact inv_decSt1Op h
  | decDrain => exact inv_drain h []
  | maskRd i f => exact (maskRdOp_ses i.toNat f.toNat s).symm ▸ h
  | rtcmEnc p => exact (rtcmEncOp_ses C p s).symm ▸ h
  | pipeNext => exact inv_pipeNextOp h

end

theorem inv_execFor {C : Chip} {i : Instr} {s t : State} (h : Session.Inv C s.ses) (hr : execFor C i s = .next t) :
    Session.Inv C t.ses := by
  obtain ⟨r, hnext, hcases⟩ := execFor_cases C i s
  rw [hnext] at hr
  cases hr
  rcases hcases with rfl | ⟨-, -, rfl⟩
  · exact inv_sessionOp i h
  · exact h

theorem illegalCommand_ses {s t : State} (h : illegalCommand s = .next t) : t.ses = s.ses := by
  obtain ⟨r, hnext, hcases⟩ := gated_cases (fun ses => answer ses Status.illegalCommand) s
  rw [illegalCommand, hnext] at h
  cases h
  rcases hcases with ⟨-, rfl⟩ | ⟨-, rfl⟩ <;> rfl

theorem inv_stepFor {C : Chip} {s t : State} (h : Session.Inv C s.ses) (hr : stepFor C s = .next t) :
    Session.Inv C t.ses := by
  rcases stepFor_cases C s with ⟨-, e⟩ | ⟨c, rest, -, ⟨i, -, e⟩ | ⟨op, -, e⟩ | ⟨m, n, -, e⟩⟩ <;> rw [e] at hr
  · cases hr; exact h
  · exact inv_execFor (s := s.withCmds rest) h hr
  · rw [illegalCommand_ses hr]; exact h
  · cases hr

end Sys2Proof.Machine
end

section
/-!
The statements on the scope of the model: parameters, invariants, and what a step runs.
-/

namespace Sys2Proof.Scope

open Sys2Proof.Machine Sys2Proof.Statements

/-- Settles O15: each session operation keeps the invariants, by its own lemma; the gate and the decoder add nothing. -/
theorem operationsKeepInvariantsForEveryChip : Obligations.OperationsKeepInvariantsForEveryChip :=
  fun C => ⟨inv_reset C, fun _ _ _ h hr => inv_execFor h hr, fun _ _ h hr => inv_stepFor h hr⟩

/-- Settles O57: each command's session operation, read off; the broadcast frame by `pipeNext_l6_of_fsStep`. -/
theorem parametersDecideInEveryInstance : Obligations.ParametersDecideInEveryInstance := by
  rintro C s ⟨-, -, -, -, hp⟩
  refine ⟨execFor_ungated C rfl s, fun hf => ⟨execFor_done C _ hf, fun b => ?_, fun p => ?_, fun p hlong => ?_,
    fun b => ?_, fun ses r hm h hok => pipeNext_l6_of_fsStep hf hm h hok⟩⟩
  · rw [execFor_done C _ hf, ← crcStep_toNat hp, BitVec.ofNat_toNat, BitVec.setWidth_eq]; rfl
  · rw [execFor_done C _ hf]
    simp only [sessionOp, appendOp]
    split <;> rfl
  · rw [execFor_done C _ hf]
    simp only [sessionOp, raFragOp, if_true, raStart_too_long hlong]
    rfl
  · rw [execFor_done C _ hf]
    simp only [sessionOp, fsPushOp]
    split <;> rfl

/-- Settles O58: every one-shot CRC is `crc24q`, whose number is `crcIn`. -/
theorem checksumsInEveryInstance : Obligations.ChecksumsInEveryInstance := by
  rintro C s ⟨-, -, -, -, hp⟩ hf
  refine ⟨fun b => ⟨?_, ?_⟩, fun f => ?_, fun p hlen => ?_, fun g r hm hbuf hg hr _ hT => ?_⟩
  · rw [← crc24q_toNat hp]; exact (crc24q C b).isLt
  · rw [execFor_done C _ hf, ← crc24q_toNat hp, ← crcResponse_eq]; rfl
  · rw [execFor_done C _ hf]
    simp only [sessionOp, crcVerifyOp, crcVerdict_iff hp]
    rfl
  · rw [execFor_done C _ hf]
    simp only [sessionOp, rtcmEncOp, if_neg (not_lt.mpr hlen), rtcmFrame_eq hp]
    rfl
  · rw [execFor_done C _ hf]
    have hstep : sessionOp C .fsStep s.ses = _ := fsStepOp_rtcm3 hp hm hbuf hg hr hT
    rw [hstep]
    dsimp only
    split <;> rfl

/-- Settles O59: no end of RA.FRAG but its capacity test answers 0x80. -/
theorem fragmentCapacityInEveryInstance : Obligations.FragmentCapacityInEveryInstance := by
  intro C sf p s hf
  rw [execFor_done C _ hf]
  cases sf with
  | true =>
    simp only [sessionOp, raFragOp, if_true, true_or, true_and, Nat.zero_add]
    split
    · rename_i hlong
      rw [raStart_too_long hlong]; rfl
    · rename_i hlong
      obtain ⟨hfatal, hstatus⟩ := raStart_within (s := s.ses) (not_lt.mp hlong)
      exact ⟨_, _, rfl, hfatal.trans hf, hstatus⟩
  | false =>
    simp only [sessionOp, raFragOp, Bool.false_eq_true, if_false, false_or]
    split
    · rename_i hlong
      obtain ⟨hst, hlen⟩ := hlong
      rcases raContinue_cases C p s.ses with ⟨hidle, -⟩ | ⟨-, -, e⟩ | ⟨-, hle, -⟩
      · rw [hst] at hidle; cases hidle
      · rw [e]; rfl
      · exact absurd hle (not_le.mpr hlen)
    · rename_i hlong
      obtain ⟨hfatal, hstatus⟩ := raContinue_within (s := s.ses) (p := p) (C := C)
        fun hst => not_lt.mp fun hlen => hlong ⟨hst, hlen⟩
      exact ⟨_, _, rfl, hfatal.trans hf, hstatus⟩

theorem step_of_decode {s : State} {c : Command} {rest : List Command} {i : Instr} (hc : s.cmds = c :: rest)
    (hd : decode c = .ok i) : step s = exec i (s.withCmds rest) := by
  simp only [step, stepBy, hc, hd]

/-- Settles O1, by the definition of a step. -/
theorem stepRunsDecodedCommand : Obligations.StepRunsDecodedCommand :=
  fun _ _ _ _ hc hd => step_of_decode hc hd

theorem chip_ok : Config.chip.Ok := by
  refine ⟨?_, ?_, ?_, ?_, ?_⟩ <;> decide

/-- Settles O56: command by command, and the constraints of R7 by evaluation. -/
theorem machineIsTheDefaultInstance : Obligations.MachineIsTheDefaultInstance :=
  ⟨exec_eq_execFor, step_eq_stepFor, rfl, rfl, rfl, rfl, rfl, rfl, rfl, rfl, chip_ok⟩

end Sys2Proof.Scope
end

section
/-!
SUPPORT. The fields of a command word, and the opcode of every instruction.
-/

namespace Sys2Proof.Machine

open Sys2Proof.Statements Sys2Proof.Laws.EncodeWhole

/-! ### Command words -/

theorem toNat_wordOf (op a : Byte) (k : BitVec 16) :
    (wordOf op a k).toNat = op.toNat * 2 ^ 24 + a.toNat * 2 ^ 16 + k.toNat := by
  show BitVec.toNat (w := 8 + 8 + 16) (op ++ a ++ k) = _
  rw [toNat_append_add, toNat_append_add]
  omega

/-- The word the statements write from its three fields (R90). -/
theorem wordOf_ofNat {op : Nat} (h : op < 256) (a : Byte) (k : BitVec 16) :
    BitVec.ofNat 32 (op * 2 ^ 24 + a.toNat * 2 ^ 16 + k.toNat) = wordOf (BitVec.ofNat 8 op) a k := by
  have hop : (BitVec.ofNat 8 op).toNat = op := by rw [BitVec.toNat_ofNat]; omega
  have hword := toNat_wordOf (BitVec.ofNat 8 op) a k
  rw [hop] at hword
  rw [← hword, BitVec.ofNat_toNat, BitVec.setWidth_eq]

/-- A row of the opcode table whose command has no payload: only its opcode's arm of the decoder counts (R94, R95). -/
theorem encodes_of_decodeOp {op : Nat} {f : Byte → BitVec 16 → Instr} (hop : op < 256)
    (hform : payloadForm (BitVec.ofNat 8 op) = .none)
    (hdec : ∀ a k, decodeOp (wordOf (BitVec.ofNat 8 op) a k) [] = .ok (f a k)) : Encodes op f := by
  intro a k
  rw [wordOf_ofNat hop]
  simp only [decode, hdec]
  exact if_pos (whole_none hform)

theorem encodes_reset : Encodes 0x01 (fun _ _ => .reset) :=
  encodes_of_decodeOp (by decide) rfl fun a k => by rw [decodeOp, opOf_wordOf]; rfl

theorem encodes_rdreg : Encodes 0x02 (fun a _ => .rdreg a) :=
  encodes_of_decodeOp (by decide) rfl fun a k => by rw [decodeOp, opOf_wordOf, aOf_wordOf]; rfl

/-! ### Opcodes -/

/-- The `op` column of the opcode table (R94). -/
def opNumber : Instr → Nat
  | .nop => 0x00
  | .reset => 0x01
  | .rdreg _ => 0x02
  | .cfgMode _ => 0x03
  | .bcPeek _ => 0x10
  | .bcRdu _ => 0x11
  | .bcRds _ => 0x12
  | .bcSkip _ => 0x13
  | .bcPos => 0x14
  | .bcRem => 0x15
  | .bcAppend _ => 0x16
  | .bcDiscard => 0x17
  | .bcClear => 0x18
  | .crcInit => 0x20
  | .crcUpd _ => 0x21
  | .crcGet => 0x22
  | .crcCompute _ => 0x23
  | .crcVerify _ => 0x24
  | .cs8Init => 0x28
  | .cs8Upd _ => 0x29
  | .cs8Get => 0x2A
  | .cs8Compute _ => 0x2B
  | .fsPush _ => 0x30
  | .fsStep => 0x31
  | .raFrag _ _ => 0x40
  | .decHead => 0x50
  | .decSt1 => 0x51
  | .decDrain => 0x52
  | .maskRd _ _ => 0x53
  | .rtcmEnc _ => 0x60
  | .pipeNext => 0x61

theorem toNat_wordOf_div (op a : Byte) (k : BitVec 16) : (wordOf op a k).toNat / 2 ^ 24 = op.toNat := by
  rw [toNat_wordOf]
  omega

/-- The opcode of an instruction's encoding is its row's. -/
theorem opcode_eq (i : Instr) : opcode i = opNumber i := by
  cases i <;> exact toNat_wordOf_div _ _ _

end Sys2Proof.Machine
end

section
/-!
SUPPORT. Which elements a command's session operation may change (R45), said once for each command.
-/

namespace Sys2Proof.Machine

open Sys2Proof.Statements

/-- The elements of the session, grouped as R45 lists their writers. -/
inductive Element where
  | crc
  | checksum
  | bits
  | cursor
  | mode
  | bytes
  | sync
  | reassembler
  | table
  | latch
deriving DecidableEq

/-- The element has the same value in both sessions. -/
def Element.Same (s t : Session) : Element → Prop
  | .crc => t.crc = s.crc
  | .checksum => t.ckA = s.ckA ∧ t.ckB = s.ckB
  | .bits => t.bb = s.bb
  | .cursor => t.bbPos = s.bbPos
  | .mode => t.fsMode = s.fsMode
  | .bytes => t.fsBuf = s.fsBuf
  | .sync => t.fsState = s.fsState ∧ t.fsLen = s.fsLen
  | .reassembler => t.raState = s.raState ∧ t.raPart = s.raPart ∧ t.raSfn = s.raSfn
  | .table => t.mask = s.mask ∧ t.statMsg = s.statMsg ∧ t.statNull = s.statNull ∧ t.statDrop = s.statDrop
  | .latch => t.fatal = s.fatal

/-- Between the two sessions only the listed elements may differ. -/
def Writes (es : List Element) (s t : Session) : Prop := ∀ e, e ∉ es → e.Same s t

theorem Element.same_refl (e : Element) (s : Session) : e.Same s s := by
  cases e <;> simp only [Element.Same, and_self]

theorem Element.Same.trans {e : Element} {s t u : Session} (h : e.Same s t) (k : e.Same t u) : e.Same s u := by
  cases e <;> simp_all only [Element.Same, and_self]

theorem writes_refl (es : List Element) (s : Session) : Writes es s s := fun e _ => e.same_refl s

theorem Writes.trans {es : List Element} {s t u : Session} (h : Writes es s t) (k : Writes es t u) : Writes es s u :=
  fun e he => (h e he).trans (k e he)

theorem Writes.mono {es fs : List Element} {s t : Session} (h : Writes es s t) (hsub : es ⊆ fs) : Writes fs s t :=
  fun e he => h e fun hmem => he (hsub hmem)

/-- `Writes`, element by element. -/
theorem writes_iff {es : List Element} {s t : Session} : Writes es s t ↔
    (.crc ∉ es → t.crc = s.crc) ∧ (.checksum ∉ es → t.ckA = s.ckA ∧ t.ckB = s.ckB) ∧ (.bits ∉ es → t.bb = s.bb) ∧
    (.cursor ∉ es → t.bbPos = s.bbPos) ∧ (.mode ∉ es → t.fsMode = s.fsMode) ∧ (.bytes ∉ es → t.fsBuf = s.fsBuf) ∧
    (.sync ∉ es → t.fsState = s.fsState ∧ t.fsLen = s.fsLen) ∧
    (.reassembler ∉ es → t.raState = s.raState ∧ t.raPart = s.raPart ∧ t.raSfn = s.raSfn) ∧
    (.table ∉ es →
      t.mask = s.mask ∧ t.statMsg = s.statMsg ∧ t.statNull = s.statNull ∧ t.statDrop = s.statDrop) ∧
    (.latch ∉ es → t.fatal = s.fatal) := by
  constructor
  · intro h
    exact ⟨h .crc, h .checksum, h .bits, h .cursor, h .mode, h .bytes, h .sync, h .reassembler, h .table, h .latch⟩
  · rintro ⟨hcrc, hck, hbits, hpos, hmode, hbytes, hsync, hra, htable, hlatch⟩ (_ | _)
    exacts [hcrc, hck, hbits, hpos, hmode, hbytes, hsync, hra, htable, hlatch]

/-- Raising a fatal condition writes the latch alone (R262). -/
theorem raiseFatal_writes (s : Session) (c : Byte) : Writes [.latch] s (raiseFatal s c).1 :=
  writes_iff.mpr (by simp)

/-! ### The cursor -/

theorem advance_writes (s : Session) (n : Nat) : Writes [.cursor] s (advance s n) := writes_iff.mpr (by simp)

theorem normalize_writes (s : Session) : Writes [.bits, .cursor] s (normalize s) := writes_iff.mpr (by simp)

theorem clearBits_writes (s : Session) : Writes [.bits, .cursor] s (clearBits s) := writes_iff.mpr (by simp [clearBits])

theorem boundedRead_writes {n : Nat} {s : Session} {ok : Reply} (h : Writes [.cursor] s ok.1) :
    Writes [.cursor] s (boundedRead n s ok).1 := by
  rcases boundedRead_cases n s ok with ⟨-, e⟩ | ⟨-, -, -, e⟩ | ⟨-, -, -, e⟩ <;> rw [e]
  · exact writes_refl _ s
  · exact writes_refl _ s
  · exact h

theorem skipOp_writes (n : Nat) (s : Session) : Writes [.cursor] s (skipOp n s).1 := by
  unfold skipOp
  split
  · exact writes_refl _ s
  · exact advance_writes s n

theorem appendOp_writes (C : Chip) (p : Bits) (s : Session) : Writes [.bits, .latch] s (appendOp C p s).1 := by
  unfold appendOp
  split
  · exact (raiseFatal_writes s _).mono (by decide)
  · exact writes_iff.mpr (by simp)

/-- BC.APPEND leaves the latch or sets it to 0x80 (R117). -/
theorem appendOp_fatal (C : Chip) (p : Bits) (s : Session) :
    (appendOp C p s).1.fatal = s.fatal ∨ (appendOp C p s).1.fatal = 0x80 := by
  unfold appendOp
  split
  · exact .inr rfl
  · exact .inl rfl

/-! ### The frame synchroniser -/

theorem cfgModeOp_writes (a : Byte) (s : Session) : Writes [.mode, .bytes, .sync] s (cfgModeOp a s).1 := by
  unfold cfgModeOp
  split
  · exact writes_iff.mpr (by simp)
  · exact writes_iff.mpr (by simp)
  · exact writes_refl _ s

theorem fsPushOp_writes (C : Chip) (b : Byte) (s : Session) : Writes [.bytes, .latch] s (fsPushOp C b s).1 := by
  unfold fsPushOp
  split
  · exact (raiseFatal_writes s _).mono (by decide)
  · exact writes_iff.mpr (by simp)

/-- FS.PUSH leaves the latch or sets it to 0x81 (R152). -/
theorem fsPushOp_fatal (C : Chip) (b : Byte) (s : Session) :
    (fsPushOp C b s).1.fatal = s.fatal ∨ (fsPushOp C b s).1.fatal = 0x81 := by
  unfold fsPushOp
  split
  · exact .inr rfl
  · exact .inl rfl

theorem fsStepOp_writes (C : Chip) (s : Session) : Writes [.bytes, .sync] s (fsStepOp C s).1 := by
  obtain ⟨buf, -, hcases⟩ := fsStepOp_cases C s
  rcases hcases with ⟨-, e⟩ | ⟨-, -, e⟩ | ⟨-, -, -, e⟩ | ⟨-, -, -, e⟩ <;> rw [e] <;>
    exact writes_iff.mpr (by simp)

/-! ### The decoder -/

/-- What `DrainFrame` leaves open: the bit buffer, the mask table and the counters. -/
theorem DrainFrame.writes {s t : Session} (f : DrainFrame s t) : Writes [.bits, .cursor, .table] s t :=
  writes_iff.mpr (by simp [f.crc, f.ckA, f.ckB, f.fsMode, f.fsBuf, f.fsState, f.fsLen, f.raState, f.raPart, f.raSfn,
    f.fatal])

theorem decHeadOp_ses (s : Session) : (decHeadOp s).1 = normalize s := by
  unfold decHeadOp
  dsimp only
  split <;> rfl

theorem decSt1Op_frame (s : Session) : DrainFrame s (decSt1Op s).1 := by
  unfold decSt1Op
  dsimp only
  split
  · exact normalize_frame s
  · exact normalize_frame s
  · split
    · split
      · exact normalize_frame s
      · exact (normalize_frame s).trans (applyST1_frame _ _ _ _)
    · exact normalize_frame s

/-! ### The reassembler -/

/-- The elements RA.FRAG may write. -/
abbrev raWrites : List Element := [.bits, .cursor, .reassembler, .table, .latch]

theorem raFinish_writes (d : Drained) : Writes raWrites d.1 (raFinish d).1 := by
  obtain ⟨t, e, evs⟩ := d
  rcases raFinish_cases t e evs with ⟨-, k⟩ | ⟨c, -, k⟩ | ⟨-, -, k⟩ | ⟨-, -, k⟩ <;> rw [k]
  · exact writes_iff.mpr (by simp)
  · exact writes_iff.mpr (by simp)
  · exact writes_iff.mpr (by simp [clearBits])
  · exact writes_refl _ t

/-- The drain and the end of RA.FRAG, from a session `t` made ready for them (R172). -/
theorem raFinish_drain_writes {C : Chip} {s t : Session} (evs : List Event) (h : Writes raWrites s t) :
    Writes raWrites s (raFinish (drain C t evs)).1 :=
  (h.trans ((drain_frame C t evs).writes.mono (by decide))).trans (raFinish_writes _)

theorem raStart_writes (C : Chip) (p : Bits) (s : Session) : Writes raWrites s (raStart C p s).1 := by
  have habandon : Writes raWrites s (abandon s).1 := (abandon_frame s).writes.mono (by decide)
  rcases raStart_cases C p s with ⟨-, e⟩ | ⟨-, hd, -, e⟩ | ⟨-, -, e⟩ <;> rw [e]
  · exact (raiseFatal_writes s _).mono (by decide)
  · exact raFinish_drain_writes _ (habandon.trans (writes_iff.mpr (by simp [started])))
  · exact habandon.trans (writes_iff.mpr (by simp [rejected, clearBits]))

theorem raContinue_writes (C : Chip) (p : Bits) (s : Session) : Writes raWrites s (raContinue C p s).1 := by
  rcases raContinue_cases C p s with ⟨-, e⟩ | ⟨-, -, e⟩ | ⟨-, -, e⟩ <;> rw [e]
  · exact writes_refl _ s
  · exact (raiseFatal_writes s _).mono (by decide)
  · exact raFinish_drain_writes _ (writes_iff.mpr (by simp [continued]))

theorem raFragOp_writes (C : Chip) (sf : Bool) (p : Bits) (s : Session) : Writes raWrites s (raFragOp C sf p s).1 := by
  cases sf
  · exact raContinue_writes C p s
  · exact raStart_writes C p s

/-- RA.FRAG leaves the latch or sets it to 0x80 (R172, R175). -/
theorem raFragOp_fatal (C : Chip) (sf : Bool) (p : Bits) (s : Session) :
    (raFragOp C sf p s).1.fatal = s.fatal ∨ (raFragOp C sf p s).1.fatal = 0x80 := by
  cases sf with
  | true =>
    by_cases hp : C.bbCap < p.length
    · exact .inr (congrArg (·.1.fatal) (raStart_too_long hp s))
    · exact .inl (raStart_within (not_lt.mp hp)).1
  | false =>
    rcases raContinue_cases C p s with ⟨-, e⟩ | ⟨-, -, e⟩ | ⟨-, -, e⟩
    · exact .inl (congrArg (·.1.fatal) e)
    · exact .inr (congrArg (·.1.fatal) e)
    · exact .inl ((congrArg (·.1.fatal) e).trans (raFinish_drain_answers C _ _).1)

/-! ### The pipeline -/

/-- PIPE.NEXT leaves the session FS.STEP leaves, or the one RA.FRAG then leaves (R235). -/
theorem pipeNextOp_ses (C : Chip) (s : Session) :
    (pipeNextOp C s).1 = (fsStepOp C s).1 ∨ ∃ sf p, (pipeNextOp C s).1 = (raFragOp C sf p (fsStepOp C s).1).1 := by
  rcases hr : fsStepOp C s with ⟨s1, r⟩
  by_cases hok : r.status = Status.ok
  · refine .inr ⟨(fragmentOf C s1.fsMode r).1, (fragmentOf C s1.fsMode r).2, ?_⟩
    rw [pipeNextOp_of_frame hr hok]
  · refine .inl ?_
    rw [pipeNextOp_of_no_frame hr hok]

theorem pipeNextOp_writes (C : Chip) (s : Session) : Writes (.bytes :: .sync :: raWrites) s (pipeNextOp C s).1 := by
  have hstep : Writes (.bytes :: .sync :: raWrites) s (fsStepOp C s).1 := (fsStepOp_writes C s).mono (by decide)
  rcases pipeNextOp_ses C s with e | ⟨sf, p, e⟩ <;> rw [e]
  · exact hstep
  · exact hstep.trans ((raFragOp_writes C sf p _).mono (by decide))

theorem pipeNextOp_fatal (C : Chip) (s : Session) :
    (pipeNextOp C s).1.fatal = s.fatal ∨ (pipeNextOp C s).1.fatal = 0x80 := by
  have hstep : (fsStepOp C s).1.fatal = s.fatal := fsStepOp_writes C s .latch (by decide)
  rcases pipeNextOp_ses C s with e | ⟨sf, p, e⟩ <;> rw [e]
  · exact .inl hstep
  · exact hstep ▸ raFragOp_fatal C sf p _

/-! ### Every command -/

/-- The elements each command may write. -/
def writeSet : Instr → List Element
  | .nop | .rdreg _ | .bcPeek _ | .bcPos | .bcRem | .crcGet | .crcCompute _ | .crcVerify _ | .cs8Get | .cs8Compute _
  | .maskRd _ _ | .rtcmEnc _ => []
  | .reset => [.crc, .checksum, .bits, .cursor, .mode, .bytes, .sync, .reassembler, .table, .latch]
  | .cfgMode _ => [.mode, .bytes, .sync]
  | .bcRdu _ | .bcRds _ | .bcSkip _ => [.cursor]
  | .bcAppend _ => [.bits, .latch]
  | .bcDiscard | .bcClear | .decHead => [.bits, .cursor]
  | .crcInit | .crcUpd _ => [.crc]
  | .cs8Init | .cs8Upd _ => [.checksum]
  | .fsPush _ => [.bytes, .latch]
  | .fsStep => [.bytes, .sync]
  | .raFrag _ _ => raWrites
  | .decSt1 | .decDrain => [.bits, .cursor, .table]
  | .pipeNext => .bytes :: .sync :: raWrites

/-- A session operation changes the elements of its write set alone. -/
theorem sessionOp_writes (C : Chip) (i : Instr) (s : Session) : Writes (writeSet i) s (sessionOp C i s).1 := by
  cases i with
  | nop | bcPos | bcRem | crcGet | crcCompute | crcVerify | cs8Get | cs8Compute => exact writes_refl _ s
  | rdreg a => exact (rdregOp_ses a s).symm ▸ writes_refl _ s
  | bcPeek n => exact (peekOp_ses n.toNat s).symm ▸ writes_refl _ s
  | maskRd i f => exact (maskRdOp_ses i.toNat f.toNat s).symm ▸ writes_refl _ s
  | rtcmEnc p => exact (rtcmEncOp_ses C p s).symm ▸ writes_refl _ s
  | reset => exact writes_iff.mpr (by simp [writeSet])
  | cfgMode a => exact cfgModeOp_writes a s
  | bcRdu n => exact boundedRead_writes (advance_writes s n.toNat)
  | bcRds n => exact boundedRead_writes (advance_writes s n.toNat)
  | bcSkip n => exact skipOp_writes n.toNat s
  | bcAppend p => exact appendOp_writes C p s
  | bcDiscard => exact normalize_writes s
  | bcClear => exact clearBits_writes s
  | crcInit | crcUpd => exact writes_iff.mpr (by simp [writeSet, sessionOp, crcInitOp, crcUpdOp])
  | cs8Init | cs8Upd => exact writes_iff.mpr (by simp [writeSet, sessionOp, cs8InitOp, cs8UpdOp])
  | fsPush b => exact fsPushOp_writes C b s
  | fsStep => exact fsStepOp_writes C s
  | raFrag sf p => exact raFragOp_writes C sf p s
  | decHead => exact (decHeadOp_ses s).symm ▸ normalize_writes s
  | decSt1 => exact (decSt1Op_frame s).writes
  | decDrain => exact (drain_frame C s []).writes
  | pipeNext => exact pipeNextOp_writes C s

/-- What a command leaves: what its session operation leaves, or, behind a set latch, the session it was given. -/
theorem exec_ses {i : Instr} {s t : State} (h : exec i s = .next t) :
    t.ses = (sessionOp Config.chip i s.ses).1 ∨ s.ses.fatal ≠ 0 ∧ ungated i = false ∧ t.ses = s.ses := by
  obtain ⟨r, hnext, hr⟩ := exec_cases i s
  rw [hnext] at h
  cases h
  rcases hr with rfl | ⟨hlatch, hgate, rfl⟩
  · exact .inl rfl
  · exact .inr ⟨hlatch, hgate, rfl⟩

theorem exec_writes {i : Instr} {s t : State} (h : exec i s = .next t) : Writes (writeSet i) s.ses t.ses := by
  rcases exec_ses h with e | ⟨-, -, e⟩ <;> rw [e]
  · exact sessionOp_writes Config.chip i s.ses
  · exact writes_refl _ s.ses

/-- While the latch is set only RESET changes any state (R45, R262). -/
theorem exec_latched {i : Instr} {s t : State} (h : exec i s = .next t) (hlatch : s.ses.fatal ≠ 0) (hi : i ≠ .reset) :
    t.ses = s.ses := by
  cases hgate : ungated i with
  | false =>
    rw [exec_blocked hgate hlatch] at h
    cases h
    rfl
  | true =>
    rw [exec_ungated hgate] at h
    cases h
    cases i with
    | nop => rfl
    | rdreg a => exact rdregOp_ses a s.ses
    | reset => exact absurd rfl hi
    | _ => cases hgate

/-! ### The write sets by opcode -/

/-- The opcodes R45 lists against each element. -/
def writers : Element → List Nat
  | .crc => [0x01, 0x20, 0x21]
  | .checksum => [0x01, 0x28, 0x29]
  | .bits => [0x01, 0x16, 0x17, 0x18, 0x50, 0x51, 0x52, 0x40, 0x61]
  | .cursor => [0x01, 0x11, 0x12, 0x13, 0x16, 0x17, 0x18, 0x50, 0x51, 0x52, 0x40, 0x61]
  | .mode => [0x01, 0x03]
  | .bytes => [0x01, 0x03, 0x30, 0x31, 0x61]
  | .sync => [0x01, 0x03, 0x31, 0x61]
  | .reassembler => [0x01, 0x40, 0x61]
  | .table => [0x01, 0x51, 0x52, 0x40, 0x61]
  | .latch => [0x01, 0x16, 0x40, 0x61, 0x30]

/-- The two ways to read R45, by command and by element, agree. -/
theorem opcode_mem_writers (i : Instr) : ∀ e ∈ writeSet i, opcode i ∈ writers e := by
  rw [opcode_eq]
  cases i <;> simp [writeSet, opNumber, writers]

/-- A command not listed against an element never changes it (R45). -/
theorem exec_same {i : Instr} {s t : State} (h : exec i s = .next t) (e : Element) (hop : opcode i ∉ writers e) :
    e.Same s.ses t.ses :=
  exec_writes h e fun hmem => hop (opcode_mem_writers i e hmem)

theorem opcode_eq_reset {i : Instr} : opcode i = 0x01 ↔ i = .reset := by
  rw [opcode_eq]
  cases i <;> simp [opNumber]

/-- The commands that put bits into the bit buffer leave the latch or set it to 0x80 (R267). -/
theorem exec_latch_of_bits {i : Instr} {s t : State} (h : exec i s = .next t) (hop : opcode i ∈ [0x16, 0x40, 0x61]) :
    t.ses.fatal = s.ses.fatal ∨ t.ses.fatal = 0x80 := by
  rw [opcode_eq] at hop
  rcases exec_ses h with e | ⟨-, -, e⟩ <;> rw [e]
  · cases i with
    | bcAppend p => exact appendOp_fatal Config.chip p s.ses
    | raFrag sf p => exact raFragOp_fatal Config.chip sf p s.ses
    | pipeNext => exact pipeNextOp_fatal Config.chip s.ses
    | _ => simp [opNumber] at hop
  · exact .inl rfl

/-- FS.PUSH leaves the latch or sets it to 0x81 (R267). -/
theorem exec_latch_of_byte {i : Instr} {s t : State} (h : exec i s = .next t) (hop : opcode i = 0x30) :
    t.ses.fatal = s.ses.fatal ∨ t.ses.fatal = 0x81 := by
  rw [opcode_eq] at hop
  rcases exec_ses h with e | ⟨-, -, e⟩ <;> rw [e]
  · cases i with
    | fsPush b => exact fsPushOp_fatal Config.chip b s.ses
    | _ => simp [opNumber] at hop
  · exact .inl rfl

theorem exec_reset_fatal {s t : State} (h : exec .reset s = .next t) : t.ses.fatal = 0 := by
  rw [exec_ungated rfl] at h
  cases h
  rfl

end Sys2Proof.Machine
end

section
/-!
SUPPORT. The register map: each register's bits are the number the statements write.
-/

namespace Sys2Proof.Machine

open Sys2Proof.Statements

theorem toNat_bne_zero {w : Nat} (x : BitVec w) : (x != 0).toNat = if x = 0 then 0 else 1 := by
  split
  · rename_i h; rw [h, bne_self_eq_false]; rfl
  · rename_i h; rw [bne_iff_ne.mpr h]; rfl

/-- STATUS as a number (R41). -/
theorem statusReg_toNat (s : Session) : (statusReg s).toNat =
    (if s.fatal = 0 then 0 else 1) + 2 * s.mask.valid.toNat + 4 * (raStateBit s.raState).toNat +
      8 * (fsModeBit s.fsMode).toNat + 16 * (fsStateCode s.fsState).toNat + 256 * s.fatal.toNat := by
  show BitVec.toNat (w := 8 + 1 + 3 + 1 + 1 + 1 + 1) (statusReg s) = _
  simp only [statusReg, toNat_append_add, BitVec.toNat_ofBool, toNat_bne_zero, BitVec.toNat_ofNat]
  omega

/-- The codes of the statements for `ra_state`, `fs_mode` and `fs_state` are those STATUS packs (R25, R26, R41). -/
theorem regNum_status (s : Session) : regNum s 0 = some (statusReg s).toNat := by
  rw [statusReg_toNat, regNum]
  cases s.raState <;> cases s.fsMode <;> cases s.fsState <;> rfl

/-- MASK_HDR as a number (R42). -/
theorem maskHdr_toNat (m : MaskTable) : (maskHdr m).toNat =
    if m.valid then
      m.iodssr.toNat + 2 ^ 4 * m.ngnss.toNat + 2 ^ 8 * m.mmi.toNat + 2 ^ 9 * m.ui.toNat + 2 ^ 13 * m.epoch.toNat
    else 0 := by
  unfold maskHdr
  split
  · show BitVec.toNat (w := 20 + 4 + 1 + 4 + 4) (m.epoch ++ m.ui ++ BitVec.ofBool m.mmi ++ m.ngnss ++ m.iodssr) = _
    simp only [toNat_append_add, BitVec.toNat_ofBool]
    omega
  · rfl

theorem raPart_le_of_raInv {s : Session} (h : s.RaInv) : s.raPart ≤ 5 := by
  obtain ⟨hidle, hacc⟩ := h
  cases hst : s.raState with
  | idle => rw [hidle hst]; exact Nat.zero_le 5
  | accumulating => exact (hacc hst).2

/-- A register's value keeps its number when it is extended to 64 bits (R40). -/
theorem map_toNat_setWidth {w n : Nat} (x : BitVec w) (hw : w ≤ 64) (hx : x.toNat = n) :
    (some (x.setWidth 64)).map BitVec.toNat = some n := by
  rw [Option.map_some, BitVec.toNat_setWidth_of_le hw, hx]

/-- The registers of R40 read as the numbers of the statements, where the invariants keep every count within its width
(R35). -/
theorem readReg_toNat {C : Chip} (hbb : C.bbCap < 2 ^ 32) (hfs : C.fsCap < 2 ^ 32) {s : Session} (h : Session.Inv C s)
    (a : Nat) : (readReg s a).map BitVec.toNat = regNum s a := by
  obtain ⟨hpos, hbits, hbytes, hra, -⟩ := h
  have hpart := raPart_le_of_raInv hra
  match a with
  | 0 => exact regNum_status s ▸ map_toNat_setWidth (statusReg s) (by decide) rfl
  | 1 => exact map_toNat_setWidth s.crc (by decide) rfl
  | 2 => exact map_toNat_setWidth (s.ckA ++ s.ckB) (by decide) (toNat_append_add _ _)
  | 3 => exact map_toNat_setWidth (BitVec.ofNat 32 s.bbPos) (by decide) (Nat.mod_eq_of_lt (by omega))
  | 4 => exact map_toNat_setWidth (BitVec.ofNat 32 s.bb.length) (by decide) (Nat.mod_eq_of_lt (by omega))
  | 5 => exact map_toNat_setWidth s.fsLen (by decide) rfl
  | 6 => exact map_toNat_setWidth (BitVec.ofNat 32 s.fsBuf.length) (by decide) (Nat.mod_eq_of_lt (by omega))
  | 7 =>
    have hnum : (s.raSfn ++ BitVec.ofNat 8 s.raPart).toNat = s.raSfn.toNat * 2 ^ 8 + s.raPart := by
      rw [toNat_append_add, BitVec.toNat_ofNat, Nat.mod_eq_of_lt (by omega)]
    exact map_toNat_setWidth _ (by decide) hnum
  | 8 => exact map_toNat_setWidth (maskHdr s.mask) (by decide) (maskHdr_toNat s.mask)
  | 9 => exact map_toNat_setWidth s.statMsg (by decide) rfl
  | 10 => exact map_toNat_setWidth s.statNull (by decide) rfl
  | 11 => exact map_toNat_setWidth s.statDrop (by decide) rfl
  | _ + 12 => rfl

end Sys2Proof.Machine
end

section
/-!
SUPPORT. The bits of a drain's events, counter by counter (R30, R207).
-/

namespace Sys2Proof.Machine

open Sys2Proof.Statements

/-- From `s` to `t` the mask table stays and each counter grows by the bits of its own events among `evs`. -/
structure Counted (s t : Session) (evs : List Event) : Prop where
  mask : t.mask = s.mask
  msg : t.statMsg = s.statMsg + BitVec.ofNat 32 (evs.map recordBits).sum
  null : t.statNull = s.statNull + BitVec.ofNat 32 (evs.map nullBits).sum
  drop : t.statDrop = s.statDrop + BitVec.ofNat 32 (evs.map errorBits).sum

/-- A counter that grows twice grows by the sum, modulo 2^32. -/
theorem count_append {f : Event → Nat} {xs ys : List Event} {a b c : BitVec 32}
    (hb : b = a + BitVec.ofNat 32 (xs.map f).sum) (hc : c = b + BitVec.ofNat 32 (ys.map f).sum) :
    c = a + BitVec.ofNat 32 ((xs ++ ys).map f).sum := by
  rw [hc, hb, List.map_append, List.sum_append, BitVec.ofNat_add, BitVec.add_assoc]

theorem Counted.append {s t u : Session} {xs ys : List Event} (h : Counted s t xs) (k : Counted t u ys) :
    Counted s u (xs ++ ys) :=
  ⟨k.mask.trans h.mask, count_append h.msg k.msg, count_append h.null k.null, count_append h.drop k.drop⟩

/-- The pass that ends a drain counts its last event, if it has one. -/
theorem drainPass_stop_counted {C : Chip} {s s' : Session} {e : DrainEnd} {last : List Event}
    (h : drainPass C s = .stop e s' last) : Counted s s' last := by
  cases e with
  | clean =>
    obtain ⟨-, rfl, rfl⟩ := drainPass_clean h
    constructor <;> simp [recordBits, nullBits, errorBits, clearBits]
  | needMore =>
    obtain ⟨rfl, rfl, -⟩ := drainPass_wait h
    constructor <;> simp
  | discarded c =>
    obtain ⟨-, -, rfl, rfl⟩ := drainPass_drop h
    constructor <;> simp [recordBits, nullBits, errorBits, clearBits]

/-- A pass that goes on and is no MASK_UPDATE counts its record. -/
theorem drainPass_go_counted {C : Chip} {s s' : Session} {ev : Event} (h : drainPass C s = .go s' ev)
    (hev : ∀ n, ev ≠ .maskUpdate n) : Counted s s' [ev] := by
  rcases drainPass_cases C s with ⟨-, k⟩ | ⟨-, k | ⟨c, k⟩ | ⟨_, _, n, -, -, -, k⟩ | ⟨_, _, _, -, -, -, -, k⟩⟩ <;>
    (rw [k] at h; cases h)
  · exact absurd rfl (hev n)
  · constructor <;> simp [recordBits, nullBits, errorBits, cutFront]

/-- A drain without MASK_UPDATE counts all its events. -/
theorem drain_counted (C : Chip) (s : Session) (h0 : s.bbPos = 0) :
    (∀ n, Event.maskUpdate n ∉ (drain C s []).2.2) → Counted s (drain C s []).1 (drain C s []).2.2 := by
  refine drain_induct_nil (C := C) (motive := fun s d => (∀ n, Event.maskUpdate n ∉ d.2.2) → Counted s d.1 d.2.2)
    ?stop ?go s h0
  case stop =>
    intro s e s' last _ h _
    exact drainPass_stop_counted h
  case go =>
    intro s s' ev s'' e evs _ h _ ih hno
    have hev : ∀ n, ev ≠ .maskUpdate n := fun n hn => hno n (hn ▸ List.mem_cons_self)
    exact (drainPass_go_counted h hev).append (ih fun n hn => hno n (List.mem_cons_of_mem ev hn))

end Sys2Proof.Machine
end

section
/-!
The statements on the state: reset, the invariants, who writes what, the register map, and the counters of a drain.
-/

namespace Sys2Proof.StateFamily

open Sys2Proof.Machine Sys2Proof.Statements

/-- Settles O14: a step of the machine is one with the default parameters, and it keeps the invariants command by command. -/
theorem stepKeepsInvariants : Obligations.StepKeepsInvariants := by
  intro s t hinv hstep
  rw [step_eq_stepFor] at hstep
  exact inv_stepFor hinv hstep

/-- Settles O16: the write set of each command, read by element; the codes of the latch by the commands that set it. -/
theorem writeSets : Obligations.WriteSets := by
  intro i s t h
  have same := exec_same h
  exact ⟨same .crc, same .checksum, same .bits, same .cursor, same .mode, same .bytes, same .sync, same .reassembler,
    same .table, same .latch, exec_latch_of_bits h, exec_latch_of_byte h,
    fun hop => exec_reset_fatal (opcode_eq_reset.mp hop ▸ h),
    fun hlatch hop => exec_latched h hlatch (mt opcode_eq_reset.mpr hop)⟩

/-- Settles O21: RDREG stands before no gate, and every register reads as its number. -/
theorem rdregReadsTheRegisterMap : Obligations.RdregReadsTheRegisterMap := by
  refine ⟨encodes_rdreg, fun a s hinv => ?_⟩
  have hrun : exec (.rdreg a) s = done s (rdregOp a s.ses).1 (rdregOp a s.ses).2 := exec_ungated rfl s
  rw [hrun, ← readReg_toNat (by decide) (by decide) hinv, rdregOp]
  cases readReg s.ses a.toNat with
  | none => rfl
  | some v =>
    show _ = done s s.ses { status := 0x00, value := BitVec.ofNat 64 v.toNat }
    rw [BitVec.ofNat_toNat, BitVec.setWidth_eq]
    rfl

/-- Settles O42: pass by pass, after the cut at the cursor, which no counter sees. -/
theorem drainCountsBits : Obligations.DrainCountsBits := by
  intro s ses r hf hrun hno
  rw [exec_eq_execFor, execFor_done _ _ hf, done_inj] at hrun
  obtain ⟨rfl, rfl⟩ := hrun
  obtain ⟨hmask, hmsg, hnull, hdrop⟩ := drain_counted Config.chip (normalize s.ses) rfl (drain_normalize _ s.ses _ ▸ hno)
  rw [drain_normalize] at hmask hmsg hnull hdrop
  exact ⟨hmask, hmsg, hnull, hdrop⟩

/-- Settles O12: the session operation of RESET, which no gate stands before. -/
theorem resetValues : Obligations.ResetValues :=
  ⟨encodes_reset, rfl, fun s => exec_ungated (i := .reset) rfl s⟩

/-- Settles O13: `inv_reset` for the default parameters. -/
theorem resetMeetsInvariants : Obligations.ResetMeetsInvariants := inv_reset Config.chip

end Sys2Proof.StateFamily
end

section
/-!
SUPPORT. An encoded instruction decodes to itself (R90, R91, R94), and running a list of instructions, on its own and from
the command port.
-/

namespace Sys2Proof.Machine

open Sys2Proof.Statements Sys2Proof.Laws.EncodeWhole

/-! ### Decoding an encoded instruction -/

/-- The command port delivers the encoding of every well-formed instruction whole (R91). -/
theorem encode_whole (i : Instr) : Statement i := by
  cases i with
  | bcAppend | raFrag => exact fun h => whole_bits rfl (of_decide_eq_true h)
  | crcCompute | crcVerify | cs8Compute | rtcmEnc => exact fun h => whole_bytes rfl (of_decide_eq_true h)
  | _ => exact fun _ => whole_none rfl

/-- The payload bits that the decoder reads from a bit payload's command are those it was made of (R91). -/
theorem take_packBits_ofNat {p : Bits} (hp : p.length ≤ maxPayload) :
    (bitsOf (packBits p)).take (BitVec.ofNat 16 p.length).toNat = p := by
  rw [BitVec.toNat_ofNat, Nat.mod_eq_of_lt (Nat.lt_succ_of_le hp), take_packBits]

theorem decodeOp_encode {i : Instr} (h : i.wellFormed = true) :
    decodeOp (encode i).word (encode i).payload = .ok i := by
  cases i with
  | bcAppend p =>
    simp only [encode, withBits, decodeOp, opOf_wordOf, kOf_wordOf, take_packBits_ofNat (of_decide_eq_true h)]
    rfl
  | raFrag sf p =>
    simp only [encode, withBits, decodeOp, opOf_wordOf, aOf_wordOf, kOf_wordOf, take_packBits_ofNat (of_decide_eq_true h)]
    cases sf <;> rfl
  | _ =>
    simp only [encode, bare, withA, withBytes, decodeOp, opOf_wordOf, aOf_wordOf, kOf_wordOf]
    rfl

theorem decode_encode {i : Instr} (h : i.wellFormed = true) : decode (encode i) = .ok i := by
  simp only [decode, decodeOp_encode h]
  exact if_pos (encode_whole i h)

/-! ### The command port -/

/-- What a command answers is decided by the session alone, whatever stands on the ports. -/
theorem exec_reply (i : Instr) (ses : Session) : ∃ r : Reply, ∀ s : State, s.ses = ses → exec i s = .next (s.reply r) := by
  by_cases hf : ses.fatal = 0
  · exact ⟨sessionOp Config.chip i ses, by rintro s rfl; exact exec_run i hf⟩
  · cases hi : ungated i with
    | true => exact ⟨sessionOp Config.chip i ses, by rintro s rfl; exact exec_ungated hi s⟩
    | false => exact ⟨answer ses ses.fatal, by rintro s rfl; exact exec_blocked hi hf⟩

theorem exec_cmds {i : Instr} {s t : State} (h : exec i s = .next t) : t.cmds = s.cmds := by
  obtain ⟨r, hr⟩ := exec_reply i s.ses
  rw [hr s rfl] at h
  cases h
  rfl

/-- A command does the same whatever commands are pending behind it. -/
theorem exec_withCmds {i : Instr} {s t : State} (h : exec i s = .next t) (cs : List Command) :
    exec i (s.withCmds cs) = .next (t.withCmds cs) := by
  obtain ⟨r, hr⟩ := exec_reply i s.ses
  rw [hr s rfl] at h
  cases h
  exact hr (s.withCmds cs) rfl

/-- A step on an encoded instruction is that instruction (R55), the commands behind it staying on the port. -/
theorem step_encode {i : Instr} (hi : i.wellFormed = true) {s t : State} (h : exec i s = .next t) (cs : List Command) :
    step (s.withCmds (encode i :: cs)) = .next (t.withCmds cs) :=
  (Scope.step_of_decode rfl (decode_encode hi)).trans (exec_withCmds h cs)

/-! ### Lists of instructions -/

theorem runBy_cons {run : Instr → State → Result} {i : Instr} {is : List Instr} {s t : State} :
    runBy run (i :: is) s = some t ↔ ∃ u, run i s = .next u ∧ runBy run is u = some t := by
  rw [runBy]
  cases run i s <;> simp

theorem runAll_cmds {is : List Instr} {s t : State} (h : runAll is s = some t) : t.cmds = s.cmds := by
  induction is generalizing s with
  | nil => cases h; rfl
  | cons i is ih =>
    obtain ⟨u, hexec, hrest⟩ := runBy_cons.mp h
    exact (ih hrest).trans (exec_cmds hexec)

theorem core_run_succ {M : Host.Core} {n : Nat} {s t : M.State} (h : M.step s = .next t) :
    M.run (n + 1) s = M.run n t := by
  simp only [Host.Core.run, h]

/-- The encodings of a list of instructions on the port run as the instructions do, one step each (R58); the commands
behind them stay pending. -/
theorem core_run_encodings {is : List Instr} (hwf : ∀ i ∈ is, i.wellFormed = true) {s t : State}
    (h : runAll is s = some t) (cs : List Command) :
    Host.Core.run Sys2Proof.core is.length (s.withCmds (is.map encode ++ cs)) = .next (t.withCmds cs) := by
  induction is generalizing s with
  | nil => cases h; rfl
  | cons i is ih =>
    obtain ⟨hi, his⟩ := List.forall_mem_cons.mp hwf
    obtain ⟨u, hexec, hrest⟩ := runBy_cons.mp h
    have hstep : Sys2Proof.core.step (s.withCmds (encode i :: (is.map encode ++ cs))) =
        .next (u.withCmds (is.map encode ++ cs)) := step_encode hi hexec _
    exact (core_run_succ hstep).trans (ih his hrest)

/-! ### Commands without side effect -/

/-- Where no element may be written the session is the same: the elements of R45 are the whole session. -/
theorem eq_of_writes_nil {s t : Session} (h : Writes [] s t) : t = s := by
  rw [writes_iff] at h
  simp only [List.not_mem_nil, not_false_eq_true, forall_const] at h
  cases s
  cases t
  simpa only [Session.mk.injEq, and_assoc] using h

/-- The commands that R55 lists as without side effect have an empty write set. -/
theorem writeSet_of_reader {i : Instr}
    (hop : opcode i ∈ [0x00, 0x02, 0x10, 0x14, 0x15, 0x22, 0x23, 0x24, 0x2A, 0x2B, 0x53, 0x60]) : writeSet i = [] := by
  rw [opcode_eq] at hop
  revert hop
  cases i <;> simp [opNumber, writeSet]

end Sys2Proof.Machine
end

section
/-!
The statements on a command as a whole: it answers, commands run in the order issued, and the readers change nothing.
-/

namespace Sys2Proof.CommandFamily

open Sys2Proof.Machine Sys2Proof.Statements

/-- Settles O6: by induction on the list (`core_run_encodings`), since no instruction reads or changes the command port. -/
theorem commandsRunInOrder : Obligations.CommandsRunInOrder := by
  intro is s t hwf h
  have hcmds : t.withCmds s.cmds = t := by rw [← runAll_cmds h]; rfl
  exact (core_run_encodings hwf h s.cmds).trans (by rw [hcmds])

/-- Settles O17: the readers' write sets are empty. -/
theorem readersChangeNothing : Obligations.ReadersChangeNothing :=
  fun _ _ _ h hop => eq_of_writes_nil (writeSet_of_reader hop ▸ exec_writes h)

/-- Settles O5: an instruction ends in a reply, its session operation's or the latch's. -/
theorem everyCommandAnswers : Obligations.EveryCommandAnswers := by
  intro i s
  obtain ⟨r, hr⟩ := exec_reply i s.ses
  exact ⟨r.1, r.2, hr s rfl⟩

end Sys2Proof.CommandFamily
end

section
/-!
SUPPORT. What the decoder can answer, said once; the payload a word states; and the opcode table, a lemma per row
(R90, R91, R94, R95).
-/

namespace Sys2Proof.Machine

open Sys2Proof.Statements Sys2Proof.Laws.EncodeWhole

/-! ### The fields of a word as numbers -/

theorem opOf_toNat (w : Word) : (opOf w).toNat = w.toNat / 2 ^ 24 := by
  rw [opOf, BitVec.extractLsb'_toNat, Nat.shiftRight_eq_div_pow]
  omega

theorem kOf_toNat (w : Word) : (kOf w).toNat = w.toNat % 2 ^ 16 := by
  rw [kOf, BitVec.extractLsb'_toNat, Nat.shiftRight_zero]

/-- The payload bytes a word states, by its opcode alone (R91, R94). -/
theorem payloadLength_eq_paid (w : Word) : payloadLength w = paid w := by
  rw [payloadLength, kOf_toNat, payloadForm, opOf_toNat, paid]
  split
  case h_7 => simp_all [PayloadForm.byteCount]
  all_goals rename_i h; rw [h]; rfl

theorem payloadLength_le (w : Word) : payloadLength w ≤ maxPayload := by
  have hk := (kOf w).isLt
  unfold payloadLength maxPayload
  cases payloadForm (opOf w) <;> simp only [PayloadForm.byteCount] <;> omega

/-! ### What the decoder answers -/

theorem opNumber_mem_assigned (i : Instr) : opNumber i ∈ assigned := by
  cases i <;> simp only [opNumber] <;> decide

/-- The decoder's table (R94, R95): an instruction of the word's opcode, or ILLEGAL_COMMAND where no row has it. -/
theorem decodeOp_cases (w : Word) (b : Bytes) :
    (∃ i, decodeOp w b = .ok i ∧ opNumber i = (opOf w).toNat ∧ (b.length ≤ maxPayload → i.wellFormed = true)) ∨
    ((opOf w).toNat ∉ assigned ∧ decodeOp w b = .error (.illegalCommand (opOf w))) := by
  have hbits : ((bitsOf b).take (kOf w).toNat).length ≤ maxPayload :=
    (List.length_take_le _ _).trans (Nat.le_of_lt_succ (kOf w).isLt)
  unfold decodeOp
  dsimp only
  split
  case h_32 => exact .inr ⟨by simp_all [assigned], rfl⟩
  all_goals
    rename_i hop
    refine .inl ⟨_, rfl, hop.symm, ?_⟩
    simp only [Instr.wellFormed, decide_eq_true_eq, hbits, implies_true, imp_self]

theorem decode_eq_ok {c : Command} {i : Instr} :
    decode c = .ok i ↔ decodeOp c.word c.payload = .ok i ∧ c.payload.length = payloadLength c.word := by
  unfold decode
  cases decodeOp c.word c.payload with
  | error e => simp
  | ok j => by_cases h : c.payload.length = payloadLength c.word <;> simp [h]

/-- An unassigned opcode is illegal whatever payload came with it (R95, log entry 5). -/
theorem decode_of_unassigned {c : Command} (h : c.word.toNat / 2 ^ 24 ∉ assigned) :
    decode c = .error (.illegalCommand (opOf c.word)) := by
  rw [← opOf_toNat] at h
  rcases decodeOp_cases c.word c.payload with ⟨i, -, hop, -⟩ | ⟨-, he⟩
  · exact absurd (hop ▸ opNumber_mem_assigned i) h
  · simp only [decode, he]

/-- An assigned opcode is judged by its payload: whole, or not (R91, log entry 4). -/
theorem decode_of_assigned {c : Command} (h : c.word.toNat / 2 ^ 24 ∈ assigned) :
    ∃ i, decode c = if c.payload.length = paid c.word then .ok i
      else .error (.payloadMismatch (paid c.word) c.payload.length) := by
  rw [← opOf_toNat] at h
  rcases decodeOp_cases c.word c.payload with ⟨i, hi, -⟩ | ⟨hn, -⟩
  · exact ⟨i, by simp only [decode, hi, payloadLength_eq_paid]⟩
  · exact absurd h hn

theorem decode_eq_mismatch_iff {c : Command} :
    (∃ m n, decode c = .error (.payloadMismatch m n)) ↔
      c.word.toNat / 2 ^ 24 ∈ assigned ∧ c.payload.length ≠ paid c.word := by
  by_cases h : c.word.toNat / 2 ^ 24 ∈ assigned
  · obtain ⟨i, hi⟩ := decode_of_assigned h
    by_cases hl : c.payload.length = paid c.word <;> simp [hi, h, hl, -Nat.reducePow]
  · simp [decode_of_unassigned h, h, -Nat.reducePow]

/-! ### The rows of the opcode table -/

/-- A row without payload, for an opcode written as a number. -/
theorem encodes_row {op : Nat} {f : Byte → BitVec 16 → Instr} (hop : op < 256 := by decide)
    (hform : payloadForm (BitVec.ofNat 8 op) = .none := by rfl)
    (hdec : ∀ a k, decodeOp (wordOf (BitVec.ofNat 8 op) a k) [] = .ok (f a k) := by
      intro a k; simp only [decodeOp, opOf_wordOf, aOf_wordOf, kOf_wordOf]; rfl) : Encodes op f :=
  encodes_of_decodeOp hop hform hdec

/-- A row with a byte payload. -/
theorem encodesBytes_row {op : Nat} {f : Byte → Bytes → Instr} (hop : op < 256 := by decide)
    (hform : payloadForm (BitVec.ofNat 8 op) = .bytes := by rfl)
    (hdec : ∀ a k b, decodeOp (wordOf (BitVec.ofNat 8 op) a k) b = .ok (f a b) := by
      intro a k b; simp only [decodeOp, opOf_wordOf]; rfl) : EncodesBytes op f := by
  intro a k b hb
  rw [wordOf_ofNat hop, decode_eq_ok, payloadLength, opOf_wordOf, kOf_wordOf, hform]
  exact ⟨hdec a k b, hb⟩

/-- A row with a bit payload: its first `k` bits (R91). -/
theorem encodesBits_row {op : Nat} {f : Byte → Bits → Instr} (hop : op < 256 := by decide)
    (hform : payloadForm (BitVec.ofNat 8 op) = .bits := by rfl)
    (hdec : ∀ a k b, decodeOp (wordOf (BitVec.ofNat 8 op) a k) b = .ok (f a ((bitsOf b).take k.toNat))) :
    EncodesBits op f := by
  intro a k b hb
  rw [wordOf_ofNat hop, decode_eq_ok, payloadLength, opOf_wordOf, kOf_wordOf, hform,
    firstBits_eq_take (by omega)]
  exact ⟨hdec a k b, hb⟩

theorem encodes_nop : Encodes 0x00 (fun _ _ => .nop) := encodes_row
theorem encodes_cfgMode : Encodes 0x03 (fun a _ => .cfgMode a) := encodes_row
theorem encodes_bcPeek : Encodes 0x10 (fun a _ => .bcPeek a) := encodes_row
theorem encodes_bcRdu : Encodes 0x11 (fun a _ => .bcRdu a) := encodes_row
theorem encodes_bcRds : Encodes 0x12 (fun a _ => .bcRds a) := encodes_row
theorem encodes_bcSkip : Encodes 0x13 (fun _ k => .bcSkip k) := encodes_row
theorem encodes_bcPos : Encodes 0x14 (fun _ _ => .bcPos) := encodes_row
theorem encodes_bcRem : Encodes 0x15 (fun _ _ => .bcRem) := encodes_row
theorem encodes_bcAppend : EncodesBits 0x16 (fun _ p => .bcAppend p) :=
  encodesBits_row (hdec := fun a k b => by simp only [decodeOp, opOf_wordOf, kOf_wordOf]; rfl)
theorem encodes_bcDiscard : Encodes 0x17 (fun _ _ => .bcDiscard) := encodes_row
theorem encodes_bcClear : Encodes 0x18 (fun _ _ => .bcClear) := encodes_row
theorem encodes_crcInit : Encodes 0x20 (fun _ _ => .crcInit) := encodes_row
theorem encodes_crcUpd : Encodes 0x21 (fun a _ => .crcUpd a) := encodes_row
theorem encodes_crcGet : Encodes 0x22 (fun _ _ => .crcGet) := encodes_row
theorem encodes_crcCompute : EncodesBytes 0x23 (fun _ b => .crcCompute b) := encodesBytes_row
theorem encodes_crcVerify : EncodesBytes 0x24 (fun _ b => .crcVerify b) := encodesBytes_row
theorem encodes_cs8Init : Encodes 0x28 (fun _ _ => .cs8Init) := encodes_row
theorem encodes_cs8Upd : Encodes 0x29 (fun a _ => .cs8Upd a) := encodes_row
theorem encodes_cs8Get : Encodes 0x2A (fun _ _ => .cs8Get) := encodes_row
theorem encodes_cs8Compute : EncodesBytes 0x2B (fun _ b => .cs8Compute b) := encodesBytes_row
theorem encodes_fsPush : Encodes 0x30 (fun a _ => .fsPush a) := encodes_row
theorem encodes_fsStep : Encodes 0x31 (fun _ _ => .fsStep) := encodes_row
theorem encodes_decHead : Encodes 0x50 (fun _ _ => .decHead) := encodes_row
theorem encodes_decSt1 : Encodes 0x51 (fun _ _ => .decSt1) := encodes_row
theorem encodes_decDrain : Encodes 0x52 (fun _ _ => .decDrain) := encodes_row
theorem encodes_maskRd : Encodes 0x53 (fun a k => .maskRd a k) := encodes_row
theorem encodes_rtcmEnc : EncodesBytes 0x60 (fun _ b => .rtcmEnc b) := encodesBytes_row
theorem encodes_pipeNext : Encodes 0x61 (fun _ _ => .pipeNext) := encodes_row

/-- Of RA.FRAG's `a` only bit 0 is read (R172). -/
theorem encodes_raFrag : EncodesBits 0x40 (fun a p => .raFrag (a.toNat % 2 == 1) p) :=
  encodesBits_row (hdec := fun a k b => by
    have hbit : a.getLsbD 0 = (a.toNat % 2 == 1) := by rw [BitVec.getLsbD, Nat.testBit_zero]; rfl
    simp only [decodeOp, opOf_wordOf, aOf_wordOf, kOf_wordOf, ← hbit]; rfl)

/-! ### Steps by what the decoder answers -/

theorem illegalCommand_eq (s : State) :
    illegalCommand s = done s s.ses { status := if s.ses.fatal = 0 then 0x0A else s.ses.fatal } := by
  by_cases h : s.ses.fatal = 0
  · rw [illegalCommand, gated_run _ h, if_pos h]; rfl
  · rw [illegalCommand, gated_blocked _ h, if_neg h]; rfl

/-- A step goes on, or it faults; it faults only where the decoder finds the oldest command's payload not whole. -/
theorem step_cases (s : State) :
    (∃ t, step s = .next t) ∧ (∀ c rest, s.cmds = c :: rest → ¬ ∃ m n, decode c = .error (.payloadMismatch m n)) ∨
    step s = .fault .payloadMismatch ∧
      ∃ c rest, s.cmds = c :: rest ∧ ∃ m n, decode c = .error (.payloadMismatch m n) := by
  rw [step_eq_stepFor]
  rcases stepFor_cases Config.chip s with
    ⟨hc, e⟩ | ⟨c, rest, hc, ⟨i, hd, e⟩ | ⟨op, hd, e⟩ | ⟨m, n, hd, e⟩⟩
  · exact .inl ⟨⟨s, e⟩, by simp [hc]⟩
  · obtain ⟨r, hr, -⟩ := execFor_cases Config.chip i (s.withCmds rest)
    exact .inl ⟨⟨_, e.trans hr⟩, by simp [hc, hd]⟩
  · exact .inl ⟨⟨_, e.trans (illegalCommand_eq _)⟩, by simp [hc, hd]⟩
  · exact .inr ⟨e, c, rest, hc, m, n, hd⟩

end Sys2Proof.Machine
end

section
/-!
SUPPORT. Bit strings read field by field: what is read where a known front begins, numbers written as bits, counts of ones.
-/

namespace Sys2Proof.Machine

open Sys2Proof.Statements

/-! ### Reading at an offset behind which the bits are known -/

theorem drop_behind {s x t : Bits} {p n : Nat} (h : s.drop p = x ++ t) (hx : x.length = n) : s.drop (p + n) = t := by
  rw [← List.drop_drop, h, List.drop_left' hx]

theorem slice_of_drop {s x t : Bits} {p n : Nat} (h : s.drop p = x ++ t) (hx : x.length = n) : slice s p n = x := by
  rw [slice, h, List.take_left' hx]

theorem flag_of_drop {s t : Bits} {p : Nat} {b : Bool} (h : s.drop p = [b] ++ t) : flag s p = b := by
  have hp : s[p]? = some b := by
    have := congrArg (·[0]?) h
    simpa using this
  rw [flag, List.getD_eq_getElem?_getD, hp, Option.getD_some]

/-! ### Numbers written as bits -/

@[simp] theorem length_bitsN (n v : Nat) : (bitsN n v).length = n := by simp [bitsN]

theorem bitsN_succ (n v : Nat) : bitsN (n + 1) v = v.testBit n :: bitsN n v := by
  simp only [bitsN, List.range_succ_eq_map, List.map_cons, List.map_map, Nat.add_sub_cancel, Nat.sub_zero]
  congr 1
  refine List.map_congr_left fun i _ => ?_
  simp only [Function.comp]
  congr 1
  omega

/-- A number comes back from its bits, first bit most significant (R12). -/
theorem bitsToNat_bitsN (n v : Nat) : bitsToNat (bitsN n v) = v % 2 ^ n := by
  induction n with
  | zero => simp [bitsN, bitsToNat, Nat.mod_one]
  | succ n ih =>
    have hbit : bitsToNat [v.testBit n] = (v.testBit n).toNat := by simp [bitsToNat]
    rw [bitsN_succ, ← List.singleton_append, bitsToNat_append, hbit, ih, length_bitsN, Nat.toNat_testBit, Nat.mod_pow_succ]
    ring

theorem uval_of_drop {s t : Bits} {p n v : Nat} (h : s.drop p = bitsN n v ++ t) : uval s p n = v % 2 ^ n := by
  rw [uval, slice_of_drop h (length_bitsN n v), bitsToNat_bitsN]

theorem field_of_drop {s t : Bits} {p n : Nat} {x : BitVec n} (h : s.drop p = bitsN n x.toNat ++ t) :
    field s p n = x := by
  rw [field, uval_of_drop h, Nat.mod_eq_of_lt x.isLt, BitVec.ofNat_toNat, BitVec.setWidth_eq]

/-! ### Counts of ones -/

/-- The one bits as the statements add them are those the machine counts (R15). -/
theorem popcount_eq_ones {w : Nat} (v : BitVec w) : popcount v = ones v := by
  have key : ∀ n, (List.range n).countP (fun i => v.getLsbD i) = ∑ i ∈ Finset.range n, (v.getLsbD i).toNat := by
    intro n
    induction n with
    | zero => rfl
    | succ n ih =>
      rw [List.range_succ, List.countP_append, ih, Finset.sum_range_succ, List.countP_singleton]
      cases v.getLsbD n <;> rfl
  exact key w

end Sys2Proof.Machine
end

section
/-!
SUPPORT. ST1 messages: the decoder reads back the head and the entries that are on the wire (R83, R86, R196).
-/

namespace Sys2Proof.Machine

open Sys2Proof.Statements

/-! ### One entry -/

theorem length_entryBits (e : MaskEntry) : (entryBits e).length = 61 + if e.cma then e.cell.length else 0 := by
  simp only [entryBits, List.length_append, length_bitsN, List.length_singleton, apply_ite List.length, List.length_nil]

/-- An entry without a cell mask on the wire stands for one of all ones (R197). -/
theorem cell_eq_replicate {e : MaskEntry} (h : Sendable e) (hcma : e.cma = false) :
    e.cell = List.replicate (ones e.sat * ones e.sig) true := by
  obtain ⟨-, hlen, hones⟩ := h
  exact List.eq_replicate_iff.mpr ⟨hlen, hones hcma⟩

/-- What the decoder reads of an entry that stands at an offset: its four fixed fields and its cell mask (R86). -/
structure EntryAt (s : Bits) (o : Nat) (e : MaskEntry) (t : Bits) : Prop where
  sys : uval s o 4 = e.sys.toNat
  cells : cellCount s o = ones e.sat * ones e.sig
  cma : flag s (o + 60) = e.cma
  entry : ∀ cell, entryAt s o cell = { e with cell := cell }
  mask : s.drop (o + 61) = (if e.cma then e.cell else []) ++ t
  long : o + 61 + (if e.cma then e.cell.length else 0) + t.length = s.length

theorem entryAt_of_drop {s t : Bits} {o : Nat} {e : MaskEntry} (h : s.drop o = entryBits e ++ t) : EntryAt s o e t := by
  have hsys : s.drop o = bitsN 4 e.sys.toNat ++ (bitsN 40 e.sat.toNat ++ (bitsN 16 e.sig.toNat ++ ([e.cma] ++
      ((if e.cma then e.cell else []) ++ t)))) := by
    rw [h, entryBits]
    simp only [List.append_assoc]
  have hsat := drop_behind hsys (length_bitsN 4 _)
  have hsig := drop_behind hsat (length_bitsN 40 _)
  have hcma := drop_behind hsig (length_bitsN 16 _)
  have hcell := drop_behind hcma List.length_singleton
  have fsys : field s o 4 = e.sys := field_of_drop hsys
  have fsat : field s (o + 4) 40 = e.sat := field_of_drop hsat
  have fsig : field s (o + 44) 16 = e.sig := field_of_drop hsig
  have fcma : flag s (o + 60) = e.cma := flag_of_drop hcma
  refine ⟨by rw [← field_toNat, fsys], by rw [cellCount, fsat, fsig, popcount_eq_ones, popcount_eq_ones], fcma,
    fun cell => by rw [entryAt, fsys, fsat, fsig, fcma], hcell, ?_⟩
  have hlen := congrArg List.length h
  rw [List.length_drop, List.length_append, length_entryBits] at hlen
  omega

/-! ### The entries -/

/-- One turn of the loop of `ST1At` on an entry that an ST1 can send: it is read back whole (R196, R197). -/
theorem st1Entries_cons {s t : Bits} {o : Nat} {e : MaskEntry} (he : Sendable e) (h : s.drop o = entryBits e ++ t)
    (n : Nat) : st1Entries s (n + 1) o =
      (st1Entries s n (o + (entryBits e).length)).map fun r => (e :: r.1, r.2) := by
  obtain ⟨hsys, hcells, hcma, hentry, hmask, hlong⟩ := entryAt_of_drop h
  have ⟨h7, hlen, _⟩ := he
  have hcell : (if e.cma then slice s (o + 61) (ones e.sat * ones e.sig)
      else List.replicate (ones e.sat * ones e.sig) true) = e.cell := by
    cases hc : e.cma with
    | true =>
      rw [hc, if_pos rfl] at hmask
      rw [if_pos rfl, slice_of_drop hmask hlen]
    | false => rw [if_neg Bool.false_ne_true, ← cell_eq_replicate he hc]
  have hend : (if e.cma then o + 61 + ones e.sat * ones e.sig else o + 61) = o + (entryBits e).length := by
    rw [length_entryBits, ← hlen]
    split <;> omega
  have hroom : ¬ (e.cma && decide (s.length < o + 61 + ones e.sat * ones e.sig)) = true := by
    cases hc : e.cma with
    | true =>
      rw [hc, if_pos rfl] at hlong
      simp only [Bool.true_and, decide_eq_true_eq]
      omega
    | false => simp
  rw [st1Entries, if_neg (by simp only [Config.gnssEntryBits]; omega), hsys, if_neg (by omega), hcma, hcells]
  dsimp only [Config.gnssEntryBits]
  rw [if_neg hroom, hcell, hend, hentry]
  cases st1Entries s n (o + (entryBits e).length) <;> rfl

/-- The loop of `ST1At` reads back the entries on the wire, whatever it is to read behind them (R196). -/
theorem st1Entries_flatMap {s t : Bits} {o : Nat} {es : List MaskEntry} (hes : ∀ e ∈ es, Sendable e)
    (h : s.drop o = es.flatMap entryBits ++ t) (n : Nat) : st1Entries s (es.length + n) o =
      (st1Entries s n (o + (es.flatMap entryBits).length)).map fun r => (es ++ r.1, r.2) := by
  induction es generalizing o with
  | nil =>
    rw [List.length_nil, Nat.zero_add, List.flatMap_nil, List.length_nil, Nat.add_zero]
    cases st1Entries s n o <;> rfl
  | cons e es ih =>
    obtain ⟨he, hes⟩ := List.forall_mem_cons.mp hes
    rw [List.flatMap_cons, List.append_assoc] at h
    rw [List.length_cons, Nat.succ_add, st1Entries_cons he h, ih hes (drop_behind h rfl), List.flatMap_cons,
      List.length_append, Nat.add_assoc]
    cases st1Entries s n (o + ((entryBits e).length + (es.flatMap entryBits).length)) <;> rfl

/-! ### The head -/

/-- The head of an ST1 with the given fields (R83). -/
def st1Head (epoch : BitVec 20) (ui : BitVec 4) (mmi : Bool) (iod : BitVec 4) : Head where
  msgnum := 4073
  subtype := 1
  epoch := epoch
  ui := ui
  mmi := mmi
  iodssr := iod
  len := 45

section

variable {epoch : BitVec 20} {ui : BitVec 4} {mmi : Bool} {iod : BitVec 4}

@[simp] theorem length_st1Front (ng : Nat) : (st1Front epoch ui mmi iod ng).length = 49 := by simp [st1Front]

/-- The decoder reads back the head of an ST1, and the count of systems behind it (R83, R191, R196). -/
theorem headAt_st1Front (ng : Nat) (t : Bits) :
    headAt (st1Front epoch ui mmi iod ng ++ t) = .head (st1Head epoch ui mmi iod) ∧
      uval (st1Front epoch ui mmi iod ng ++ t) 45 4 = ng % 2 ^ 4 := by
  generalize hs : st1Front epoch ui mmi iod ng ++ t = s
  have hlong : 49 ≤ s.length := by simp [← hs]
  have hnum : s.drop 0 = bitsN 12 (4073#12).toNat ++ (bitsN 4 (1#4).toNat ++ (bitsN 20 epoch.toNat ++
      (bitsN 4 ui.toNat ++ ([mmi] ++ (bitsN 4 iod.toNat ++ (bitsN 4 ng ++ t)))))) := by
    rw [← hs, st1Front]
    simp only [List.append_assoc]
    rfl
  have hsub := drop_behind hnum (length_bitsN 12 _)
  have hepoch := drop_behind hsub (length_bitsN 4 _)
  have hui := drop_behind hepoch (length_bitsN 20 _)
  have hmmi := drop_behind hui (length_bitsN 4 _)
  have hiod := drop_behind hmmi List.length_singleton
  have hng := drop_behind hiod (length_bitsN 4 _)
  have vsub : uval s 12 4 = 1 := uval_of_drop hsub
  refine ⟨?_, uval_of_drop hng⟩
  rw [headAt_of_16 (by omega) (uval_of_drop hnum), vsub, if_neg (by decide), if_neg (by decide), if_pos rfl,
    if_neg (by omega), headST1, field_of_drop hnum, field_of_drop hsub, field_of_drop hepoch, field_of_drop hui,
    flag_of_drop hmmi, field_of_drop hiod]
  rfl

/-! ### The message -/

/-- `ST1At` reads back the entries of an ST1 message, and ends behind its last bit (R196). -/
theorem st1At_st1Bits {es : List MaskEntry} (hng : es.length ≤ 15) (hes : ∀ e ∈ es, Sendable e) (t : Bits) :
    st1At (st1Bits epoch ui mmi iod es ++ t) = .ok (es, (st1Bits epoch ui mmi iod es).length) := by
  have hdrop : (st1Bits epoch ui mmi iod es ++ t).drop 49 = es.flatMap entryBits ++ t := by
    rw [st1Bits, List.append_assoc]
    exact List.drop_left' (length_st1Front _)
  have hcount : uval (st1Bits epoch ui mmi iod es ++ t) 45 4 = es.length := by
    rw [st1Bits, List.append_assoc, (headAt_st1Front _ _).2]
    omega
  have hread := st1Entries_flatMap hes hdrop 0
  rw [st1At, if_neg (by simp [st1Bits]), hcount]
  refine hread.trans ?_
  simp [st1Entries, Except.map, st1Bits]

/-- The length of an ST1 message (R86). -/
theorem length_st1Bits {es : List MaskEntry} (hes : ∀ e ∈ es, Sendable e) : (st1Bits epoch ui mmi iod es).length =
    49 + (es.map fun e => 61 + (if e.cma then ones e.sat * ones e.sig else 0)).sum := by
  rw [st1Bits, List.length_append, length_st1Front, List.length_flatMap]
  congr 2
  refine List.map_congr_left fun e he => ?_
  obtain ⟨-, hlen, -⟩ := hes e he
  rw [length_entryBits, hlen]

end

/-- DEC.ST1 where the unread bits begin with an ST1 message (R202). -/
theorem decSt1Op_ok {s : Session} {hd : Head} {es : List MaskEntry} {n : Nat} (hhd : headAt (normalize s).bb = .head hd)
    (hsub : hd.subtype = 1) (hst : st1At (normalize s).bb = .ok (es, n)) : decSt1Op s =
      (applyST1 (normalize s) hd es n, { status := 0x00, value := BitVec.ofNat 64 n, events := [.maskUpdate n] }) := by
  unfold decSt1Op
  dsimp only
  rw [hhd]
  dsimp only
  rw [if_pos hsub, hst]
  rfl

end Sys2Proof.Machine
end

section
/-!
SUPPORT. The event word as a number.
-/

namespace Sys2Proof.Machine

/-- The event word's four fields, each in its place (R93). -/
theorem eventWord_toNat {e : Event} (h : eventBits e < 2 ^ 32) : (eventWord e).toNat =
    2 ^ 32 * eventBits e + 2 ^ 16 * (eventStale e).toNat + 2 ^ 8 * (eventCode e).toNat + (eventKind e).toNat := by
  show BitVec.toNat (w := 32 + 15 + 1 + 8 + 8) (eventWord e) = _
  simp only [eventWord, toNat_append_add, BitVec.toNat_ofBool, BitVec.toNat_ofNat, Nat.mod_eq_of_lt h]
  omega

end Sys2Proof.Machine
end

section
/-!
The statements on encodings: the opcode table, decoding and encoding, what a step makes of a word, ST1 messages, and the
event word.
-/

namespace Sys2Proof.EncodingFamily

open Sys2Proof.Machine Sys2Proof.Statements

/-- Settles O8: `decode_encode`, arm by arm of the encoder. -/
theorem decodeOfEncode : Obligations.DecodeOfEncode := fun _ h => decode_encode h

/-- Settles O37: head, count and entries are read back field by field (`headAt_st1Front`, `st1At_st1Bits`), and DEC.ST1
applies what was read. -/
theorem st1DecodesWhatWasEncoded : Obligations.St1DecodesWhatWasEncoded := by
  refine ⟨encodes_decSt1, fun s epoch ui mmi iod es rest hf hng hes hunread => ⟨length_st1Bits hes, ?_⟩⟩
  have hbb : (normalize s.ses).bb = st1Bits epoch ui mmi iod es ++ rest := hunread
  have hhead : headAt (normalize s.ses).bb = .head (st1Head epoch ui mmi iod) := by
    rw [hbb, st1Bits, List.append_assoc]
    exact (headAt_st1Front _ _).1
  have hrest : (normalize s.ses).bb.drop (st1Bits epoch ui mmi iod es).length = rest := by
    rw [hbb, List.drop_left]
  rw [exec_eq_execFor, execFor_done _ _ hf, sessionOp, decSt1Op_ok hhead rfl (hbb ▸ st1At_st1Bits hng hes rest), applyST1,
    cutFront, hrest]
  rfl

/-- Settles O3: the decoder answers ILLEGAL_COMMAND, and so does the step, behind the gate. -/
theorem unassignedOpcodeIsIllegal : Obligations.UnassignedOpcodeIsIllegal := by
  intro s c rest hc hop
  have hstep : step s = illegalCommand (s.withCmds rest) := by
    simp only [step, stepBy, hc, decode_of_unassigned hop]
  exact hstep.trans (illegalCommand_eq _)

/-- Settles O4: a step faults where the decoder finds the payload not whole, and goes on everywhere else. -/
theorem stepFaultsOnlyOnBrokenPayload : Obligations.StepFaultsOnlyOnBrokenPayload := by
  intro s
  rcases step_cases s with ⟨⟨t, ht⟩, hwhole⟩ | ⟨hfault, c, rest, hc, hbroken⟩
  · refine ⟨by simp [ht], fun f => ⟨by simp [ht], ?_⟩⟩
    rintro ⟨c, rest, hc, hbroken⟩
    exact absurd (decode_eq_mismatch_iff.mpr hbroken) (hwhole c rest hc)
  · refine ⟨by simp [hfault], fun f => ⟨fun _ => ⟨c, rest, hc, decode_eq_mismatch_iff.mp hbroken⟩, fun _ => ?_⟩⟩
    cases f
    exact hfault

/-- Settles O7: row by row, and `decode_of_unassigned` for the opcodes that no row has. -/
theorem opcodeTable : Obligations.OpcodeTable := by
  refine ⟨encodes_nop, encodes_reset, encodes_rdreg, encodes_cfgMode, encodes_bcPeek, encodes_bcRdu, encodes_bcRds,
    encodes_bcSkip, encodes_bcPos, encodes_bcRem, encodes_bcAppend, encodes_bcDiscard, encodes_bcClear, encodes_crcInit,
    encodes_crcUpd, encodes_crcGet, encodes_crcCompute, encodes_crcVerify, encodes_cs8Init, encodes_cs8Upd,
    encodes_cs8Get, encodes_cs8Compute, encodes_fsPush, encodes_fsStep, encodes_raFrag, encodes_decHead, encodes_decSt1,
    encodes_decDrain, encodes_maskRd, encodes_rtcmEnc, encodes_pipeNext, fun w b hop => ?_⟩
  rw [decode_of_unassigned hop, ← opOf_toNat, BitVec.ofNat_toNat, BitVec.setWidth_eq]

/-- Settles O9: every row of the decoder's table gives an instruction of its own opcode, and a whole payload is short
enough to be well-formed. -/
theorem decodedIsWellFormed : Obligations.DecodedIsWellFormed := by
  intro c i h
  obtain ⟨hdec, hlen⟩ := decode_eq_ok.mp h
  rcases decodeOp_cases c.word c.payload with ⟨j, hj, hop, hwf⟩ | ⟨-, he⟩
  · obtain rfl : j = i := Except.ok.inj (hj.symm.trans hdec)
    exact ⟨hwf (hlen ▸ payloadLength_le c.word), by rw [opcode_eq, hop, opOf_toNat],
      hlen.trans (payloadLength_eq_paid c.word)⟩
  · rw [he] at hdec
    cases hdec

/-- Settles O55: each kind of event, read off `eventWord_toNat`. -/
theorem eventWord : Obligations.EventWord := by
  intro n st stale rec c hn
  refine ⟨eventWord_toNat (e := .maskUpdate n) hn, ?_, eventWord_toNat (e := .error c n) hn,
    eventWord_toNat (e := .cleanEnd n) hn, eventWord_toNat (e := .partOverflow n) hn, eventWord_toNat (e := .abandon n) hn⟩
  rw [eventWord_toNat (e := .record st stale n rec) hn, eventCode, BitVec.toNat_setWidth_of_le (by decide)]
  rfl

/-- Settles O10, by evaluation of the decoder on each word. -/
theorem programWordsDecode : Obligations.ProgramWordsDecode := ⟨rfl, rfl, rfl, rfl, rfl, rfl⟩

/-- Settles O11: the fetched command stands at the front of the port, where the step takes it. -/
theorem fetchedWordRuns : Obligations.FetchedWordRuns := by
  intro s nbits w i h
  have hdec : decode (commandOfBits nbits w) = .ok i := by
    unfold decodeTableWord at h
    cases hd : decode (commandOfBits nbits w) with
    | ok j => rw [hd] at h; exact congrArg _ (Option.some.inj h)
    | error e => rw [hd] at h; cases h
  exact Scope.step_of_decode rfl hdec

end Sys2Proof.EncodingFamily
end

section
/-!
SUPPORT. What CFG.MODE does to a session, said once.
-/

namespace Sys2Proof.Machine

/-- CFG.MODE by cases on its operand (R103): modes 0 and 1 are one write, every other operand is illegal. -/
theorem cfgModeOp_eq (a : Byte) (s : Session) : cfgModeOp a s =
    if a.toNat > 1 then answer s Status.illegalOperand
    else answer { s with
      fsMode := if a.toNat = 0 then .rtcm3 else .l6
      fsBuf := []
      fsState := .searchingSync
      fsLen := 0 } Status.ok := by
  unfold cfgModeOp
  split
  case h_1 h0 => rw [h0]; rfl
  case h_2 h1 => rw [h1]; rfl
  case h_3 h0 h1 =>
    have : a.toNat ≠ 0 := h0
    have : a.toNat ≠ 1 := h1
    rw [if_pos (by omega)]

end Sys2Proof.Machine
end

section
/-!
The statements on the system commands: NOP and CFG.MODE.
-/

namespace Sys2Proof.SystemFamily

open Sys2Proof.Machine Sys2Proof.Statements

/-- Settles O20: NOP stands before no gate. -/
theorem nopAnswersOk : Obligations.NopAnswersOk :=
  ⟨encodes_nop, fun s => exec_ungated (i := .nop) rfl s⟩

/-- Settles O22: with the latch clear CFG.MODE is its session operation, whose two kinds of operand are read off. -/
theorem cfgModeSetsModeAndEmptiesBytes : Obligations.CfgModeSetsModeAndEmptiesBytes := by
  refine ⟨encodes_cfgMode, fun a s hf => ?_⟩
  rw [exec_eq_execFor, execFor_done _ _ hf, sessionOp, cfgModeOp_eq]
  split <;> rfl

end Sys2Proof.SystemFamily
end

section
/-!
SUPPORT. What the bit cursor's commands answer, said once: the reads by what their bound check finds, what a failure
leaves, and the reads of widths that fit.
-/

namespace Sys2Proof.Machine

open Sys2Proof.Statements

/-- With the latch clear the machine answers with the command's session operation. -/
theorem exec_done (i : Instr) {s : State} (h : s.ses.fatal = 0) :
    exec i s = done s (sessionOp Config.chip i s.ses).1 (sessionOp Config.chip i s.ses).2 := exec_run i h

/-! ### The bound check -/

section
variable {n : Nat} {s : Session}

theorem boundedRead_illegal (ok : Reply) (hn : n = 0 ∨ n > 64) : boundedRead n s ok = answer s Status.illegalOperand :=
  if_pos hn

theorem boundedRead_short (ok : Reply) (hn : ¬(n = 0 ∨ n > 64)) (hrem : n > remBits s) :
    boundedRead n s ok = answer s Status.needMoreData := (if_neg hn).trans (if_pos hrem)

theorem boundedRead_fits (ok : Reply) (hn : ¬(n = 0 ∨ n > 64)) (hrem : ¬n > remBits s) : boundedRead n s ok = ok :=
  (if_neg hn).trans (if_neg hrem)

end

/-- The three reads differ only behind the bound check (R111 to R113). -/
theorem sessionOp_read {a : Byte} {i : Instr} (hi : i ∈ [Instr.bcPeek a, .bcRdu a, .bcRds a]) (C : Chip) (s : Session) :
    ∃ ok, sessionOp C i s = boundedRead a.toNat s ok := by
  simp only [List.mem_cons, List.not_mem_nil, or_false] at hi
  rcases hi with rfl | rfl | rfl
  · exact ⟨_, rfl⟩
  · exact ⟨_, rfl⟩
  · exact ⟨_, rfl⟩

section
variable {a : Byte} {i : Instr} {s : State}

/-- A width outside 1 to 64 is illegal in every read, whatever the buffer holds. -/
theorem exec_read_illegal (hf : s.ses.fatal = 0) (hi : i ∈ [Instr.bcPeek a, .bcRdu a, .bcRds a])
    (hn : a.toNat = 0 ∨ a.toNat > 64) : exec i s = done s s.ses { status := 0x0B } := by
  obtain ⟨ok, hok⟩ := sessionOp_read hi Config.chip s.ses
  rw [exec_done i hf, hok, boundedRead_illegal ok hn]
  rfl

/-- Every read of more bits than are left fails. -/
theorem exec_read_short (hf : s.ses.fatal = 0) (hi : i ∈ [Instr.bcPeek a, .bcRdu a, .bcRds a])
    (hn : ¬(a.toNat = 0 ∨ a.toNat > 64)) (hrem : a.toNat > s.ses.bb.length - s.ses.bbPos) :
    exec i s = done s s.ses { status := 0x01 } := by
  obtain ⟨ok, hok⟩ := sessionOp_read hi Config.chip s.ses
  rw [exec_done i hf, hok, boundedRead_short ok hn hrem]
  rfl

end

/-- BC.PEEK answers what BC.RDU does (R120 (b)): they differ only in the session left. -/
theorem peekOp_response (n : Nat) (s : Session) : (peekOp n s).2 = (rduOp n s).2 := by
  by_cases hn : n = 0 ∨ n > 64
  · rw [peekOp, rduOp, boundedRead_illegal _ hn, boundedRead_illegal _ hn]
  · by_cases hrem : n > remBits s
    · rw [peekOp, rduOp, boundedRead_short _ hn hrem, boundedRead_short _ hn hrem]
    · rw [peekOp, rduOp, boundedRead_fits _ hn hrem, boundedRead_fits _ hn hrem]; rfl

/-! ### Failures -/

/-- What R120 (c) asks of a reply to a command on `s`: any status but OK is one of the two failures and leaves `s`. -/
def FailsWhole (s : Session) (r : Reply) : Prop :=
  r.2.status ≠ Status.ok → (r.2.status = Status.needMoreData ∨ r.2.status = Status.illegalOperand) ∧ r.1 = s

theorem boundedRead_failsWhole (n : Nat) (s : Session) {ok : Reply} (hok : ok.2.status = Status.ok) :
    FailsWhole s (boundedRead n s ok) := by
  intro hne
  rcases boundedRead_cases n s ok with ⟨-, e⟩ | ⟨-, -, -, e⟩ | ⟨-, -, -, e⟩ <;> rw [e] at hne ⊢
  · exact ⟨.inr rfl, rfl⟩
  · exact ⟨.inl rfl, rfl⟩
  · exact absurd hok hne

theorem skipOp_failsWhole (n : Nat) (s : Session) : FailsWhole s (skipOp n s) := by
  unfold skipOp
  split
  · exact fun _ => ⟨.inl rfl, rfl⟩
  · exact fun hne => absurd rfl hne

/-- The cursor's moving commands and BC.PEEK fail whole. -/
theorem sessionOp_failsWhole {i : Instr} (hop : opcode i ∈ [0x10, 0x11, 0x12, 0x13]) (C : Chip) (s : Session) :
    FailsWhole s (sessionOp C i s) := by
  rw [opcode_eq] at hop
  cases i with
  | bcPeek a | bcRdu a | bcRds a => exact boundedRead_failsWhole _ s rfl
  | bcSkip n => exact skipOp_failsWhole _ s
  | _ => simp [opNumber] at hop

/-! ### Reads that fit -/

/-- The machine's value is the sum of R12 where the bits are present. -/
theorem U_eq_uval {s : Bits} {p n : Nat} (h : p + n ≤ s.length) : U s p n = uval s p n := (uval_eq_sum h).symm

theorem advance_add (s : Session) (m n : Nat) : advance (advance s m) n = advance s (m + n) := by
  simp only [advance, Nat.add_assoc]

/-- BC.RDU of a width that fits returns its bits and moves behind them. -/
theorem runAll_rdu {a : Byte} {s : State} (hf : s.ses.fatal = 0) (h1 : 1 ≤ a.toNat) (h64 : a.toNat ≤ 64)
    (hlen : s.ses.bbPos + a.toNat ≤ s.ses.bb.length) :
    runAll [.bcRdu a] s = some (s.reply (answerValue (advance s.ses a.toNat)
      (BitVec.ofNat 64 (uval s.ses.bb s.ses.bbPos a.toNat)))) := by
  refine runBy_cons.mpr ⟨_, ?_, rfl⟩
  rw [exec_run _ hf, sessionOp, rduOp, boundedRead_fits _ (by omega) (by unfold remBits; omega)]

/-- R120 (a): the values split by `uval_add`, and two moves of the cursor are one. -/
theorem rdu_split {s : State} (hf : s.ses.fatal = 0) {a b c : Byte} (ha : 1 ≤ a.toNat) (hb : 1 ≤ b.toNat)
    (hc : c.toNat = a.toNat + b.toNat) (h64 : c.toNat ≤ 64) (hlen : s.ses.bbPos + c.toNat ≤ s.ses.bb.length) :
    ∃ t1 t2 t3 v1 v2 v3, runAll [.bcRdu a] s = some t1 ∧ runAll [.bcRdu b] t1 = some t2 ∧
      runAll [.bcRdu c] s = some t3 ∧ t1.resps.head? = some { status := 0x00, value := BitVec.ofNat 64 v1 } ∧
      t2.resps.head? = some { status := 0x00, value := BitVec.ofNat 64 v2 } ∧
      t3.resps.head? = some { status := 0x00, value := BitVec.ofNat 64 v3 } ∧
      v1 < 2 ^ a.toNat ∧ v2 < 2 ^ b.toNat ∧ v3 = v1 * 2 ^ b.toNat + v2 ∧ v3 < 2 ^ 64 ∧ t2.ses = t3.ses := by
  have hmoved : (advance s.ses a.toNat).bbPos + b.toNat ≤ (advance s.ses a.toNat).bb.length := by
    rw [advance_bbPos, advance_bb]; omega
  refine ⟨_, _, _, _, _, _, runAll_rdu hf ha (by omega) (by omega), runAll_rdu hf hb (by omega) hmoved,
    runAll_rdu hf (by omega) h64 hlen, rfl, rfl, rfl, uval_lt _ _ _, uval_lt _ _ _, ?_, ?_, ?_⟩
  · rw [hc]
    exact uval_add (by omega)
  · exact (uval_lt _ _ _).trans_le (Nat.pow_le_pow_right (by omega) h64)
  · rw [hc]
    exact advance_add _ _ _

end Sys2Proof.Machine
end

section
/-!
The statements on the bit cursor: the bounded reads, the cursor's laws, and the commands that move, fill and empty the
buffer.
-/

namespace Sys2Proof.CursorFamily

open Sys2Proof.Machine Sys2Proof.Statements

/-- Settles O23: the two failures are the bound check's, the same for the three reads; behind it each read is its reply. -/
theorem boundedReads : Obligations.BoundedReads := by
  refine ⟨encodes_bcPeek, encodes_bcRdu, encodes_bcRds, fun a s hf => ?_⟩
  intro n v moved
  split
  case isTrue hn => exact fun i hi => exec_read_illegal hf hi hn
  case isFalse hn =>
    split
    case isTrue hrem => exact fun i hi => exec_read_short hf hi hn hrem
    case isFalse hrem =>
      have hv : v = uval s.ses.bb s.ses.bbPos n := U_eq_uval (by omega)
      refine ⟨hv ▸ uval_lt _ _ _, ?_, ?_, ?_⟩
      · rw [exec_done _ hf, sessionOp, peekOp, boundedRead_fits _ hn hrem, hv]; rfl
      · rw [exec_done _ hf, sessionOp, rduOp, boundedRead_fits _ hn hrem, hv]; rfl
      · rw [exec_done _ hf, sessionOp, rdsOp, boundedRead_fits _ hn hrem, hv]; rfl

/-- Settles O24: (a) is `rdu_split`, (b) and (c) hold of the session operations, (d) is a read one bit too wide. -/
theorem cursorLaws : Obligations.CursorLaws := by
  intro s hf hpos
  refine ⟨?split, ?peek, ?failure, ?truncated, s.ses.bbPos, remBits s.ses, exec_done _ hf, exec_done _ hf, ?sum⟩
  case split => exact fun _ _ _ ha hb hc h64 hlen => rdu_split hf ha hb hc h64 hlen
  case peek =>
    intro a ses r h
    rw [exec_done _ hf, done_inj] at h
    obtain ⟨-, rfl⟩ := h
    exact (exec_done _ hf).trans (done_inj.mpr ⟨peekOp_ses _ _, peekOp_response _ _⟩)
  case failure =>
    intro i ses r hop h hne
    rw [exec_done _ hf, done_inj] at h
    obtain ⟨rfl, rfl⟩ := h
    exact sessionOp_failsWhole hop _ _ hne
  case truncated => exact fun a h1 h64 hrem => exec_read_short (a := a) hf (by simp) (by omega) (by omega)
  case sum => exact Nat.add_sub_cancel' hpos

/-- Settles O25: the session operations, BC.SKIP by its bound. -/
theorem skipPosAndRem : Obligations.SkipPosAndRem := by
  refine ⟨encodes_bcSkip, encodes_bcPos, encodes_bcRem, fun s hf => ⟨fun n => ?_, exec_done _ hf, exec_done _ hf⟩⟩
  rw [exec_done _ hf, sessionOp, skipOp, remBits]
  split <;> rfl

/-- Settles O26: the session operations, BC.APPEND by the capacity test. -/
theorem appendDiscardAndClear : Obligations.AppendDiscardAndClear := by
  refine ⟨encodes_bcAppend, encodes_bcDiscard, encodes_bcClear,
    fun s hf => ⟨fun p => ?_, exec_done _ hf, exec_done _ hf⟩⟩
  rw [exec_done _ hf, sessionOp, appendOp, show Config.chip.bbCap = 16384 from rfl]
  split <;> rfl

end Sys2Proof.CursorFamily
end

section
/-!
SUPPORT. Integrity: which trailer brings the CRC to 0, both checksums in the statements' numbers, and runs that feed a
string byte by byte.
-/

namespace Sys2Proof.Machine

open Sys2Proof.Statements

/-! ### The trailer of a CRC -/

/-- A shift with a generator whose bit 0 is set loses nothing: that bit says whether the top bit left. -/
theorem crcShift_eq_zero {poly : BitVec 25} (hodd : poly.getLsbD 0 = true) {c : BitVec 24}
    (h : crcShift poly c = 0#24) : c = 0#24 := by
  rw [crcShift_eq] at h
  cases hmsb : c.msb with
  | true =>
    have hbit := congrArg (·.getLsbD 0) h
    rw [BitVec.getLsbD_eq_getElem (by decide)] at hodd
    simp [hmsb, hodd] at hbit
  | false =>
    have hlt := BitVec.msb_eq_false_iff_two_mul_lt.mp hmsb
    have hnum := congrArg BitVec.toNat h
    simp only [hmsb, Bool.false_eq_true, if_false, BitVec.xor_zero, BitVec.toNat_shiftLeft,
      BitVec.toNat_ofNat, Nat.shiftLeft_eq] at hnum
    apply BitVec.eq_of_toNat_eq
    rw [BitVec.toNat_ofNat]
    omega

theorem crcShift_injective {poly : BitVec 25} (hodd : poly.getLsbD 0 = true) : Function.Injective (crcShift poly) := by
  intro c d h
  refine BitVec.xor_eq_zero_iff.mp (crcShift_eq_zero hodd ?_)
  rw [crcShift_xor, h, BitVec.xor_self]

theorem crcShifts_injective {poly : BitVec 25} (hodd : poly.getLsbD 0 = true) (n : Nat) :
    Function.Injective (crcShifts poly n) := by
  induction n with
  | zero => exact fun _ _ h => h
  | succ n ih => exact ih.comp (crcShift_injective hodd)

theorem crcStep_injective {poly : BitVec 25} (hodd : poly.getLsbD 0 = true) (b : Byte) :
    Function.Injective (crcStep poly · b) := by
  intro c d h
  dsimp only at h
  rw [crcStep_eq_bitwise, crcStep_eq_bitwise] at h
  exact (BitVec.xor_left_inj _).mp (crcShifts_injective hodd 8 h)

theorem foldl_crcStep_injective {poly : BitVec 25} (hodd : poly.getLsbD 0 = true) (b : Bytes) :
    Function.Injective (b.foldl (crcStep poly)) := by
  induction b with
  | nil => exact fun _ _ h => h
  | cons x b ih => exact ih.comp (crcStep_injective hodd x)

/-- Fed with its own top byte, a CRC only moves up. -/
theorem crcStep_top (poly : BitVec 25) (c : BitVec 24) : crcStep poly c (c.extractLsb' 16 8) = c <<< 8 := by
  have htab : crcTab poly 0 = 0 := by
    rw [crcTab, crcStepBitwise, crcShifts_of_lt _ _ _ (by decide)]
    rfl
  rw [crcStep, BitVec.xor_self]
  exact (congrArg (c <<< 8 ^^^ ·) htab).trans BitVec.xor_zero

/-- A shift by a byte moves every byte of a CRC one place up. -/
theorem extractLsb'_shiftLeft_byte (c : BitVec 24) {i : Nat} (hi : i ≤ 8) :
    (c <<< 8).extractLsb' (i + 8) 8 = c.extractLsb' i 8 := by
  apply BitVec.eq_of_getLsbD_eq
  intro j hj
  have hindex : i + 8 + j - 8 = i + j := by omega
  simp only [BitVec.getLsbD_extractLsb', BitVec.getLsbD_shiftLeft, hindex]
  simp [show i + 8 + j < 24 by omega, show ¬i + 8 + j < 8 by omega]

/-- A CRC followed by its own three bytes is 0, whatever the generator. -/
theorem foldl_crcStep_bytes24 (poly : BitVec 25) (c : BitVec 24) : (bytes24 c).foldl (crcStep poly) c = 0 := by
  have hmid : c.extractLsb' 8 8 = (c <<< 8).extractLsb' 16 8 :=
    (extractLsb'_shiftLeft_byte c (i := 8) (by decide)).symm
  have hlow : c.extractLsb' 0 8 = (c <<< 8 <<< 8).extractLsb' 16 8 := by
    rw [extractLsb'_shiftLeft_byte (c <<< 8) (i := 8) (by decide)]
    exact (extractLsb'_shiftLeft_byte c (i := 0) (by decide)).symm
  simp only [bytes24, List.foldl_cons, List.foldl_nil]
  rw [crcStep_top, hmid, crcStep_top, hlow, crcStep_top, ← BitVec.shiftLeft_add, ← BitVec.shiftLeft_add]
  exact BitVec.shiftLeft_eq_zero (by decide)

theorem length_append_bytes24 (b : Bytes) (c : BitVec 24) : (b ++ bytes24 c).length = b.length + 3 :=
  List.length_append

/-- `be24` reads back what `bytes24` wrote (R13, R74). -/
theorem be24_bytes24 (b : Bytes) (c : BitVec 24) : be24 (b ++ bytes24 c) b.length = c := by
  apply BitVec.eq_of_toNat_eq
  have hc := c.isLt
  rw [be24_toNat, bytes24_eq_trailer, be]
  simp [trailer]
  omega

/-- A string of three bytes or more ends in the trailer of some CRC. -/
theorem exists_eq_append_bytes24 {f : Bytes} (h : 3 ≤ f.length) : ∃ b c, f = b ++ bytes24 c := by
  have hlen : (f.drop (f.length - 3)).length = 3 := by rw [List.length_drop]; omega
  obtain ⟨x, y, z, hxyz⟩ := List.length_eq_three.mp hlen
  have htrailer : bytes24 (x ++ y ++ z) = [x, y, z] := by
    rw [bytes24_eq_trailer]
    show trailer (BitVec.toNat (w := 8 + 8 + 8) _) = _
    simp only [toNat_append_add, trailer, List.cons.injEq, and_true]
    have hx := x.isLt
    have hy := y.isLt
    have hz := z.isLt
    refine ⟨?_, ?_, ?_⟩ <;> apply BitVec.eq_of_toNat_eq <;> rw [BitVec.toNat_ofNat] <;> omega
  exact ⟨f.take (f.length - 3), x ++ y ++ z, by rw [htrailer, ← hxyz, List.take_append_drop]⟩

theorem crc24q_append (C : Chip) (a b : Bytes) : crc24q C (a ++ b) = b.foldl (crcStep C.crcPoly) (crc24q C a) :=
  List.foldl_append

/-- The round-trip law (R138), whatever the parameters. -/
theorem crcVerdict_append_bytes24 (C : Chip) (b : Bytes) : crcVerdict C (b ++ bytes24 (crc24q C b)) = true := by
  rw [crcVerdict, length_append_bytes24, Nat.add_sub_cancel, List.take_left, be24_bytes24]
  simp

/-- Where the generator has its bit 0, the trailer is right exactly if the CRC of the whole frame is 0 (R137). -/
theorem crc24q_eq_be24_iff {C : Chip} (hodd : C.crcPoly.getLsbD 0 = true) {f : Bytes} (h : 3 ≤ f.length) :
    crc24q C (f.take (f.length - 3)) = be24 f (f.length - 3) ↔ crc24q C f = 0 := by
  obtain ⟨b, c, rfl⟩ := exists_eq_append_bytes24 h
  rw [length_append_bytes24, Nat.add_sub_cancel, List.take_left, be24_bytes24, crc24q_append,
    ← foldl_crcStep_bytes24 C.crcPoly c, (foldl_crcStep_injective hodd _).eq_iff]

/-! ### The default generator -/

theorem crcOf_eq_crcIn (b : Bytes) : crcOf b = crcIn Config.chip b := rfl

theorem crcOf_eq (b : Bytes) : crcOf b = (crc24q Config.chip b).toNat :=
  (crcOf_eq_crcIn b).trans (crc24q_toNat rfl b).symm

/-! ### The double accumulator -/

/-- The two accumulators as the numbers of R143. -/
theorem sums_eq (b : Bytes) : sums b = ((cs8 b).1.toNat, (cs8 b).2.toNat) :=
  List.foldl_hom (init := (0, 0)) (fun ck : Byte × Byte => (ck.1.toNat, ck.2.toNat)) fun ck v => by
    simp only [cs8Step, BitVec.toNat_add]

theorem cs8Response_eq (ck : Byte × Byte) : cs8Response ck =
    { status := 0x00, value := BitVec.ofNat 64 (ck.1.toNat * 256 + ck.2.toNat), data := .bytes [ck.1, ck.2] } := by
  have hvalue : (ck.1 ++ ck.2).setWidth 64 = BitVec.ofNat 64 (ck.1.toNat * 256 + ck.2.toNat) := by
    rw [← BitVec.ofNat_toNat, toNat_append_add]
    rfl
  rw [cs8Response, hvalue]
  rfl

/-! ### Feeding a string byte by byte -/

/-- A command that takes one byte and updates `a` in the session `put a`, run on every byte of a string. -/
theorem runAll_foldl {α : Type} {f : Byte → Instr} {put : α → Session} {upd : α → Byte → α}
    (hlatch : ∀ a, (put a).fatal = 0) (hupd : ∀ a b, (sessionOp Config.chip (f b) (put a)).1 = put (upd a b))
    (b : Bytes) {s : State} {a : α} (hs : s.ses = put a) :
    ∃ t, runAll (b.map f) s = some t ∧ t.ses = put (b.foldl upd a) := by
  induction b generalizing s a with
  | nil => exact ⟨s, rfl, hs⟩
  | cons x b ih =>
    have hnext : (s.reply (sessionOp Config.chip (f x) s.ses)).ses = put (upd a x) := by
      rw [State.reply_ses, hs, hupd]
    obtain ⟨t, ht, hses⟩ := ih hnext
    exact ⟨t, runBy_cons.mpr ⟨_, exec_run _ (by rw [hs, hlatch]), ht⟩, hses⟩

/-- CRC.INIT and CRC.UPD on every byte leave the one-shot CRC in the register (R136). -/
theorem runAll_crcUpd (b : Bytes) {s : State} (hf : s.ses.fatal = 0) :
    ∃ t, runAll (.crcInit :: b.map .crcUpd) s = some t ∧ t.ses = { s.ses with crc := crc24q Config.chip b } := by
  obtain ⟨t, ht, hses⟩ := runAll_foldl (f := .crcUpd) (put := fun c => { s.ses with crc := c }) (fun _ => hf)
    (fun _ _ => rfl) b (s := s.reply (sessionOp Config.chip .crcInit s.ses)) rfl
  exact ⟨t, runBy_cons.mpr ⟨_, exec_run _ hf, ht⟩, hses⟩

/-- CS8.INIT and CS8.UPD on every byte leave the one-shot checksum in the registers (R143). -/
theorem runAll_cs8Upd (b : Bytes) {s : State} (hf : s.ses.fatal = 0) :
    ∃ t, runAll (.cs8Init :: b.map .cs8Upd) s = some t ∧
      t.ses = { s.ses with ckA := (cs8 b).1, ckB := (cs8 b).2 } := by
  obtain ⟨t, ht, hses⟩ := runAll_foldl (f := .cs8Upd) (put := fun ck => { s.ses with ckA := ck.1, ckB := ck.2 })
    (fun _ => hf) (fun _ _ => rfl) b (s := s.reply (sessionOp Config.chip .cs8Init s.ses)) (a := (0, 0)) rfl
  exact ⟨t, runBy_cons.mpr ⟨_, exec_run _ hf, ht⟩, hses⟩

end Sys2Proof.Machine
end

section
/-!
The statements on integrity: CRC24Q in its table and bitwise forms, streaming and one-shot, and the 8-bit checksum.
-/

namespace Sys2Proof.IntegrityFamily

open Sys2Proof.Machine Sys2Proof.Statements

/-- Settles O27: the shifts are linear, so that the table is entered with the top byte alone (`crcStep_eq_bitwise`). -/
theorem crcTableFormIsBitwiseForm : Obligations.CrcTableFormIsBitwiseForm :=
  fun _ c b hp => crcStep_toNat hp c b

/-- Settles O28: the session operations, `Step` by its bitwise form. -/
theorem streamingCrc : Obligations.StreamingCrc := by
  refine ⟨encodes_crcInit, encodes_crcUpd, encodes_crcGet, fun s hf => ⟨exec_done _ hf, fun b => ?_, ?_⟩⟩
  · have hstep : crcByte 0x1864CFB s.ses.crc.toNat b.toNat = (crcStep Config.chip.crcPoly s.ses.crc b).toNat :=
      (crcStep_toNat (poly := Config.chip.crcPoly) rfl s.ses.crc b).symm
    rw [hstep, BitVec.ofNat_toNat, BitVec.setWidth_eq]
    exact ⟨BitVec.isLt _, exec_done _ hf⟩
  · rw [exec_done _ hf, ← crcResponse_eq]
    rfl

/-- Settles O29: the answers are those of `checksumsInEveryInstance` for the default parameters; the streaming form is a
fold over the same step, and the verdict by 0 is `crc24q_eq_be24_iff`. -/
theorem oneShotCrc : Obligations.OneShotCrc := by
  refine ⟨encodes_crcCompute, encodes_crcVerify, fun b s hf => ?_⟩
  obtain ⟨hcompute, hverify, -⟩ := Scope.checksumsInEveryInstance Config.chip s Scope.chip_ok hf
  simp only [← crcOf_eq_crcIn, ← exec_eq_execFor] at hcompute hverify
  obtain ⟨hlt, hanswer⟩ := hcompute b
  refine ⟨hlt, hanswer, ?streaming, hverify b, fun hlen => ?zero⟩
  case streaming =>
    obtain ⟨t, ht, hses⟩ := runAll_crcUpd b hf
    exact ⟨t, ht, by rw [hses, crcOf_eq, BitVec.ofNat_toNat, BitVec.setWidth_eq]⟩
  case zero =>
    have hzero := crc24q_eq_be24_iff (C := Config.chip) rfl hlen
    rw [← BitVec.toNat_inj, ← BitVec.toNat_inj, be24_toNat, ← crcOf_eq, ← crcOf_eq] at hzero
    exact hzero

/-- Settles O30: CRC.COMPUTE's data is the CRC's trailer, with which the verdict is `crcVerdict_append_bytes24`. -/
theorem crcRoundTrip : Obligations.CrcRoundTrip := by
  intro b s hf hlen
  refine ⟨_, bytes24 (crc24q Config.chip b), exec_done _ hf, rfl, ?_, ?_⟩
  · exact decide_eq_true ((length_append_bytes24 _ _).trans_le hlen)
  · rw [exec_done _ hf, sessionOp, crcVerifyOp, crcVerdict_append_bytes24]
    rfl

/-- Settles O31: the session operations, their bytes as numbers, and the streaming form as a fold over the same step. -/
theorem doubleAccumulator : Obligations.DoubleAccumulator := by
  refine ⟨encodes_cs8Init, encodes_cs8Upd, encodes_cs8Get, encodes_cs8Compute,
    fun s hf => ⟨exec_done _ hf, fun v => ?update, ?get, fun b => ?oneShot⟩⟩
  case update =>
    have hA : BitVec.ofNat 8 ((s.ses.ckA.toNat + v.toNat) % 256) = s.ses.ckA + v := by
      apply BitVec.eq_of_toNat_eq; simp
    have hB : BitVec.ofNat 8 ((s.ses.ckB.toNat + (s.ses.ckA.toNat + v.toNat) % 256) % 256) =
        s.ses.ckB + (s.ses.ckA + v) := by
      apply BitVec.eq_of_toNat_eq; simp
    rw [hA, hB]
    exact exec_done _ hf
  case get =>
    rw [exec_done _ hf, sessionOp, cs8GetOp, cs8Response_eq]
  case oneShot =>
    rw [sums_eq]
    simp only [BitVec.ofNat_toNat, BitVec.setWidth_eq]
    refine ⟨?_, runAll_cs8Upd b hf⟩
    rw [exec_done _ hf, sessionOp, cs8ComputeOp, cs8Response_eq]

end Sys2Proof.IntegrityFamily
end

section
/-!
SUPPORT. The frame synchroniser in the statements' terms: where a frame can begin, what FS.STEP records and returns, the
bound on what it keeps, and the trailer of a damaged frame.
-/

namespace Sys2Proof.Machine

open Sys2Proof.Statements

/-! ### Mode constants and fields -/

theorem syncPattern_eq (m : FsMode) : syncPattern Config.chip m = sync m := by
  cases m <;> rfl

theorem headerBytes_eq (m : FsMode) : headerBytes m = hdr m := by
  cases m <;> rfl

theorem stepLen_eq (m : FsMode) (buf : Bytes) : stepLen m buf = frameLen m buf := by
  cases m with
  | rtcm3 => exact stepLen_rtcm3 buf
  | l6 => rfl

/-- `Compatible` of the default patterns is the statements' `Fits` (R151). -/
theorem compatible_iff_fits (m : FsMode) (buf : Bytes) :
    compatible (syncPattern Config.chip m) buf = true ↔ Fits m buf := by
  rw [syncPattern_eq, compatible_iff, Fits]
  refine forall_congr' fun i => ⟨fun h hb hp => ?_, fun h hp hb => ?_⟩
  · rw [List.getElem?_eq_getElem hb, List.getElem?_eq_getElem hp, h hp hb]
  · have := h hb hp
    rwa [List.getElem?_eq_getElem hb, List.getElem?_eq_getElem hp, Option.some_inj] at this

/-- The frame value of a broadcast frame (R78, R80, R154) as a number. -/
theorem frameValue_l6 (F : Bytes) : frameValue .l6 F = BitVec.ofNat 64 (frameNum .l6 F) := by
  have hprn := (byteAt F 4).isLt
  have hmd := (byteAt F 5).isLt
  have hdata := (byteAt F 6).isLt
  apply BitVec.eq_of_toNat_eq
  simp only [frameValue, frameNum, BitVec.toNat_setWidth, toNat_append_add, BitVec.extractLsb'_toNat, BitVec.toNat_ofNat,
    BitVec.toNat_ofBool, BitVec.getLsbD, Nat.toNat_testBit, Nat.shiftRight_eq_div_pow, Nat.reducePow]
  simp only [byteAt] at hprn hmd hdata ⊢
  congr 1
  omega

theorem frameValue_eq (m : FsMode) (F : Bytes) : frameValue m F = BitVec.ofNat 64 (frameNum m F) := by
  cases m with
  | rtcm3 => exact frameValue_rtcm3 F
  | l6 => exact frameValue_l6 F

/-- The one way to fail the check of R153: an RTCM3 frame with a wrong CRC (R155). -/
theorem frameGood_eq_false_iff (m : FsMode) (F : Bytes) : frameGood Config.chip m F = false ↔
    m = .rtcm3 ∧ crcOf (F.take (F.length - 3)) ≠ be F (F.length - 3) := by
  cases m with
  | rtcm3 => rw [← Bool.not_eq_true, frameGood_rtcm3 rfl, ← crcOf_eq_crcIn]; simp
  | l6 => simp [frameGood]

/-- The declared length stands in the first three bytes (R76). -/
theorem declared_congr {a b : Bytes} (h : a.take 3 = b.take 3) : declared a = declared b := by
  have hget : ∀ i < 3, a[i]? = b[i]? := fun i hi => by
    rw [← List.getElem?_take_of_lt hi, h, List.getElem?_take_of_lt hi]
  simp only [declared, List.getD_eq_getElem?_getD, hget 1 (by decide), hget 2 (by decide)]

theorem total_congr {a b : Bytes} (m : FsMode) (h : a.take 3 = b.take 3) : total m a = total m b := by
  cases m with
  | rtcm3 => simp only [total, declared_congr h]
  | l6 => rfl

/-! ### FS.STEP as an answer -/

theorem exec_fsStep_iff {s : State} (hf : s.ses.fatal = 0) {ses : Session} {r : Response} :
    exec .fsStep s = done s ses r ↔ fsStepOp Config.chip s.ses = (ses, r) := by
  rw [exec_done _ hf, done_inj, sessionOp, Prod.ext_iff]

/-- FS.STEP does not touch the latch (R159: no step aborts the stream). -/
theorem fsStepOp_fatal (C : Chip) (s : Session) : (fsStepOp C s).1.fatal = s.fatal :=
  fsStepOp_writes C s .latch (by decide)

/-! ### What a NEED_MORE_DATA keeps -/

theorem headerBytes_lt_frameTotal (m : FsMode) (buf : Bytes) : headerBytes m < frameTotal m buf := by
  cases m with
  | rtcm3 => exact Nat.lt_of_lt_of_le (by decide : 3 < 6) (Nat.le_add_right 6 _)
  | l6 => exact (by decide : 4 < 250)

/-- A NEED_MORE_DATA leaves the buffer after the sync search, less than the frame at its front (R157, R158). -/
theorem fsStepOp_waits {C : Chip} {s t : Session} {r : Response} (h : fsStepOp C s = (t, r))
    (hw : r.status = Status.needMoreData) :
    t.fsMode = s.fsMode ∧ t.fsBuf = syncSearch (syncPattern C s.fsMode) s.fsBuf ∧
      t.fsBuf.length < frameTotal s.fsMode t.fsBuf := by
  obtain ⟨buf, hbuf, hcases⟩ := fsStepOp_cases C s
  rcases hcases with ⟨hshort, e⟩ | ⟨-, hshort, e⟩ | ⟨-, -, -, e⟩ | ⟨-, -, -, e⟩ <;> rw [h] at e <;> cases e
  · exact ⟨rfl, hbuf, hshort.trans (headerBytes_lt_frameTotal _ _)⟩
  · exact ⟨rfl, hbuf, hshort⟩
  · cases hw
  · cases hw

/-- The sync search has nothing to remove where it has been (R153). -/
theorem syncSearch_idem (pat buf : Bytes) : syncSearch pat (syncSearch pat buf) = syncSearch pat buf := by
  obtain ⟨-, -, hcompat, -⟩ := syncSearch_spec pat buf
  exact syncSearch_eq (g := []) hcompat (by simp)

/-- FS.STEP reads the buffer only behind the sync search, and neither `fs_state` nor `fs_len` (R157). -/
theorem fsStepOp_congr {C : Chip} {s t : Session}
    (hrest : t = { s with fsBuf := t.fsBuf, fsState := t.fsState, fsLen := t.fsLen })
    (hbuf : syncSearch (syncPattern C s.fsMode) t.fsBuf = syncSearch (syncPattern C s.fsMode) s.fsBuf) :
    fsStepOp C t = fsStepOp C s := by
  rw [hrest]
  simp only [fsStepOp, hbuf]

/-- A second FS.STEP behind a NEED_MORE_DATA answers the same and changes nothing (R159 (d)). -/
theorem fsStepOp_waits_again {C : Chip} {s t : Session} {r : Response} (h : fsStepOp C s = (t, r))
    (hw : r.status = Status.needMoreData) : fsStepOp C t = (t, r) := by
  obtain ⟨-, hbuf, -⟩ := fsStepOp_waits h hw
  refine (fsStepOp_congr ?_ (by rw [hbuf, syncSearch_idem])).trans h
  obtain ⟨buf, -, hcases⟩ := fsStepOp_cases C s
  rcases hcases with ⟨-, e⟩ | ⟨-, -, e⟩ | ⟨-, -, -, e⟩ | ⟨-, -, -, e⟩ <;> rw [h] at e <;> cases e <;> rfl

/-! ### Well-formed frames -/

/-- A byte string is determined by what stands in front of its trailer and by the trailer's number (R13, R74). -/
theorem eq_of_be_eq {f f' : Bytes} (h3 : 3 ≤ f.length) (hlen : f'.length = f.length)
    (htake : f'.take (f.length - 3) = f.take (f.length - 3)) (hbe : be f' (f.length - 3) = be f (f.length - 3)) :
    f' = f := by
  obtain ⟨b, c, rfl⟩ := exists_eq_append_bytes24 h3
  obtain ⟨b', c', rfl⟩ := exists_eq_append_bytes24 (hlen.symm ▸ h3)
  have hbb : b'.length = b.length := by simpa only [length_append_bytes24, Nat.add_right_cancel_iff] using hlen
  rw [length_append_bytes24, Nat.add_sub_cancel] at htake hbe
  rw [List.take_left, List.take_left' hbb] at htake
  subst htake
  rw [← be24_toNat, ← be24_toNat, be24_bytes24, be24_bytes24, BitVec.toNat_inj] at hbe
  rw [hbe]

theorem head?_of_getD {f : Bytes} {p : Byte} (hlen : 0 < f.length) (h : f.getD 0 0 = p) : f.head? = some p := by
  cases f with
  | nil => exact absurd hlen (by decide)
  | cons b f => exact congrArg some h

/-- FS.STEP in mode 0 where a well-formed frame stands behind bytes that are no preamble, and nothing behind it: its
payload is returned (R154, R159 (a)). -/
theorem fsStepOp_wellFormed {s : Session} {g f : Bytes} (hm : s.fsMode = .rtcm3) (hbuf : s.fsBuf = g ++ f)
    (hg : 0xD3 ∉ g) (hf : WellFormedFrame f) :
    (fsStepOp Config.chip s).2.status = 0x00 ∧
      (fsStepOp Config.chip s).2.data = .bytes ((f.drop 3).take (f.length - 6)) ∧
      (fsStepOp Config.chip s).1.fsBuf = [] := by
  obtain ⟨h6, hpre, hlen, hcrc⟩ := hf
  have hT : total .rtcm3 f = f.length := hlen.symm
  have hL : declared f = f.length - 6 := by omega
  rw [fsStepOp_rtcm3 rfl hm hbuf hg (head?_of_getD (by omega) hpre) hT.le, hT, List.take_length, ← crcOf_eq_crcIn,
    if_pos hcrc]
  exact ⟨rfl, by rw [frameBytes, hL], List.drop_length⟩

/-- FS.STEP in mode 0 where a well-formed frame with only its trailer damaged stands at the front: it answers
CHECKSUM_MISMATCH, and one byte leaves the buffer (R156, R159 (b)). -/
theorem fsStepOp_damaged {s : Session} {f f' g : Bytes} (hm : s.fsMode = .rtcm3) (hbuf : s.fsBuf = f' ++ g)
    (hf : WellFormedFrame f) (hlen : f'.length = f.length) (htake : f'.take (f.length - 3) = f.take (f.length - 3))
    (hne : f' ≠ f) :
    (fsStepOp Config.chip s).2.status = 0x02 ∧ (fsStepOp Config.chip s).1.fsMode = .rtcm3 ∧
      (fsStepOp Config.chip s).1.fsBuf = f'.drop 1 ++ g := by
  obtain ⟨h6, hpre, hL, hcrc⟩ := hf
  have htake3 : (f' ++ g).take 3 = f.take 3 := by
    have := congrArg (List.take 3) htake
    rwa [List.take_take, List.take_take, Nat.min_eq_left (by omega),
      ← List.take_append_of_le_length (l₂ := g) (by omega)] at this
  have hhead : (f' ++ g).head? = some 0xD3 := by
    have hsame := congrArg List.head? htake3
    rw [List.head?_take, List.head?_take, if_neg (by decide), if_neg (by decide)] at hsame
    exact hsame.trans (head?_of_getD (by omega) hpre)
  have hT : total .rtcm3 (f' ++ g) = f'.length := by
    rw [total_congr _ htake3, hlen]; exact hL.symm
  have hbad : crcIn Config.chip (f'.take (f'.length - 3)) ≠ be f' (f'.length - 3) := by
    rw [hlen, htake, ← crcOf_eq_crcIn, hcrc]
    exact fun hbe => hne (eq_of_be_eq (by omega) hlen htake hbe.symm)
  have hfront : s.fsBuf = [] ++ (f' ++ g) := hbuf
  rw [fsStepOp_rtcm3 rfl hm hfront List.not_mem_nil hhead (by rw [hT]; simp), hT, List.take_left, if_neg hbad]
  exact ⟨rfl, hm, List.drop_append_of_le_length (by omega)⟩

/-- What stands behind a preamble and passes the check of R153 is a well-formed frame (R71 to R76). -/
theorem wellFormed_of_frameGood {buf : Bytes} (hcompat : compatible [0xD3] buf = true)
    (hT : total .rtcm3 buf ≤ buf.length) (hgood : frameGood Config.chip .rtcm3 (buf.take (total .rtcm3 buf)) = true) :
    WellFormedFrame (buf.take (total .rtcm3 buf)) := by
  have h6 : 6 ≤ total .rtcm3 buf := Nat.le_add_right 6 _
  have hfront : ∀ n ≤ 3, (buf.take (total .rtcm3 buf)).take n = buf.take n := fun n hn => by
    rw [List.take_take, Nat.min_eq_left (by omega)]
  have hlen : (buf.take (total .rtcm3 buf)).length = total .rtcm3 buf := by rw [List.length_take]; omega
  have hpre : buf.take 1 = [0xD3] := take_of_compatible hcompat (by rw [List.length_singleton]; omega)
  refine ⟨by omega, ?_, ?_, ?_⟩
  · rw [List.getD_eq_getElem?_getD, ← List.getElem?_take_of_lt (by decide : 0 < 1), hfront 1 (by decide), hpre]; rfl
  · rw [hlen, declared_congr (hfront 3 le_rfl), total]
  · rw [crcOf_eq_crcIn]
    exact (frameGood_rtcm3 rfl _).mp hgood

/-- What FS.STEP returns with OK in mode 0 is the payload of a well-formed frame that left the buffer (R159 (c)). -/
theorem fsStepOp_ok_rtcm3 {s t : Session} {r : Response} (hm : s.fsMode = .rtcm3) (h : fsStepOp Config.chip s = (t, r))
    (hok : r.status = Status.ok) :
    ∃ g F, s.fsBuf = g ++ F ++ t.fsBuf ∧ WellFormedFrame F ∧ r.data = .bytes ((F.drop 3).take (F.length - 6)) := by
  obtain ⟨g, hbuf, hcompat, -⟩ := syncSearch_spec (syncPattern Config.chip s.fsMode) s.fsBuf
  obtain ⟨buf, rfl, hcases⟩ := fsStepOp_cases Config.chip s
  rw [hm] at hbuf hcompat hcases
  generalize syncSearch (syncPattern Config.chip .rtcm3) s.fsBuf = buf at hbuf hcompat hcases
  simp only [frameTotal_eq] at hcases
  rcases hcases with ⟨-, e⟩ | ⟨-, -, e⟩ | ⟨-, hT, hgood, e⟩ | ⟨-, -, -, e⟩ <;> rw [h] at e <;> cases e
  · cases hok
  · cases hok
  · have hframe := wellFormed_of_frameGood hcompat hT hgood
    refine ⟨g, _, ?_, hframe, ?_⟩
    · rw [hbuf, List.append_assoc, List.take_append_drop]
    · obtain ⟨-, -, hL, -⟩ := hframe
      rw [frameData_eq, frameBytes, hL, Nat.add_sub_cancel_left]
  · cases hok

/-! ### Pushing a byte string -/

theorem fsPushOp_room {C : Chip} {s : Session} (h : s.fsBuf.length < C.fsCap) (b : Byte) :
    fsPushOp C b s = answer { s with fsBuf := s.fsBuf ++ [b] } Status.ok := if_neg h.ne

theorem runBy_append {run : Instr → State → Result} {is : List Instr} {s u : State} (h : runBy run is s = some u)
    (js : List Instr) : runBy run (is ++ js) s = runBy run js u := by
  induction is generalizing s with
  | nil => cases h; rfl
  | cons i is ih =>
    obtain ⟨v, hexec, hrest⟩ := runBy_cons.mp h
    rw [List.cons_append, runBy, hexec]
    exact ih hrest

/-- FS.PUSH on every byte of a string for which there is room puts the string at the back (R152). -/
theorem runAll_fsPush (b : Bytes) {s : State} (hf : s.ses.fatal = 0)
    (hroom : s.ses.fsBuf.length + b.length ≤ Config.chip.fsCap) :
    ∃ t, runAll (b.map .fsPush) s = some t ∧ t.ses = { s.ses with fsBuf := s.ses.fsBuf ++ b } := by
  induction b generalizing s with
  | nil => exact ⟨s, rfl, by rw [List.append_nil]⟩
  | cons x b ih =>
    rw [List.length_cons] at hroom
    have hpush : (fsPushOp Config.chip x s.ses).1 = { s.ses with fsBuf := s.ses.fsBuf ++ [x] } := by
      rw [fsPushOp_room (by omega)]; rfl
    obtain ⟨t, ht, hses⟩ := ih (s := s.reply (fsPushOp Config.chip x s.ses)) (by rw [State.reply_ses, hpush, hf])
      (by rw [State.reply_ses, hpush, List.length_append, List.length_singleton]; omega)
    refine ⟨t, runBy_cons.mpr ⟨_, exec_run _ hf, ht⟩, ?_⟩
    rw [hses, State.reply_ses, hpush, List.append_assoc, List.singleton_append]

/-- The session after a string was pushed on an empty buffer, and how a run goes on from there. -/
theorem runAll_fsPush_append {s : State} (hf : s.ses.fatal = 0) (hempty : s.ses.fsBuf = []) {b : Bytes}
    (hroom : b.length ≤ Config.chip.fsCap) (js : List Instr) :
    ∃ u, runAll (b.map .fsPush ++ js) s = runAll js u ∧ u.ses = { s.ses with fsBuf := b } := by
  obtain ⟨u, hu, hses⟩ := runAll_fsPush b hf (by rw [hempty]; simpa using hroom)
  exact ⟨u, runBy_append hu js, by rw [hses, hempty, List.nil_append]⟩

end Sys2Proof.Machine
end

section
/-!
The statements on the frame synchroniser: FS.PUSH, the outcomes of FS.STEP, its bound and its laws.
-/

namespace Sys2Proof.FrameSyncFamily

open Sys2Proof.Machine Sys2Proof.Statements

/-- Settles O32: the push clause of `parametersDecideInEveryInstance`, at the default capacity. -/
theorem pushAppendsOneByte : Obligations.PushAppendsOneByte := by
  refine ⟨encodes_fsPush, fun b s hf => ?_⟩
  obtain ⟨-, h⟩ := Scope.parametersDecideInEveryInstance Config.chip s Scope.chip_ok
  obtain ⟨-, -, -, -, hpush, -⟩ := h hf
  rw [exec_eq_execFor]
  exact hpush b

/-- Settles O33: `g` and `r` are the split of the sync search, the outcomes the four of `fsStepOp_cases`. -/
theorem stepFindsAFrame : Obligations.StepFindsAFrame := by
  refine ⟨encodes_fsStep, fun s hf => ?_⟩
  obtain ⟨g, hbuf, hcompat, hskipped⟩ := syncSearch_spec (syncPattern Config.chip s.ses.fsMode) s.ses.fsBuf
  obtain ⟨r, hr, hcases⟩ := fsStepOp_cases Config.chip s.ses
  rw [← hr] at hbuf hcompat
  refine ⟨g, r, hbuf, (compatible_iff_fits _ _).mp hcompat, fun j hj hfits => ?_, ?_⟩
  · exact absurd ((compatible_iff_fits _ _).mpr hfits) (by simp [hskipped j hj])
  have hF (hT : total s.ses.fsMode r ≤ r.length) :
      (r.take (total s.ses.fsMode r)).length = total s.ses.fsMode r := by rw [List.length_take]; omega
  have hcheck := frameGood_eq_false_iff s.ses.fsMode (r.take (total s.ses.fsMode r))
  dsimp only
  rw [exec_done _ hf, sessionOp]
  simp only [headerBytes_eq, frameTotal_eq, stepLen_eq, frameValue_eq, frameData_eq] at hcases
  rcases hcases with ⟨hshort, e⟩ | ⟨hhdr, hshort, e⟩ | ⟨hhdr, hT, hgood, e⟩ | ⟨hhdr, hT, hbad, e⟩ <;> rw [e]
  · rw [if_pos hshort]; rfl
  · rw [if_neg hhdr.not_gt, if_pos hshort]; rfl
  · rw [hF hT, hgood] at hcheck
    rw [if_neg hhdr.not_gt, if_neg hT.not_gt, if_neg fun h => Bool.noConfusion (hcheck.mpr h)]; rfl
  · rw [hF hT] at hcheck
    rw [if_neg hhdr.not_gt, if_neg hT.not_gt, if_pos (hcheck.mp hbad)]; rfl

/-- Settles O34: what `fsStepOp_waits` keeps, the declared length having ten bits. -/
theorem stepKeepsLessThanAFrame : Obligations.StepKeepsLessThanAFrame := by
  intro s ses r hf h hw
  obtain ⟨hmode, hbuf, hlt⟩ := fsStepOp_waits ((exec_fsStep_iff hf).mp h) hw
  obtain ⟨-, -, hcompat, -⟩ := syncSearch_spec (syncPattern Config.chip s.ses.fsMode) s.ses.fsBuf
  rw [← hbuf, ← hmode, compatible_iff_fits] at hcompat
  rw [← hmode] at hlt
  refine ⟨hcompat, frameTotal_eq _ _ ▸ hlt, ?_⟩
  cases hm : ses.fsMode with
  | rtcm3 =>
    rw [hm, frameTotal] at hlt
    have := declaredLength_lt ses.fsBuf
    exact (by omega : ses.fsBuf.length ≤ 1028)
  | l6 =>
    rw [hm] at hlt
    exact Nat.le_of_lt_succ hlt

/-- Settles O35: (a) to (d) are `fsStepOp_wellFormed`, `fsStepOp_damaged`, `fsStepOp_ok_rtcm3` and
`fsStepOp_waits_again`; that the stream goes on is `fsStepOp_fatal`. -/
theorem synchroniserLaws : Obligations.SynchroniserLaws := by
  intro s hf
  refine ⟨?garbage, ?badFrame, ?crc, ?waiting⟩
  case garbage =>
    intro g f hm hempty hg hframe hroom
    obtain ⟨u, hrun, hses⟩ := runAll_fsPush_append hf hempty (b := g ++ f) (by rwa [List.length_append]) [.fsStep]
    obtain ⟨hstatus, hdata, hleft⟩ := fsStepOp_wellFormed (s := u.ses) (by rw [hses, hm]) (by rw [hses]) hg hframe
    have hexec := exec_run (s := u) .fsStep (by rw [hses, hf])
    exact ⟨_, _, _, hrun.trans (runBy_cons.mpr ⟨_, hexec, rfl⟩), rfl, hstatus, hdata, hleft⟩
  case badFrame =>
    intro f f' g hm hempty hframe hlen htake hne hpre hgood hroom
    obtain ⟨u, hrun, hses⟩ := runAll_fsPush_append hf hempty (b := f' ++ g) (by rwa [List.length_append])
      [.fsStep, .fsStep]
    obtain ⟨hbad, hmode, hbuf⟩ := fsStepOp_damaged (s := u.ses) (by rw [hses, hm]) (by rw [hses]) hframe hlen htake hne
    obtain ⟨hok, hdata, -⟩ := fsStepOp_wellFormed hmode hbuf hpre hgood
    have hfatal : u.ses.fatal = 0 := by rw [hses, hf]
    have hfirst := exec_run .fsStep hfatal
    have hsecond := exec_run (s := u.reply (fsStepOp Config.chip u.ses)) .fsStep
      ((fsStepOp_fatal Config.chip u.ses).trans hfatal)
    exact ⟨_, _, _, _, hrun.trans (runBy_cons.mpr ⟨_, hfirst, runBy_cons.mpr ⟨_, hsecond, rfl⟩⟩), rfl, hbad, hok, hdata⟩
  case crc =>
    exact fun ses r hm h hok => fsStepOp_ok_rtcm3 hm ((exec_fsStep_iff hf).mp h) hok
  case waiting =>
    intro ses r h
    have hstep := (exec_fsStep_iff hf).mp h
    have hfatal := fsStepOp_fatal Config.chip s.ses
    rw [hstep, hf] at hfatal
    refine ⟨hfatal, fun hw => ?_⟩
    rw [exec_done _ hfatal, sessionOp, fsStepOp_waits_again hstep hw]

end Sys2Proof.FrameSyncFamily
end

section
/-!
SUPPORT. The reassembler in the statements' terms: the head verdict as the model's, the end of RA.FRAG as `AfterDrain`, and
what stands in the session after it.
-/

namespace Sys2Proof.Machine

open Sys2Proof.Statements

/-! ### The head verdict -/

/-- The code of the statements' verdict is that of `HeadAt` (R191). -/
theorem verdict_code (b : Bits) : (verdict b).1 = headCode (headAt b) := by
  unfold verdict
  by_cases h12 : b.length < 12
  · rw [if_pos h12, headAt, if_pos h12]; rfl
  rw [if_neg h12, U_eq_uval (p := 0) (by omega)]
  by_cases hm : uval b 0 12 ≠ 4073
  · rw [if_pos hm, headAt, if_neg h12, if_pos hm]; rfl
  rw [if_neg hm]
  by_cases h16 : b.length < 16
  · rw [if_pos h16, headAt, if_neg h12, if_neg hm, if_pos h16]; rfl
  rw [if_neg h16, U_eq_uval (p := 12) (by omega), headAt_of_16 (not_lt.mp h16) (not_not.mp hm)]
  split_ifs <;> rfl

/-- The verdict is 0 exactly where there is a head. -/
theorem verdict_ok_iff {b : Bits} : (verdict b).1 = 0x00 ↔ ∃ hd, headAt b = .head hd := by
  rw [verdict_code]
  cases h : headAt b with
  | head hd => exact ⟨fun _ => ⟨hd, rfl⟩, fun _ => rfl⟩
  | fail c =>
    have hc : c ≠ 0x00 := by rcases headAt_fail h with rfl | rfl | rfl <;> decide
    exact ⟨fun h0 => absurd h0 hc, fun ⟨_, h⟩ => by cases h⟩
  | fail10 hd => exact ⟨fun h0 => absurd h0 (by decide : Status.unsupported ≠ 0x00), fun ⟨_, h⟩ => by cases h⟩

/-! ### Registers of the reassembler -/

theorem raValue_eq_raNum (s : Session) : raValue s = BitVec.ofNat 64 (raNum s) := by
  unfold raValue raNum
  cases s.raState <;> rfl

/-- An IDLE reassembler shows its subframe number alone (R172). -/
theorem raNum_idle {s : Session} (hst : s.raState = .idle) (hpart : s.raPart = 0) : raNum s = 65536 * s.raSfn.toNat := by
  rw [raNum, hst, hpart, Nat.mul_zero, Nat.zero_add]

theorem raValue_raLost (s : Session) : raValue (raLost s) = 0 := rfl

/-- The next subframe number, from the subtype's bits (R179). -/
theorem nextSfn_eq {p : Bits} {hd : Head} (h : headAt p = .head hd) (n : Byte) :
    nextSfn hd n = sfnAfter (U p 12 4) n := by
  obtain ⟨h37, hlen⟩ := headAt_len h
  have hsub : hd.subtype = field p 12 4 := by
    obtain ⟨-, ⟨-, -, rfl⟩ | ⟨-, -, rfl⟩⟩ := headAt_head h <;> rfl
  have hone : hd.subtype = 1 ↔ uval p 12 4 = 1 := by
    rw [hsub, ← BitVec.toNat_inj, field_toNat]; rfl
  have hsucc : n ≠ 255 → n + 1 = BitVec.ofNat 8 (min (n.toNat + 1) 255) := by
    intro h255
    rw [Nat.min_eq_left (by bv_omega)]
    bv_omega
  simp only [nextSfn, sfnAfter, hone, U_eq_uval (s := p) (p := 12) (n := 4) (by omega)]
  split_ifs with h1 h0 h255
  · rfl
  · rfl
  · rw [h255]; rfl
  · exact hsucc h255

/-! ### The front of a fragment -/

theorem abandon_idle {s : Session} (h : s.raState = .idle) : abandon s = (s, []) := by
  rw [abandon, h]

/-- What a start fragment abandons (R178): an accumulation's unread bits, counted and reported. -/
theorem abandon_eq (s : Session) :
    ∃ b pos, abandon s =
      ({ s with
          bb := b
          bbPos := pos
          statDrop := if s.raState = .accumulating then s.statDrop + BitVec.ofNat 32 (remBits s) else s.statDrop },
        if s.raState = .accumulating then [.abandon (remBits s)] else []) := by
  by_cases hacc : s.raState = .accumulating
  · refine ⟨s.bb.drop s.bbPos, 0, ?_⟩
    simp only [abandon, hacc, if_true, normalize, addDrop, remBits, List.length_drop]
  · have hidle : s.raState = .idle := by
      cases h : s.raState with
      | idle => rfl
      | accumulating => exact absurd h hacc
    exact ⟨s.bb, s.bbPos, (abandon_idle hidle).trans (by rw [if_neg hacc, if_neg hacc])⟩

/-! ### The end of a fragment -/

/-- The end of RA.FRAG only adds to the events its drain was given (R172). -/
theorem raFinish_events (s : Session) (e : DrainEnd) (xs ys : List Event) :
    raFinish (s, e, xs ++ ys) =
      ((raFinish (s, e, ys)).1, { (raFinish (s, e, ys)).2 with events := xs ++ (raFinish (s, e, ys)).2.events }) := by
  rcases raFinish_cases s e ys with ⟨rfl, k⟩ | ⟨c, rfl, k⟩ | ⟨rfl, h6, k⟩ | ⟨rfl, h6, k⟩ <;> rw [k]
  · rfl
  · rfl
  · simp [raFinish, h6]
  · simp [raFinish, h6]

/-- What a drain leaves, by its end (R207): a cursor at the front, no more bits than it found, and none unless it waits; a
drop has a code of its own. -/
theorem drain_ends {C : Chip} {s t : Session} {evs es : List Event} {e : DrainEnd} (h : drain C s evs = (t, e, es)) :
    t.bbPos = 0 ∧ t.bb.length ≤ remBits s ∧ (e = .clean → t.bb = []) ∧
      ∀ c, e = .discarded c → t.bb = [] ∧ c ≠ 0x00 ∧ c ≠ 0x01 := by
  have hcodes : ∀ c ∈ [(0x03 : Byte), 0x04, 0x05, 0x07, 0x08, 0x0C, 0x0F], c ≠ 0x00 ∧ c ≠ 0x01 := by decide
  have hleaves := drain_leaves C (normalize s) rfl
  rw [drain_normalize] at hleaves
  rw [drain_events] at h
  cases h
  obtain ⟨hpos, hbb, -, hend⟩ := hleaves
  refine ⟨hpos, ?_, fun he => ?_, fun c he => ?_⟩
  · rw [hbb, List.length_drop, normalize_bb, List.length_drop]
    exact Nat.sub_le _ _
  · rw [he] at hend
    exact hend
  · rw [he] at hend
    exact ⟨hend.1, hcodes c hend.2⟩

/-- RA.FRAG that comes to its drain ends as the statements say, from what DEC.DRAIN does (R172, R176, R177). -/
theorem afterDrain_raFinish (s : State) {d : State} (hf : d.ses.fatal = 0) (evs : List Event) :
    AfterDrain s d evs (.next (s.reply (raFinish (drain Config.chip d.ses evs)))) := by
  refine ⟨_, _, exec_done .decDrain hf, ?_⟩
  rw [drain_events, sessionOp, decDrainOp]
  rcases hd : drain Config.chip d.ses [] with ⟨t, e, es⟩
  obtain ⟨hpos, -, -, hdrop⟩ := drain_ends hd
  dsimp only
  rcases raFinish_cases t e (evs ++ es) with ⟨rfl, k⟩ | ⟨c, rfl, k⟩ | ⟨rfl, h6, k⟩ | ⟨rfl, h6, k⟩ <;> rw [k]
  · rw [if_pos (by rfl), raValue_eq_raNum, raNum_idle rfl rfl]; rfl
  · obtain ⟨-, h0, h1⟩ := hdrop c rfl
    rw [if_neg (by exact h0), if_neg (by exact h1), raValue_raLost]; rfl
  · rw [if_neg (by decide), if_pos (by rfl), if_pos h6, raValue_raLost]
    simp only [idleAt, hpos]
    rfl
  · rw [if_neg (by decide), if_pos (by rfl), if_neg h6, raValue_eq_raNum]; rfl

/-! ### What a fragment leaves -/

/-- Part `part` with `bits` unread bits is the fragment `p` alone, or `p` behind the accumulation of `s` (R172, R174). -/
def Extends (s : Session) (p : Bits) (part bits : Nat) : Prop :=
  part = 1 ∧ bits ≤ p.length ∨ s.raState = .accumulating ∧ part = s.raPart + 1 ∧ bits ≤ remBits s + p.length

/-- The ways RA.FRAG on the fragment `p` can leave a session (R172 to R178). -/
inductive FragmentLeaves (s : Session) (p : Bits) (q : Reply) : Prop
  /-- too long: the latch is set and nothing else changes -/
  | latched (hstatus : q.2.status = 0x80) (hses : q.1 = { s with fatal := 0x80 })
  /-- a continuation while IDLE: nothing changes -/
  | ignored (hstatus : q.2.status = 0x0D) (hses : q.1 = s)
  /-- completed, dropped or overflowed: IDLE and no bits -/
  | ended (hfatal : q.1.fatal = s.fatal) (hst : q.1.raState = .idle) (hpart : q.1.raPart = 0) (hbb : q.1.bb = [])
  /-- the accumulation goes on -/
  | waits (hfatal : q.1.fatal = s.fatal) (hstatus : q.2.status = 0x01) (hst : q.1.raState = .accumulating)
      (hmax : q.1.raPart ≤ 5) (hbits : Extends s p q.1.raPart q.1.bb.length)

/-- RA.FRAG that comes to its drain ends the accumulation, or leaves it the part it had and no more bits (R176, R177). -/
theorem raFinish_drain_leaves (C : Chip) {s t : Session} {p : Bits} (evs : List Event) (hfatal : t.fatal = s.fatal)
    (hst : t.raState = .accumulating) (hmax : t.raPart ≤ 6) (hbits : Extends s p t.raPart (remBits t)) :
    FragmentLeaves s p (raFinish (drain C t evs)) := by
  have hframe := drain_frame C t evs
  rcases hd : drain C t evs with ⟨u, e, es⟩
  rw [hd] at hframe
  obtain ⟨-, hlen, hclean, hdrop⟩ := drain_ends hd
  have hfatal := hframe.fatal.trans hfatal
  rcases raFinish_cases u e es with ⟨he, k⟩ | ⟨c, he, k⟩ | ⟨-, -, k⟩ | ⟨-, h6, k⟩ <;> rw [k]
  · exact .ended hfatal rfl rfl (hclean he)
  · exact .ended hfatal rfl rfl (hdrop c he).1
  · exact .ended hfatal rfl rfl rfl
  · have hpart : u.raPart = t.raPart := hframe.raPart
    refine .waits hfatal rfl (hframe.raState.trans hst) (show u.raPart ≤ 5 by omega) ?_
    simp only [Extends, hpart] at hbits ⊢
    exact hbits.imp (.imp_right hlen.trans) (.imp_right (.imp_right hlen.trans))

theorem raStart_leaves (C : Chip) (p : Bits) (s : Session) : FragmentLeaves s p (raStart C p s) := by
  have hfatal := (abandon_frame s).fatal
  rcases raStart_cases C p s with ⟨-, e⟩ | ⟨-, hd, -, e⟩ | ⟨-, -, e⟩ <;> rw [e]
  · exact .latched rfl rfl
  · exact raFinish_drain_leaves C (t := started (abandon s).1 hd p) _ hfatal rfl (show 1 ≤ 6 by decide)
      (.inl ⟨rfl, le_rfl⟩)
  · exact .ended hfatal rfl rfl rfl

theorem raContinue_leaves (C : Chip) (p : Bits) {s : Session} (h : s.RaInv) :
    FragmentLeaves s p (raContinue C p s) := by
  rcases raContinue_cases C p s with ⟨-, e⟩ | ⟨-, -, e⟩ | ⟨hacc, -, e⟩ <;> rw [e]
  · exact .ignored rfl rfl
  · exact .latched rfl rfl
  · refine raFinish_drain_leaves C (t := continued s p) [] rfl hacc (Nat.succ_le_succ (raPart_le_of_raInv h))
      (.inr ⟨hacc, rfl, le_of_eq ?_⟩)
    simp only [continued, remBits, normalize_bb, normalize_bbPos, List.length_append, List.length_drop, Nat.sub_zero]

/-- Everything RA.FRAG can leave. -/
theorem raFragOp_leaves (C : Chip) (sf : Bool) (p : Bits) {s : Session} (h : s.RaInv) :
    FragmentLeaves s p (raFragOp C sf p s) := by
  cases sf with
  | true => exact raStart_leaves C p s
  | false => exact raContinue_leaves C p h

/-- A fragment for which there is room, behind whatever bits are unread, does not latch (R172). -/
theorem raFragOp_within {C : Chip} (sf : Bool) {p : Bits} {s : Session}
    (h : s.raState = .accumulating → remBits s + p.length ≤ C.bbCap) (hp : p.length ≤ C.bbCap) :
    (raFragOp C sf p s).1.fatal = s.fatal ∧ (raFragOp C sf p s).2.status ≠ 0x80 := by
  cases sf with
  | true => exact raStart_within hp
  | false => exact raContinue_within h

/-! ### The framed path -/

/-- A broadcast frame's fragment holds at most `FRAG_PAYLOAD_BITS` bits (R80, R236). -/
theorem length_fragmentOf_l6_le (C : Chip) (r : Response) : (fragmentOf C .l6 r).2.length ≤ C.fragPayloadBits := by
  rw [fragmentOf, length_slice]
  exact Nat.min_le_left _ _

/-- An accumulation holds at most `n` unread bits a part (R182). -/
def PartsWithin (n : Nat) (s : Session) : Prop := s.raState = .accumulating → remBits s ≤ n * s.raPart

/-- RA.FRAG with fragments of at most `n` bits keeps them to `n` a part (R182). -/
theorem FragmentLeaves.partsWithin {n : Nat} {s : Session} {p : Bits} {q : Reply} (h : FragmentLeaves s p q)
    (hs : PartsWithin n s) (hp : p.length ≤ n) : PartsWithin n q.1 := by
  cases h with
  | latched _ hses => rw [hses]; exact hs
  | ignored _ hses => rw [hses]; exact hs
  | ended _ hst => exact fun hacc => by rw [hst] at hacc; cases hacc
  | waits _ _ _ _ hbits =>
    intro _
    refine (Nat.sub_le _ _).trans ?_
    rcases hbits with ⟨hpart, hlen⟩ | ⟨hacc, hpart, hlen⟩
    · rw [hpart, Nat.mul_one]
      exact hlen.trans hp
    · have := hs hacc
      rw [hpart, Nat.mul_succ]
      omega

/-- FS.STEP has no fatal outcome (R157, R159). -/
theorem fsStepOp_status_ne_fatal (C : Chip) (s : Session) : (fsStepOp C s).2.status ≠ 0x80 := by
  obtain ⟨buf, -, ⟨-, e⟩ | ⟨-, -, e⟩ | ⟨-, -, -, e⟩ | ⟨-, -, -, e⟩⟩ := fsStepOp_cases C s <;> rw [e]
  · exact (by decide : Status.needMoreData ≠ 0x80)
  · exact (by decide : Status.needMoreData ≠ 0x80)
  · exact (by decide : Status.ok ≠ 0x80)
  · exact (by decide : Status.checksumMismatch ≠ 0x80)

/-- PIPE.NEXT in mode 1, where FS.STEP removes a frame, is RA.FRAG on at most `FRAG_PAYLOAD_BITS` bits (R235, R236). -/
theorem pipeNextOp_l6 {C : Chip} {s t : Session} {r : Response} (hr : fsStepOp C s = (t, r)) (hok : r.status = Status.ok)
    (hm : t.fsMode = .l6) :
    ∃ sf p v, p.length ≤ C.fragPayloadBits ∧
      pipeNextOp C s = ((raFragOp C sf p t).1,
        { status := (raFragOp C sf p t).2.status, value := v, events := (raFragOp C sf p t).2.events }) :=
  ⟨_, _, _, by rw [hm]; exact length_fragmentOf_l6_le C r, pipeNextOp_of_frame hr hok⟩

/-- R182: while its parts hold at most `FRAG_PAYLOAD_BITS` bits each, `BB_CAP` has room for one more, so PIPE.NEXT in mode 1
goes on without the latch. -/
theorem pipeNextOp_l6_within {C : Chip} (hcap : Config.maxParts * C.fragPayloadBits ≤ C.bbCap) {s : Session}
    (hm : s.fsMode = .l6) (hra : s.RaInv) (hs : PartsWithin C.fragPayloadBits s) :
    (pipeNextOp C s).1.fatal = s.fatal ∧ (pipeNextOp C s).2.status ≠ 0x80 ∧
      PartsWithin C.fragPayloadBits (pipeNextOp C s).1 := by
  have hwrites := fsStepOp_writes C s
  have hstatus := fsStepOp_status_ne_fatal C s
  rcases hr : fsStepOp C s with ⟨t, r⟩
  rw [hr] at hwrites hstatus
  have hmode : t.fsMode = s.fsMode := hwrites .mode (by decide)
  have hbits : t.bb = s.bb := hwrites .bits (by decide)
  have hpos : t.bbPos = s.bbPos := hwrites .cursor (by decide)
  have hfatal : t.fatal = s.fatal := hwrites .latch (by decide)
  obtain ⟨hst, hpart, -⟩ : Element.Same s t .reassembler := hwrites .reassembler (by decide)
  have htra : t.RaInv := by rw [Session.RaInv, hst, hpart]; exact hra
  have ht : PartsWithin C.fragPayloadBits t := by rw [PartsWithin, remBits, hst, hpart, hbits, hpos]; exact hs
  by_cases hok : r.status = Status.ok
  · obtain ⟨sf, p, v, hlen, e⟩ := pipeNextOp_l6 hr hok (hmode.trans hm)
    rw [e]
    have hsix : C.fragPayloadBits * 6 ≤ C.bbCap := by rw [Nat.mul_comm]; exact hcap
    have hroom : t.raState = .accumulating → remBits t + p.length ≤ C.bbCap := by
      intro hacc
      have hparts : C.fragPayloadBits * (t.raPart + 1) ≤ C.fragPayloadBits * 6 :=
        Nat.mul_le_mul_left _ (Nat.succ_le_succ (raPart_le_of_raInv htra))
      have := ht hacc
      rw [Nat.mul_succ] at hparts
      omega
    obtain ⟨hlatch, h80⟩ := raFragOp_within sf hroom (by omega)
    exact ⟨hlatch.trans hfatal, h80, (raFragOp_leaves C sf p htra).partsWithin ht hlen⟩
  · rw [pipeNextOp_of_no_frame hr hok]
    exact ⟨hfatal, hstatus, ht⟩

end Sys2Proof.Machine
end

section
/-!
SUPPORT. Reassembly equivalence (R181 (a)): an accumulation that has waited after each part stands where it would stand had
all its bits come at once, and so ends where the direct path ends.
-/

namespace Sys2Proof.Machine

open Sys2Proof.Statements

/-! ### All bits at once -/

/-- The session with the given bits in its buffer. -/
def loaded (s : Session) (b : Bits) : Session := { s with bb := b, bbPos := 0 }

/-- What RA.FRAG answers where the drain of `b`, all at once, ends part `n` of an accumulation with the subframe number
`f`. -/
def wholeReply (C : Chip) (s : Session) (f : Byte) (b : Bits) (n : Nat) : Reply :=
  raFinish (withRa (drain C (loaded s b) []).1 .accumulating n f, (drain C (loaded s b) []).2)

/-- A start fragment with a head, in IDLE, is part 1 and all its bits (R172). -/
theorem raStart_idle {C : Chip} {p : Bits} {s : Session} {hd : Head} (hst : s.raState = .idle) (hhd : headAt p = .head hd)
    (hp : p.length ≤ C.bbCap) : raStart C p s = wholeReply C s (nextSfn hd s.raSfn) p 1 := by
  rcases raStart_cases C p s with ⟨hlong, -⟩ | ⟨-, hd', hhd', e⟩ | ⟨-, hno, -⟩
  · exact absurd hp (not_le.mpr hlong)
  · obtain rfl : hd = hd' := by rw [hhd] at hhd'; cases hhd'; rfl
    rw [e, abandon_idle hst]
    exact congrArg raFinish (drain_withRa C (loaded s p) .accumulating 1 (nextSfn hd s.raSfn) rfl)
  · exact absurd hhd (hno hd)

section
variable {C : Chip} {s : Session} {f : Byte} {b : Bits} {n : Nat}

/-- An answer that waits before the sixth part is that of a drain that waits. -/
theorem wholeReply_waits (hn : n ≠ 6) (h : (wholeReply C s f b n).2.status = 0x01) :
    ∃ w evs, drain C (loaded s b) [] = (w, .needMore, evs) ∧
      (wholeReply C s f b n).1 = withRa w .accumulating n f ∧ (wholeReply C s f b n).2.events = evs := by
  unfold wholeReply at h ⊢
  rcases hd : drain C (loaded s b) [] with ⟨w, e, evs⟩
  obtain ⟨-, -, -, hdrop⟩ := drain_ends hd
  rw [hd] at h
  rcases raFinish_cases (withRa w .accumulating n f) e evs with
    ⟨rfl, k⟩ | ⟨c, rfl, k⟩ | ⟨rfl, h6, -⟩ | ⟨rfl, -, k⟩
  · rw [k] at h
    exact absurd h (by decide : Status.ok ≠ 0x01)
  · rw [k] at h
    exact absurd h (hdrop c rfl).2.2
  · exact absurd h6 hn
  · exact ⟨w, evs, rfl, congrArg (·.1) k, congrArg (·.2.events) k⟩

/-- A continuation of an accumulation that waits stands where all the bits at once would, the events of the earlier parts
apart (R174, R181). -/
theorem wholeReply_append {w : Session} {evs : List Event} {p : Bits} (h : drain C (loaded s b) [] = (w, .needMore, evs))
    (hp : (b ++ p).length ≤ C.bbCap) :
    ∃ q, raContinue C p (withRa w .accumulating n f) = q ∧
      wholeReply C s f (b ++ p) (n + 1) = (q.1, { q.2 with events := evs ++ q.2.events }) := by
  obtain ⟨hpos, hlen, -⟩ := drain_ends h
  have hroom : remBits (withRa w .accumulating n f) + p.length ≤ C.bbCap := by
    rw [List.length_append] at hp
    have hw : w.bb.length ≤ b.length := hlen
    have : remBits (withRa w .accumulating n f) ≤ w.bb.length := Nat.sub_le _ _
    omega
  have hnext : continued (withRa w .accumulating n f) p = withRa (feed w p) .accumulating (n + 1) f := by
    rw [continued, normalize_of_pos_zero (show (withRa w .accumulating n f).bbPos = 0 from hpos)]
    rfl
  refine ⟨_, rfl, ?_⟩
  rcases raContinue_cases C p (withRa w .accumulating n f) with ⟨hidle, -⟩ | ⟨-, hlong, -⟩ | ⟨-, -, e⟩
  · cases hidle
  · exact absurd hroom (not_le.mpr hlong)
  · rw [e, hnext, drain_withRa C (feed w p) .accumulating (n + 1) f hpos, ← raFinish_events, wholeReply]
    have hfeed : drain C (loaded s (b ++ p)) [] = _ := drain_feed p rfl h
    rw [hfeed]

end

/-! ### Part by part -/

theorem runBy_of_next {run : Instr → State → Result} {i : Instr} {s u : State} (h : run i s = .next u)
    (is : List Instr) : runBy run (i :: is) s = runBy run is u := by
  rw [runBy, h]

/-- The machine `u` stands where the bits `b`, come as `n` parts, would have brought the session `s` all at once; its last
`n` responses carry the events. -/
structure Took (C : Chip) (s : Session) (f : Byte) (b : Bits) (n : Nat) (u : State) : Prop where
  ses : u.ses = (wholeReply C s f b n).1
  status : ∃ r, u.resps.head? = some r ∧ r.status = (wholeReply C s f b n).2.status
  events : (u.resps.take n).reverse.flatMap (·.events) = (wholeReply C s f b n).2.events

theorem took_start {C : Chip} {s : State} {p : Bits} {hd : Head} (hf : s.ses.fatal = 0) (hst : s.ses.raState = .idle)
    (hhd : headAt p = .head hd) (hp : p.length ≤ C.bbCap) :
    ∃ u, execFor C (.raFrag true p) s = .next u ∧ Took C s.ses (nextSfn hd s.ses.raSfn) p 1 u := by
  have hrun : execFor C (.raFrag true p) s = .next (s.reply (raStart C p s.ses)) := execFor_run C _ hf
  rw [raStart_idle hst hhd hp] at hrun
  exact ⟨_, hrun, rfl, ⟨_, rfl, rfl⟩, List.append_nil _⟩

section
variable {C : Chip} {s : Session} {f : Byte} {b : Bits} {n : Nat} {u : State}

/-- After a part that waits the next one stands where the bits of both would. -/
theorem Took.extend {p : Bits} {r : Response} (h : Took C s f b n u) (hf : s.fatal = 0) (hn : n ≠ 6)
    (hr : u.resps.head? = some r) (hwait : r.status = 0x01) (hp : (b ++ p).length ≤ C.bbCap) :
    ∃ v, execFor C (.raFrag false p) u = .next v ∧ Took C s f (b ++ p) (n + 1) v := by
  obtain ⟨hses, ⟨r', hr', hstatus⟩, hevents⟩ := h
  obtain rfl : r = r' := Option.some.inj (hr.symm.trans hr')
  obtain ⟨w, evs, hdrain, hw, hevs⟩ := wholeReply_waits hn (hstatus.symm.trans hwait)
  obtain ⟨q, hq, hwhole⟩ := wholeReply_append (n := n) (f := f) hdrain hp
  have hfatal : u.ses.fatal = 0 := by
    have hframe := (drain_frame C (loaded s b) []).fatal
    rw [hdrain] at hframe
    rw [hses, hw]
    exact hframe.trans hf
  have hrun : execFor C (.raFrag false p) u = .next (u.reply (raContinue C p u.ses)) := execFor_run C _ hfatal
  rw [hses, hw, hq] at hrun
  refine ⟨_, hrun, ?_⟩
  constructor <;> rw [hwhole]
  · rfl
  · exact ⟨_, rfl, rfl⟩
  · rw [State.reply_resps, List.take_succ_cons, List.reverse_cons, List.flatMap_append, hevents, hevs,
      List.flatMap_singleton]

/-- Parts of which each but the last waits. -/
theorem Took.run {more : List Bits} (h : Took C s f b n u) (hf : s.fatal = 0) (hn : n + more.length ≤ 6)
    (hcap : (b ++ more.flatten).length ≤ C.bbCap)
    (hwaits : ∀ j < more.length, ∃ v r, runBy (execFor C) ((more.take j).map (.raFrag false)) u = some v ∧
      v.resps.head? = some r ∧ r.status = 0x01) :
    ∃ t, runBy (execFor C) (more.map (.raFrag false)) u = some t ∧
      Took C s f (b ++ more.flatten) (n + more.length) t := by
  induction more generalizing b n u with
  | nil => exact ⟨u, rfl, by simpa using h⟩
  | cons p more ih =>
    rw [List.length_cons] at hn
    rw [List.flatten_cons, ← List.append_assoc] at hcap
    obtain ⟨_, r, hu, hr, hwait⟩ := hwaits 0 (Nat.succ_pos _)
    cases hu
    have hp : (b ++ p).length ≤ C.bbCap := (Nat.le_add_right _ _).trans (List.length_append ▸ hcap)
    obtain ⟨v, hexec, hv⟩ := h.extend hf (by omega) hr hwait hp
    obtain ⟨t, ht, htook⟩ := ih hv (by omega) hcap fun j hj => by
      obtain ⟨x, r, hx, hr⟩ := hwaits (j + 1) (Nat.succ_lt_succ hj)
      exact ⟨x, r, (runBy_of_next hexec _).symm.trans hx, hr⟩
    refine ⟨t, (runBy_of_next hexec _).trans ht, ?_⟩
    rw [List.flatten_cons, ← List.append_assoc, List.length_cons, ← Nat.add_assoc, Nat.add_right_comm]
    exact htook

end

/-! ### The direct path -/

/-- BC.CLEAR, BC.APPEND and DEC.DRAIN of bits for which there is room (R181 (a)). -/
theorem runBy_direct {C : Chip} {m : Bits} {s d : State} (hf : s.ses.fatal = 0) (hm : m.length ≤ C.bbCap)
    (h : runBy (execFor C) [.bcClear, .bcAppend m, .decDrain] s = some d) :
    d.ses = (decDrainOp C (loaded s.ses m)).1 ∧ d.resps.head? = some (decDrainOp C (loaded s.ses m)).2 := by
  have happend : sessionOp C (.bcAppend m) (s.reply (sessionOp C .bcClear s.ses)).ses = answer (loaded s.ses m) Status.ok :=
    if_neg (not_lt.mpr ((Nat.zero_add m.length).trans_le hm))
  have hcleared : (s.reply (sessionOp C .bcClear s.ses)).ses.fatal = 0 := hf
  have hloaded : ((s.reply (sessionOp C .bcClear s.ses)).reply (answer (loaded s.ses m) Status.ok)).ses.fatal = 0 := hf
  rw [runBy_of_next (execFor_run C _ hf), runBy_of_next (execFor_run C _ hcleared), happend,
    runBy_of_next (execFor_run C _ hloaded)] at h
  cases h
  exact ⟨rfl, rfl⟩

/-- A drain that DEC.DRAIN reports with OK ends clean (R208). -/
theorem decDrainOp_ok {C : Chip} {s : Session} (h : (decDrainOp C s).2.status = 0x00) :
    drain C s [] = ((decDrainOp C s).1, .clean, (decDrainOp C s).2.events) := by
  unfold decDrainOp at h ⊢
  rcases hd : drain C s [] with ⟨t, e, evs⟩
  rw [hd] at h
  cases e with
  | clean => rfl
  | needMore => exact absurd h (by decide : Status.needMoreData ≠ 0x00)
  | discarded c =>
    obtain ⟨-, -, -, hdrop⟩ := drain_ends hd
    exact absurd h (hdrop c rfl).2.1

/-- Where the direct path ends clean, so do its bits with zero bits behind, all at once (R181 (a)): IDLE, with the events
that carry data, the table and the message count of the direct path. -/
theorem wholeReply_clean {C : Chip} {s w : Session} {m : Bits} {evs : List Event}
    (h : drain C (loaded s m) [] = (w, .clean, evs)) (f : Byte) (z n : Nat) :
    let q := wholeReply C s f (m ++ List.replicate z false) n
    q.2.status = 0x00 ∧ q.1.raState = .idle ∧ q.1.bb = [] ∧ q.2.events.filter isDecoded = evs.filter isDecoded ∧
      q.1.mask = w.mask ∧ q.1.statMsg = w.statMsg := by
  obtain ⟨-, -, hclean, -⟩ := drain_ends h
  obtain ⟨k, pre, hevs, hzeros⟩ := drain_zeros z rfl h
  have hwhole : wholeReply C s f (m ++ List.replicate z false) n =
      raFinish (withRa (addNull w z) .accumulating n f, .clean, pre ++ [.cleanEnd (k + z)]) := by
    have hfeed : loaded s (m ++ List.replicate z false) = feed (loaded s m) (List.replicate z false) := rfl
    rw [wholeReply, hfeed, hzeros]
  rw [hwhole, hevs]
  refine ⟨rfl, rfl, hclean rfl, ?_, rfl, rfl⟩
  simp only [raFinish, List.filter_append, List.filter_cons, isDecoded, Bool.false_eq_true, if_false, List.filter_nil]

end Sys2Proof.Machine
end

section
/-!
The statements on the reassembler: its two kinds of fragment, its laws, reassembly equivalence, and its capacity on
the framed path.
-/

namespace Sys2Proof.ReassemblerFamily

open Sys2Proof.Machine Sys2Proof.Statements

/-- Settles O46: the three ways of a start fragment, an accumulation abandoned in front of the last two. -/
theorem startFragment : Obligations.StartFragment := by
  refine ⟨encodes_raFrag, fun p s hf => ?_⟩
  intro left evs dropped
  have hrun : exec (.raFrag true p) s = .next (s.reply (raStart Config.chip p s.ses)) := exec_run _ hf
  obtain ⟨b, pos, habandon⟩ := abandon_eq s.ses
  have hcases := raStart_cases Config.chip p s.ses
  rw [show Config.chip.bbCap = 16384 from rfl] at hcases
  rcases hcases with ⟨hlong, e⟩ | ⟨hroom, hd, hhd, e⟩ | ⟨hroom, hno, e⟩ <;> rw [e] at hrun
  · rw [if_pos hlong, hrun]; rfl
  · have hok := verdict_ok_iff.mpr ⟨hd, hhd⟩
    rw [if_neg (not_lt.mpr hroom), if_neg (not_not.mpr hok), hrun, habandon, ← nextSfn_eq hhd]
    exact afterDrain_raFinish s
      (d := { s with ses := started { s.ses with bb := b, bbPos := pos, statDrop := dropped } hd p }) hf evs
  · rw [if_neg (not_lt.mpr hroom), if_pos fun h0 => (verdict_ok_iff.mp h0).elim hno, hrun, habandon, ← verdict_code]
    rfl

/-- Settles O47: the three ways of a continuation fragment. -/
theorem continuationFragment : Obligations.ContinuationFragment := by
  refine ⟨encodes_raFrag, fun p s hf => ?_⟩
  have hrun : exec (.raFrag false p) s = .next (s.reply (raContinue Config.chip p s.ses)) := exec_run _ hf
  have hne : RaState.accumulating ≠ .idle := by decide
  have hcases := raContinue_cases Config.chip p s.ses
  rw [show Config.chip.bbCap = 16384 from rfl, remBits] at hcases
  rcases hcases with ⟨hidle, e⟩ | ⟨hacc, hlong, e⟩ | ⟨hacc, hroom, e⟩ <;> rw [e] at hrun
  · rw [if_pos hidle, hrun, raValue_eq_raNum]; rfl
  · rw [if_neg (hacc ▸ hne), if_pos hlong, hrun]; rfl
  · rw [if_neg (hacc ▸ hne), if_neg (not_lt.mpr hroom), hrun]
    exact afterDrain_raFinish s (d := { s with ses := continued s.ses p }) hf []

/-- Settles O48, by the ways of a fragment. -/
theorem reassemblerLaws : Obligations.ReassemblerLaws := by
  intro sf p s ses r hf hra h
  rw [exec_done _ hf, done_inj] at h
  obtain ⟨hses, hr⟩ := h
  have hleaves := raFragOp_leaves Config.chip sf p hra
  rw [show raFragOp Config.chip sf p s.ses = (ses, r) from Prod.ext hses hr] at hleaves
  have hpart := raPart_le_of_raInv hra
  obtain ⟨hidle, -⟩ := hra
  cases hleaves with
  | latched hstatus hses =>
    obtain rfl : ses = _ := hses
    exact ⟨fun h9 => absurd (hstatus.symm.trans h9) (by decide), fun _ h80 => absurd hstatus h80, hidle, hpart⟩
  | ignored hstatus hses =>
    obtain rfl : ses = _ := hses
    exact ⟨fun h9 => absurd (hstatus.symm.trans h9) (by decide), fun hD => absurd hstatus hD, hidle, hpart⟩
  | ended hfatal hst hpart hbb =>
    exact ⟨fun _ => ⟨hfatal.trans hf, hst, hpart⟩, fun _ _ _ => hbb, fun _ => hpart, hpart.trans_le (Nat.zero_le 5)⟩
  | waits _ hstatus hst hmax _ =>
    have hbusy : ses.raState ≠ .idle := by rw [show ses.raState = .accumulating from hst]; decide
    exact ⟨fun h9 => absurd (hstatus.symm.trans h9) (by decide), fun _ _ hidle => absurd hidle hbusy,
      fun hidle => absurd hidle hbusy, hmax⟩

/-- Settles O49: by `Took.run` the fragments stand where their bits all at once would, by `wholeReply_clean` that is where
the direct path ends. -/
theorem reassemblyEquivalence : Obligations.ReassemblyEquivalence := by
  intro C s d t m first more z rd hf hidle hdirect hrd hok hbits hcap hmax hhead hwaits hrun
  obtain ⟨hses, hresp⟩ := runBy_direct hf (by omega) hdirect
  obtain rfl : rd = _ := Option.some.inj (hrd.symm.trans hresp)
  have hdrain := decDrainOp_ok hok
  have hlen : (first ++ more.flatten).length ≤ C.bbCap := by
    rw [← List.flatten_cons, hbits, List.length_append, List.length_replicate]
    exact hcap
  obtain ⟨hd, hhd⟩ := verdict_ok_iff.mp hhead
  obtain ⟨u, hexec, hu⟩ := took_start (C := C) hf hidle hhd ((Nat.le_add_right _ _).trans (List.length_append ▸ hlen))
  simp only [runBy_of_next hexec] at hwaits hrun
  obtain ⟨t', ht, htook⟩ := hu.run hf (by omega) hlen hwaits
  cases hrun.symm.trans ht
  rw [← List.flatten_cons, hbits, Nat.add_comm] at htook
  obtain ⟨htses, ⟨r, hr, hstatus⟩, hevents⟩ := htook
  obtain ⟨hclean, hst, hbb, hdecoded, hmask, hmsg⟩ :=
    wholeReply_clean hdrain (nextSfn hd s.ses.raSfn) z (more.length + 1)
  rw [htses, hevents, hses]
  exact ⟨⟨r, hr, hstatus.trans hclean⟩, hst, hbb, hdecoded, hmask, hmsg⟩

/-- Settles O54: R182 at the default parameters. -/
theorem framedPathNeverExhausts : Obligations.FramedPathNeverExhausts := by
  intro s ses r hf hm hra hs h
  rw [exec_done _ hf, done_inj] at h
  obtain ⟨rfl, rfl⟩ := h
  obtain ⟨-, hcap, -⟩ := Scope.chip_ok
  obtain ⟨hfatal, h80, hparts⟩ := pipeNextOp_l6_within hcap hm hra hs
  exact ⟨hfatal.trans hf, h80, hparts⟩

end Sys2Proof.ReassemblerFamily
end

section
/-!
SUPPORT. Heads and ST1 messages in the statements' terms: the head value as a number, and what DEC.HEAD and DEC.ST1 answer
by what the head and the entries are (R191, R195, R198, R200, R202).
-/

namespace Sys2Proof.Machine

open Sys2Proof.Statements

/-! ### The head value -/

/-- The value DEC.HEAD returns with a verdict (R195): a head's, and that of the ST10 stub. -/
def headValue : HeadResult → BitVec 64
  | .head hd | .fail10 hd => packHead hd
  | .fail _ => 0

theorem decHeadOp_eq (s : Session) : decHeadOp s =
    (normalize s, { status := headCode (headAt (normalize s).bb), value := headValue (headAt (normalize s).bb) }) := by
  unfold decHeadOp
  dsimp only
  cases headAt (normalize s).bb <;> rfl

section
variable {b : Bits} (hm : uval b 0 12 = 4073)
include hm

theorem packHead_headST1 (hsub : uval b 12 4 = 1) (h : 45 ≤ b.length) :
    (packHead (headST1 b)).toNat = headNum 1 (U b 16 20) (U b 36 4) (U b 40 1) (U b 41 4) 45 := by
  rw [U_eq_uval (by omega), U_eq_uval (by omega), U_eq_uval (by omega), U_eq_uval (by omega), uval_one (by omega),
    packHead_toNat _ (show 45 < 256 by decide)]
  simp only [headST1, field_toNat, hm, hsub]
  rfl

theorem packHead_headST10 (hsub : uval b 12 4 = 10) (h : 28 ≤ b.length) :
    (packHead (headST10 b)).toNat = headNum 10 (U b 16 12) 0 0 0 28 := by
  rw [U_eq_uval (by omega), packHead_toNat _ (show 28 < 256 by decide)]
  simp only [headST10, BitVec.toNat_setWidth_of_le (show 12 ≤ 20 by decide), field_toNat, hm, hsub]
  rfl

theorem packHead_headDependent (h : 37 ≤ b.length) :
    (packHead (headDependent b)).toNat =
      headNum (U b 12 4) (U b 16 12) (U b 28 4) (U b 32 1) (U b 33 4) 37 := by
  rw [U_eq_uval (by omega), U_eq_uval (by omega), U_eq_uval (by omega), U_eq_uval (by omega), U_eq_uval (by omega),
    uval_one (by omega), packHead_toNat _ (show 37 < 256 by decide)]
  simp only [headDependent, BitVec.toNat_setWidth_of_le (show 12 ≤ 20 by decide), field_toNat, hm]
  rfl

end

/-- The head value of the statements' verdict is that of `HeadAt` (R98, R191). -/
theorem verdict_value (b : Bits) : (verdict b).2 = (headValue (headAt b)).toNat := by
  unfold verdict
  by_cases h12 : b.length < 12
  · rw [if_pos h12, headAt, if_pos h12]; rfl
  rw [if_neg h12, U_eq_uval (p := 0) (by omega)]
  by_cases hm : uval b 0 12 ≠ 4073
  · rw [if_pos hm, headAt, if_neg h12, if_pos hm]; rfl
  rw [if_neg hm]
  have hm := not_not.mp hm
  by_cases h16 : b.length < 16
  · rw [if_pos h16, headAt, if_neg h12, if_neg (not_not.mpr hm), if_pos h16]; rfl
  rw [if_neg h16, headAt_of_16 (not_lt.mp h16) hm, ← U_eq_uval (p := 12) (n := 4) (by omega)]
  have hsub : U b 12 4 = uval b 12 4 := U_eq_uval (by omega)
  split_ifs with hbad h10 hshort h1 hshort hshort
  · rfl
  · rfl
  · exact (packHead_headST10 hm (hsub ▸ h10) (not_lt.mp hshort)).symm
  · rfl
  · exact (packHead_headST1 hm (hsub ▸ h1) (not_lt.mp hshort)).symm
  · rfl
  · exact (packHead_headDependent hm (not_lt.mp hshort)).symm

/-! ### The head of a dependent subtype, and subtypes -/

/-- A decoded head's subtype is the four bits behind the message number. -/
theorem subtype_eq_one_iff {b : Bits} {hd : Head} (h : headAt b = .head hd) : hd.subtype = 1 ↔ U b 12 4 = 1 := by
  obtain ⟨h37, hlen⟩ := headAt_len h
  have hsub : hd.subtype = field b 12 4 := by
    obtain ⟨-, ⟨-, -, rfl⟩ | ⟨-, -, rfl⟩⟩ := headAt_head h <;> rfl
  rw [hsub, ← BitVec.toNat_inj, field_toNat, U_eq_uval (by omega)]
  rfl

theorem flag_eq_U {b : Bits} {p : Nat} (h : p < b.length) : flag b p = (U b p 1 == 1) := by
  rw [U_eq_uval (by omega), uval_one h]
  cases flag b p <;> rfl

theorem field_eq_U {b : Bits} {p n : Nat} (h : p + n ≤ b.length) : field b p n = BitVec.ofNat n (U b p n) := by
  rw [field, U_eq_uval h]

/-- A decoded head that is no ST1's is the head the body port is shown (R83, R206). -/
theorem headAt_dependent {b : Bits} {hd : Head} (h : headAt b = .head hd) (hsub : hd.subtype ≠ 1) : hd = portHead b := by
  obtain ⟨hm, ⟨h1, -, rfl⟩ | ⟨-, hlen, rfl⟩⟩ := headAt_head h
  · have : (headST1 b).subtype = 1 := by rw [← BitVec.toNat_inj]; exact (field_toNat b 12 4).trans h1
    exact absurd this hsub
  · have hnum : field b 0 12 = 4073 := by rw [field, hm]; rfl
    have hepoch : (field b 16 12).setWidth 20 = BitVec.ofNat 20 (U b 16 12) := by
      rw [U_eq_uval (by omega), ← field_toNat, BitVec.ofNat_toNat]
    rw [headDependent, portHead, hnum, hepoch, flag_eq_U (by omega), field_eq_U (by omega), field_eq_U (by omega),
      field_eq_U (by omega)]

/-! ### DEC.ST1 -/

section
variable {s : Session}

/-- DEC.ST1 where there is no head answers the head's own code (R202). -/
theorem decSt1Op_no_head (h : headCode (headAt (normalize s).bb) ≠ Status.ok) :
    decSt1Op s = answer (normalize s) (headCode (headAt (normalize s).bb)) := by
  unfold decSt1Op
  dsimp only
  cases hh : headAt (normalize s).bb with
  | head hd => rw [hh] at h; exact absurd rfl h
  | fail c => rfl
  | fail10 hd => rfl

theorem decSt1Op_wrong_subtype {hd : Head} (hh : headAt (normalize s).bb = .head hd) (hsub : hd.subtype ≠ 1) :
    decSt1Op s = answer (normalize s) Status.wrongSubtype := by
  unfold decSt1Op
  dsimp only
  rw [hh]
  exact if_neg hsub

/-- DEC.ST1 on an ST1 head answers with the code the entries fail with (R202). -/
theorem decSt1Op_error {hd : Head} {c : Byte} (hh : headAt (normalize s).bb = .head hd) (hsub : hd.subtype = 1)
    (hst : st1At (normalize s).bb = .error c) : decSt1Op s = answer (normalize s) c := by
  unfold decSt1Op
  dsimp only
  rw [hh]
  dsimp only
  rw [if_pos hsub, hst]

end

/-! ### Truncated and refused ST1 messages -/

section
variable {epoch : BitVec 20} {ui : BitVec 4} {mmi : Bool} {iod : BitVec 4} {es : List MaskEntry} {k : Nat}

/-- The head of a truncated ST1 (R192): incomplete, as it must be below 45 bits, or the ST1's. -/
theorem headAt_take_st1Bits :
    headAt ((st1Bits epoch ui mmi iod es).take k) = .fail Status.needMoreData ∨
      45 ≤ k ∧ headAt ((st1Bits epoch ui mmi iod es).take k) = .head (st1Head epoch ui mmi iod) := by
  refine or_iff_not_imp_left.mpr fun hne => ?_
  have happ := headAt_append ((st1Bits epoch ui mmi iod es).drop k) hne
  rw [List.take_append_drop, st1Bits, (headAt_st1Front _ _).1] at happ
  obtain ⟨-, hlen⟩ := headAt_len happ.symm
  exact ⟨hlen.trans (List.length_take_le _ _), happ.symm⟩

/-- The entries of a truncated ST1 are incomplete (R200). -/
theorem st1At_take_st1Bits (hng : es.length ≤ 15) (hes : ∀ e ∈ es, Sendable e)
    (hk : k < (st1Bits epoch ui mmi iod es).length) :
    st1At ((st1Bits epoch ui mmi iod es).take k) = .error Status.needMoreData := by
  by_contra hne
  have happ := st1At_append ((st1Bits epoch ui mmi iod es).drop k) hne
  have hwhole := st1At_st1Bits (epoch := epoch) (ui := ui) (mmi := mmi) (iod := iod) hng hes []
  rw [List.append_nil] at hwhole
  rw [List.take_append_drop, hwhole] at happ
  obtain ⟨-, -, -, hlen, -⟩ := st1At_ok happ.symm
  have := List.length_take_le k (st1Bits epoch ui mmi iod es)
  omega

/-- An entry with a reserved system id, its 61 bits there, stops the decode behind the entries in front of it (R198). -/
theorem st1At_reserved {ng sys : Nat} {rest : Bits} (hcount : es.length < ng) (hng : ng ≤ 15)
    (hes : ∀ e ∈ es, Sendable e) (hlo : 8 ≤ sys) (hhi : sys ≤ 15) (hrest : 57 ≤ rest.length) :
    st1At (st1Front epoch ui mmi iod ng ++ (es.flatMap entryBits ++ (bitsN 4 sys ++ rest))) =
      .error Status.reservedSystemId := by
  have hn := (headAt_st1Front (epoch := epoch) (ui := ui) (mmi := mmi) (iod := iod) ng
    (es.flatMap entryBits ++ (bitsN 4 sys ++ rest))).2
  generalize hs : st1Front epoch ui mmi iod ng ++ (es.flatMap entryBits ++ (bitsN 4 sys ++ rest)) = b at hn ⊢
  have hdrop : b.drop 49 = es.flatMap entryBits ++ (bitsN 4 sys ++ rest) := by
    rw [← hs]
    exact List.drop_left' (length_st1Front _)
  have hlen : b.length = 49 + ((es.flatMap entryBits).length + (4 + rest.length)) := by
    rw [← hs, List.length_append, List.length_append, List.length_append, length_st1Front, length_bitsN]
  have hsys := uval_of_drop (drop_behind hdrop rfl)
  obtain ⟨m, rfl⟩ : ∃ m, ng = es.length + (m + 1) := ⟨ng - es.length - 1, by omega⟩
  have hstop : st1Entries b (m + 1) (49 + (es.flatMap entryBits).length) = .error Status.reservedSystemId := by
    rw [st1Entries, if_neg (by simp only [Config.gnssEntryBits]; omega), if_pos (by omega)]
  have hread := st1Entries_flatMap hes hdrop (m + 1)
  rw [hstop] at hread
  rw [st1At, if_neg (by simp only [Config.head1Bits]; omega), hn, Nat.mod_eq_of_lt (by omega)]
  exact hread

end

end Sys2Proof.Machine
end

section
/-!
SUPPORT. DEC.DRAIN pass by pass in the statements' terms: what its first pass makes of the front of the unread bits, and what
the command answers where that pass ends the drain and where it goes on (R203, R204, R207 to R210).
-/

namespace Sys2Proof.Machine

open Sys2Proof.Statements

/-! ### One pass by the head of the bits -/

theorem uval_of_allZero {b : Bits} {p n : Nat} (hz : allZero b = true) (h : p + n ≤ b.length) : uval b p n = 0 := by
  rw [uval_eq_sum h]
  refine Finset.sum_eq_zero fun i hi => ?_
  have hlt : p + i < b.length := by have := Finset.mem_range.mp hi; omega
  have hbit : b.getD (p + i) false = false := by
    rw [List.getD_eq_getElem _ _ hlt]
    exact (allZero_iff b).mp hz _ (List.getElem_mem hlt)
  rw [hbit, Bool.toNat_false, Nat.zero_mul]

theorem exists_one_of_allZero {b : Bits} (hz : allZero b = false) : ∃ x ∈ b, x = true := by
  simpa [allZero] using hz

/-- Bits that begin with a head are not all zero: the message number is not 0. -/
theorem allZero_of_head {b : Bits} {hd : Head} (h : headAt b = .head hd) : allZero b = false := by
  obtain ⟨hm, -⟩ := headAt_head h
  obtain ⟨h37, hlen⟩ := headAt_len h
  refine Bool.eq_false_iff.mpr fun hz => ?_
  rw [uval_of_allZero hz (by omega)] at hm
  exact absurd hm (by decide)

section
variable {C : Chip} {s : Session} {hd : Head}

theorem drainPass_allZero (hz : allZero s.bb = true) :
    drainPass C s = .stop .clean (clearBits (addNull s s.bb.length)) [.cleanEnd s.bb.length] := if_pos hz

/-- A pass that finds no head waits for the rest of it, or drops the buffer (R207, R209). -/
theorem drainPass_no_head (hz : allZero s.bb = false) (h : headCode (headAt s.bb) ≠ Status.ok) :
    drainPass C s = if headCode (headAt s.bb) = Status.needMoreData then .stop .needMore s []
      else dropAll s (headCode (headAt s.bb)) := by
  rw [drainPass, if_neg (Bool.eq_false_iff.mp hz)]
  cases hh : headAt s.bb with
  | fail c => rfl
  | fail10 _ => rfl
  | head hd => rw [hh] at h; exact absurd rfl h

theorem drainPass_head (h : headAt s.bb = .head hd) :
    drainPass C s = if hd.subtype = 1 then passST1 s hd else passBody C s hd := by
  rw [drainPass, if_neg (Bool.eq_false_iff.mp (allZero_of_head h)), h]

/-- A pass on an ST1 head whose entries do not decode waits for the rest of them, or drops the buffer. -/
theorem drainPass_st1_error {c : Byte} (h : headAt s.bb = .head hd) (hsub : hd.subtype = 1) (hst : st1At s.bb = .error c) :
    drainPass C s = if c = Status.needMoreData then .stop .needMore s [] else dropAll s c := by
  rw [drainPass_head h, if_pos hsub, passST1, hst]

theorem drainPass_st1_ok {es : List MaskEntry} {n : Nat} (h : headAt s.bb = .head hd) (hsub : hd.subtype = 1)
    (hst : st1At s.bb = .ok (es, n)) : drainPass C s = .go (applyST1 s hd es n) (.maskUpdate n) := by
  rw [drainPass_head h, if_pos hsub, passST1, hst]

theorem drainPass_no_mask (h : headAt s.bb = .head hd) (hsub : hd.subtype ≠ 1) (hv : s.mask.valid = false) :
    drainPass C s = dropAll s Status.maskNotEstablished := by
  rw [drainPass_head h, if_neg hsub, passBody, if_neg (Bool.eq_false_iff.mp hv)]

section
variable (h : headAt s.bb = .head hd) (hsub : hd.subtype ≠ 1) (hv : s.mask.valid = true)
include h hsub hv

/-! Behind the gate of R203 a dependent subtype is what the body decoder says (R206). -/

theorem drainPass_body_waits (hans : C.body.answer s.mask hd (isStale s hd) (s.bb.drop hd.len) = .needMoreData) :
    drainPass C s = .stop .needMore s [] := by
  rw [drainPass_head h, if_neg hsub, passBody, if_pos hv, hans]

theorem drainPass_body_rejects {c : BodyReject}
    (hans : C.body.answer s.mask hd (isStale s hd) (s.bb.drop hd.len) = .reject c) :
    drainPass C s = dropAll s (rejectCode c) := by
  rw [drainPass_head h, if_neg hsub, passBody, if_pos hv, hans]

theorem drainPass_body_consumes {nb : Nat} {rec : Bits}
    (hans : C.body.answer s.mask hd (isStale s hd) (s.bb.drop hd.len) = .consumed nb rec) :
    drainPass C s = .go (cutFront (addMsg s (hd.len + nb)) (hd.len + nb))
      (.record hd.subtype (isStale s hd) (hd.len + nb) rec) := by
  rw [drainPass_head h, if_neg hsub, passBody, if_pos hv, hans]

end

/-- What waits begins with the message number once its 12 bits are there (R191, R210). -/
theorem drainPass_wait_number {s' : Session} {last : List Event} (h : drainPass C s = .stop .needMore s' last)
    (h12 : 12 ≤ s.bb.length) : uval s.bb 0 12 = 4073 := by
  by_contra hm
  obtain ⟨-, -, hz⟩ := drainPass_wait h
  have hh : headAt s.bb = .fail Status.unknownMessageNumber := by rw [headAt, if_neg (not_lt.mpr h12), if_pos hm]
  have hcode : headCode (headAt s.bb) = 0x03 := by rw [hh]; rfl
  rw [drainPass_no_head hz (by rw [hcode]; decide), hcode, if_neg (by decide)] at h
  cases h

end

/-! ### The command by its first pass -/

theorem decDrainOp_stop {C : Chip} {s s' : Session} {e : DrainEnd} {last : List Event}
    (h : drainPass C (normalize s) = .stop e s' last) : decDrainOp C s =
      (s', { status := drainStatus e, value := BitVec.ofNat 64 s'.bb.length, events := last }) := by
  rw [decDrainOp, ← drain_normalize, drain_stop rfl h]

/-- After a pass that goes on, DEC.DRAIN is DEC.DRAIN of what that pass left, the pass's event in front. -/
theorem decDrainOp_go {C : Chip} {s s' : Session} {ev : Event} (h : drainPass C (normalize s) = .go s' ev) :
    decDrainOp C s =
      ((decDrainOp C s').1, { (decDrainOp C s').2 with events := ev :: (decDrainOp C s').2.events }) := by
  rw [decDrainOp, ← drain_normalize, drain_go rfl h]
  rfl

section
variable {s : State} (hf : s.ses.fatal = 0)
include hf

theorem exec_drain_clean (hz : allZero (unread s) = true) : exec .decDrain s =
    done s
      { s.ses with bb := [], bbPos := 0, statNull := s.ses.statNull + BitVec.ofNat 32 (unread s).length }
      { status := 0x00, events := [.cleanEnd (unread s).length] } := by
  rw [exec_done _ hf, sessionOp, decDrainOp_stop (drainPass_allZero (s := normalize s.ses) hz)]
  rfl

theorem exec_drain_wait (h : drainPass Config.chip (normalize s.ses) = .stop .needMore (normalize s.ses) []) :
    exec .decDrain s = done s (cut s) { status := 0x01, value := BitVec.ofNat 64 (unread s).length } := by
  rw [exec_done _ hf, sessionOp, decDrainOp_stop h]
  rfl

theorem exec_drain_drop {c : Byte} (h : drainPass Config.chip (normalize s.ses) = dropAll (normalize s.ses) c) :
    exec .decDrain s =
      done s
        { s.ses with bb := [], bbPos := 0, statDrop := s.ses.statDrop + BitVec.ofNat 32 (unread s).length }
        { status := c, events := [.error c (unread s).length] } := by
  rw [exec_done _ hf, sessionOp, decDrainOp_stop h]
  rfl

theorem exec_drain_go {s' : Session} {ev : Event} (h : drainPass Config.chip (normalize s.ses) = .go s' ev) :
    exec .decDrain s = before [ev] (exec .decDrain { s with ses := s' }) := by
  have hf' : s'.fatal = 0 := (drainPass_go_frame h).fatal.trans hf
  rw [exec_done _ hf, exec_done (s := { s with ses := s' }) _ hf', sessionOp, decDrainOp_go h]
  rfl

/-- On an ST1 message the drain is what DEC.ST1 makes of it, and goes on from there where that decodes (R207). -/
theorem exec_drain_st1 {hd : Head} (hhd : headAt (unread s) = .head hd) (hsub : hd.subtype = 1) :
    exec .decDrain s =
      if (decSt1Op s.ses).2.status = 0x00 then
        before (decSt1Op s.ses).2.events (exec .decDrain { s with ses := (decSt1Op s.ses).1 })
      else if (decSt1Op s.ses).2.status = 0x01 then
        done s (cut s) { status := 0x01, value := BitVec.ofNat 64 (unread s).length }
      else
        done s
          { s.ses with bb := [], bbPos := 0, statDrop := s.ses.statDrop + BitVec.ofNat 32 (unread s).length }
          { status := (decSt1Op s.ses).2.status, events := [.error (decSt1Op s.ses).2.status (unread s).length] } := by
  have hhd : headAt (normalize s.ses).bb = .head hd := hhd
  cases hst : st1At (normalize s.ses).bb with
  | ok r =>
    obtain ⟨es, n⟩ := r
    rw [decSt1Op_ok hhd hsub hst, if_pos rfl]
    exact exec_drain_go hf (drainPass_st1_ok hhd hsub hst)
  | error c =>
    have hpass := drainPass_st1_error (C := Config.chip) hhd hsub hst
    have hstatus : (decSt1Op s.ses).2.status = c := by rw [decSt1Op_error hhd hsub hst]; rfl
    rw [hstatus]
    rcases st1At_error hst with rfl | rfl
    · rw [if_neg (by decide), if_pos (by rfl)]
      exact exec_drain_wait hf hpass
    · rw [if_neg (by decide), if_neg (by decide)]
      exact exec_drain_drop hf hpass

end

/-! ### All passes -/

theorem eventBits_eq_bitsOut : eventBits = bitsOut := by
  funext e
  cases e <;> rfl

/-- What DEC.DRAIN leaves (R210): the bits its events do not account for, and, if it waits, a session on which a pass
waits again. -/
theorem decDrainOp_leaves (C : Chip) (s : Session) :
    (decDrainOp C s).1.bbPos = 0 ∧
    (decDrainOp C s).1.bb = (normalize s).bb.drop ((decDrainOp C s).2.events.map bitsOut).sum ∧
    ((decDrainOp C s).2.events.map bitsOut).sum ≤ (normalize s).bb.length ∧
    ((decDrainOp C s).2.status ≠ Status.needMoreData → (decDrainOp C s).1.bb = []) ∧
    ((decDrainOp C s).2.status = Status.needMoreData →
      drainPass C (decDrainOp C s).1 = .stop .needMore (decDrainOp C s).1 []) := by
  have hcodes : ∀ c ∈ [(0x03 : Byte), 0x04, 0x05, 0x07, 0x08, 0x0C, 0x0F], c ≠ Status.needMoreData := by decide
  have hleaves := drain_leaves C (normalize s) rfl
  rw [drain_normalize, eventBits_eq_bitsOut] at hleaves
  rw [decDrainOp]
  rcases hd : drain C s [] with ⟨t, e, evs⟩
  rw [hd] at hleaves
  obtain ⟨hpos, hbb, hsum, hend⟩ := hleaves
  refine ⟨hpos, hbb, hsum, ?_⟩
  cases e with
  | clean => exact ⟨fun _ => hend, fun h => absurd h (by decide : Status.ok ≠ Status.needMoreData)⟩
  | needMore => exact ⟨fun h => absurd rfl h, fun _ => hend⟩
  | discarded c => exact ⟨fun _ => hend.1, fun h => absurd h (hcodes c hend.2)⟩

end Sys2Proof.Machine
end

section
/-!
SUPPORT. The mask table through every command (R205), and what MASK.RD answers (R214).
-/

namespace Sys2Proof.Machine

open Sys2Proof.Statements

/-! ### The life of the mask table -/

/-- What R205 asks of a command that found the table `m`, left `m'` and reported `evs`: the table is kept, or replaced by an
established one with a MASK_UPDATE; and an established table stays established. -/
def TableLives (m m' : MaskTable) (evs : List Event) : Prop :=
  (m' = m ∨ m'.valid = true ∧ ∃ n, Event.maskUpdate n ∈ evs) ∧ (m.valid = true → m'.valid = true)

theorem tableLives_of_eq {m m' : MaskTable} (h : m' = m) (evs : List Event) : TableLives m m' evs :=
  ⟨.inl h, fun hv => by rw [h, hv]⟩

theorem TableLives.mono {m m' : MaskTable} {evs evs' : List Event} (h : TableLives m m' evs) (hsub : evs ⊆ evs') :
    TableLives m m' evs' := by
  obtain ⟨hkept, hvalid⟩ := h
  exact ⟨hkept.imp_right fun ⟨hv, n, hn⟩ => ⟨hv, n, hsub hn⟩, hvalid⟩

theorem tableLives_decSt1Op (s : Session) : TableLives s.mask (decSt1Op s).1.mask (decSt1Op s).2.events := by
  unfold decSt1Op
  dsimp only
  split
  · exact tableLives_of_eq rfl _
  · exact tableLives_of_eq rfl _
  · split
    · split
      · exact tableLives_of_eq rfl _
      · exact ⟨.inr ⟨rfl, _, List.mem_singleton_self _⟩, fun _ => rfl⟩
    · exact tableLives_of_eq rfl _

theorem tableLives_drain (C : Chip) (s : Session) : TableLives s.mask (drain C s []).1.mask (drain C s []).2.2 := by
  have h := drain_mask C (normalize s) rfl
  rw [drain_normalize] at h
  exact h

/-- The end of RA.FRAG leaves the table its drain left, and reports all that the drain has reported. -/
theorem raFinish_reports (s : Session) (e : DrainEnd) (evs : List Event) :
    (raFinish (s, e, evs)).1.mask = s.mask ∧ evs ⊆ (raFinish (s, e, evs)).2.events := by
  rcases raFinish_cases s e evs with ⟨-, k⟩ | ⟨c, -, k⟩ | ⟨-, -, k⟩ | ⟨-, -, k⟩ <;> rw [k]
  · exact ⟨rfl, List.Subset.refl evs⟩
  · exact ⟨rfl, List.Subset.refl evs⟩
  · exact ⟨rfl, List.subset_append_left evs _⟩
  · exact ⟨rfl, List.Subset.refl evs⟩

theorem tableLives_raFinish_drain (C : Chip) (s : Session) (evs : List Event) :
    TableLives s.mask (raFinish (drain C s evs)).1.mask (raFinish (drain C s evs)).2.events := by
  obtain ⟨hmask, hsub⟩ := raFinish_reports (drain C s []).1 (drain C s []).2.1 (evs ++ (drain C s []).2.2)
  rw [drain_events, hmask]
  exact (tableLives_drain C s).mono fun _ h => hsub (List.mem_append_right evs h)

theorem abandon_mask (s : Session) : (abandon s).1.mask = s.mask := by
  unfold abandon
  cases s.raState <;> rfl

theorem tableLives_raStart (C : Chip) (p : Bits) (s : Session) :
    TableLives s.mask (raStart C p s).1.mask (raStart C p s).2.events := by
  rcases raStart_cases C p s with ⟨-, e⟩ | ⟨-, hd, -, e⟩ | ⟨-, -, e⟩ <;> rw [e]
  · exact tableLives_of_eq rfl _
  · exact abandon_mask s ▸ tableLives_raFinish_drain C (started (abandon s).1 hd p) _
  · exact tableLives_of_eq (abandon_mask s) _

theorem tableLives_raContinue (C : Chip) (p : Bits) (s : Session) :
    TableLives s.mask (raContinue C p s).1.mask (raContinue C p s).2.events := by
  rcases raContinue_cases C p s with ⟨-, e⟩ | ⟨-, -, e⟩ | ⟨-, -, e⟩ <;> rw [e]
  · exact tableLives_of_eq rfl _
  · exact tableLives_of_eq rfl _
  · exact tableLives_raFinish_drain C (continued s p) []

theorem tableLives_raFragOp (C : Chip) (sf : Bool) (p : Bits) (s : Session) :
    TableLives s.mask (raFragOp C sf p s).1.mask (raFragOp C sf p s).2.events := by
  cases sf
  · exact tableLives_raContinue C p s
  · exact tableLives_raStart C p s

/-- PIPE.NEXT where FS.STEP removes a frame is RA.FRAG on some fragment, but for its value (R235). -/
theorem pipeNextOp_fragment {C : Chip} {s t : Session} {r : Response} (hr : fsStepOp C s = (t, r))
    (hok : r.status = Status.ok) :
    ∃ sf p v, pipeNextOp C s = ((raFragOp C sf p t).1,
      { status := (raFragOp C sf p t).2.status, value := v, events := (raFragOp C sf p t).2.events }) :=
  ⟨_, _, _, pipeNextOp_of_frame hr hok⟩

theorem tableLives_pipeNextOp (C : Chip) (s : Session) :
    TableLives s.mask (pipeNextOp C s).1.mask (pipeNextOp C s).2.events := by
  obtain ⟨hmask, -⟩ : Element.Same s (fsStepOp C s).1 .table := fsStepOp_writes C s .table (by decide)
  rcases hr : fsStepOp C s with ⟨t, r⟩
  rw [hr] at hmask
  by_cases hok : r.status = Status.ok
  · obtain ⟨sf, p, v, e⟩ := pipeNextOp_fragment hr hok
    rw [e, ← hmask]
    exact tableLives_raFragOp C sf p t
  · rw [pipeNextOp_of_no_frame hr hok]
    exact tableLives_of_eq hmask _

/-- Every command but RESET: four may decode an ST1, the others do not write the table (R45). -/
theorem tableLives_sessionOp (C : Chip) {i : Instr} (hi : i ≠ .reset) (s : Session) :
    TableLives s.mask (sessionOp C i s).1.mask (sessionOp C i s).2.events := by
  by_cases hw : .table ∈ writeSet i
  · cases i with
    | reset => exact absurd rfl hi
    | raFrag sf p => exact tableLives_raFragOp C sf p s
    | decSt1 => exact tableLives_decSt1Op s
    | decDrain => exact tableLives_drain C s
    | pipeNext => exact tableLives_pipeNextOp C s
    | _ => simp [writeSet] at hw
  · obtain ⟨hmask, -⟩ : Element.Same s (sessionOp C i s).1 .table := sessionOp_writes C i s .table hw
    exact tableLives_of_eq hmask _

/-! ### MASK.RD -/

theorem done_answerValue (s : State) {v : BitVec 64} {n : Nat} (h : v = BitVec.ofNat 64 n) :
    done s (answerValue s.ses v).1 (answerValue s.ses v).2 =
      done s s.ses { status := 0x00, value := BitVec.ofNat 64 n } := by
  rw [h]
  rfl

/-- The fields above 6 are the ten words of the cell mask, and nothing else (R214). -/
theorem maskField_cells (s : Session) (e : MaskEntry) (n : Nat) : maskField s e (n + 7) =
    if n + 7 < 16 ∨ 25 < n + 7 ∨ e.cell.length ≤ 64 * (n + 7 - 16) then answer s Status.illegalOperand
    else
      (s, { status := 0x00,
            value := BitVec.ofNat 64 (U e.cell (64 * (n + 7 - 16)) (min 64 (e.cell.length - 64 * (n + 7 - 16)))),
            data := .bits ((e.cell.drop (64 * (n + 7 - 16))).take (min 64 (e.cell.length - 64 * (n + 7 - 16)))) }) := by
  have hrange : maskField s e (n + 7) =
      if 16 ≤ n + 7 ∧ n + 7 ≤ 25 then cellWord s e (n + 7 - 16) else answer s Status.illegalOperand := rfl
  rw [hrange]
  by_cases hn : 16 ≤ n + 7 ∧ n + 7 ≤ 25
  · rw [if_pos hn, cellWord]
    by_cases hlen : e.cell.length ≤ 64 * (n + 7 - 16)
    · rw [if_pos hlen, if_pos (.inr (.inr hlen))]
    · rw [if_neg hlen, if_neg (by omega), U_eq_uval (by omega)]
      rfl
  · rw [if_neg hn, if_pos (by omega)]

theorem maskRdOp_no_table {i f : Nat} {s : Session} (hv : s.mask.valid = false) :
    maskRdOp i f s = answer s Status.maskNotEstablished := if_neg (Bool.eq_false_iff.mp hv)

theorem maskRdOp_no_entry {i f : Nat} {s : Session} (hv : s.mask.valid = true) (hi : s.mask.ngnss.toNat ≤ i) :
    maskRdOp i f s = answer s Status.illegalOperand := (if_pos hv).trans (if_pos hi)

theorem maskRdOp_entry {i f : Nat} {s : Session} {e : MaskEntry} (hv : s.mask.valid = true)
    (hi : i < s.mask.ngnss.toNat) (he : s.mask.entries[i]? = some e) : maskRdOp i f s = maskField s e f := by
  rw [maskRdOp, if_pos hv, if_neg (not_le.mpr hi), he]

end Sys2Proof.Machine
end

section
/-!
The statements on heads, ST1 messages, the drain and the mask table.
-/

namespace Sys2Proof.MaskTableFamily

open Sys2Proof.Machine Sys2Proof.Statements

/-- Settles O36: DEC.HEAD answers the verdict of `HeadAt`, whose code and value are those of the statements' verdict. -/
theorem headIsExaminedNotConsumed : Obligations.HeadIsExaminedNotConsumed := by
  refine ⟨encodes_decHead, fun s hf => ?_⟩
  rw [exec_done _ hf, sessionOp, decHeadOp_eq, verdict_code, verdict_value, BitVec.ofNat_toNat, BitVec.setWidth_eq]
  rfl

/-- Settles O38: what decodes from the first bits stands whatever follows (`headAt_append`, `st1At_append`), so a truncated
ST1 decodes to nothing, neither its entries nor, below 45 bits, its head. -/
theorem truncatedSt1NeedsMore : Obligations.TruncatedSt1NeedsMore := by
  intro s epoch ui mmi iod es k hf hng hes hk hunread
  have hbb : (normalize s.ses).bb = (st1Bits epoch ui mmi iod es).take k := hunread
  have hst := st1At_take_st1Bits hng hes hk
  have hhead := headAt_take_st1Bits (epoch := epoch) (ui := ui) (mmi := mmi) (iod := iod) (es := es) (k := k)
  rw [← hbb] at hst hhead
  rw [exec_done _ hf, exec_done _ hf, sessionOp, sessionOp, decHeadOp_eq]
  rcases hhead with hshort | ⟨h45, hhead⟩
  · rw [decSt1Op_no_head (by rw [hshort]; decide), hshort]
    exact ⟨rfl, fun _ => rfl⟩
  · rw [decSt1Op_error hhead rfl hst]
    exact ⟨rfl, fun hlt => absurd h45 (not_le.mpr hlt)⟩

/-- Settles O39: the refusals of DEC.ST1 by what the head and the entries are; the drain drops on the same entry. -/
theorem st1RefusalsDropNothing : Obligations.St1RefusalsDropNothing := by
  intro s hf
  refine ⟨fun hcode => ?_, fun hok hsub => ?_, ?_⟩
  · rw [verdict_code] at hcode ⊢
    rw [exec_done _ hf, sessionOp, decSt1Op_no_head (s := s.ses) hcode]
    rfl
  · obtain ⟨hd, hhd⟩ := verdict_ok_iff.mp hok
    rw [exec_done _ hf, sessionOp, decSt1Op_wrong_subtype (s := s.ses) hhd (mt (subtype_eq_one_iff hhd).mp hsub)]
    rfl
  · intro epoch ui mmi iod ng es sys rest hcount hng hes hlo hhi hrest hunread
    rw [List.append_assoc, List.append_assoc] at hunread
    have hbb : (normalize s.ses).bb = _ := hunread
    have hhead := (headAt_st1Front (epoch := epoch) (ui := ui) (mmi := mmi) (iod := iod) ng
      (es.flatMap entryBits ++ (bitsN 4 sys ++ rest))).1
    have hst := st1At_reserved (epoch := epoch) (ui := ui) (mmi := mmi) (iod := iod) hcount hng hes hlo hhi hrest
    rw [← hbb] at hhead hst
    refine ⟨?_, exec_drain_drop hf (drainPass_st1_error hhead rfl hst)⟩
    rw [exec_done _ hf, sessionOp, decSt1Op_error hhead rfl hst]
    rfl

/-- Settles O40: what the first pass makes of the front of the unread bits, and the drain from there. -/
theorem drainMessageByMessage : Obligations.DrainMessageByMessage := by
  refine ⟨encodes_decDrain, fun s hf => ?_⟩
  intro b drop wait
  by_cases hzero : ∀ x ∈ b, x = false
  · rw [if_pos hzero]
    exact exec_drain_clean hf ((allZero_iff b).mpr hzero)
  rw [if_neg hzero]
  have hz : allZero b = false := Bool.eq_false_iff.mpr (mt (allZero_iff b).mp hzero)
  by_cases hok : (verdict b).1 = 0x00
  case neg =>
    rw [verdict_code] at hok ⊢
    have hpass := drainPass_no_head (C := Config.chip) (s := normalize s.ses) hz hok
    by_cases hshort : headCode (headAt b) = 0x01
    · rw [if_pos hshort]
      exact exec_drain_wait hf (hpass.trans (if_pos hshort))
    · rw [if_neg hshort, if_pos hok]
      exact exec_drain_drop hf (hpass.trans (if_neg hshort))
  rw [hok, if_neg (by decide), if_neg (by decide)]
  obtain ⟨hd, hhd⟩ := verdict_ok_iff.mp hok
  have hsub := subtype_eq_one_iff hhd
  by_cases h1 : U b 12 4 = 1
  · rw [if_pos h1]
    exact ⟨_, _, exec_done .decSt1 hf, exec_drain_st1 hf hhd (hsub.mpr h1)⟩
  rw [if_neg h1]
  have hsub := mt hsub.mp h1
  cases hv : s.ses.mask.valid with
  | false =>
    rw [if_pos rfl]
    exact exec_drain_drop hf (drainPass_no_mask hhd hsub hv)
  | true =>
    rw [if_neg (by decide)]
    intro hd' stale
    obtain rfl : hd = portHead b := headAt_dependent hhd hsub
    cases hans : Config.chip.body.answer s.ses.mask hd' stale (b.drop 37) with
    | needMoreData => exact exec_drain_wait hf (drainPass_body_waits (s := normalize s.ses) hhd hsub hv hans)
    | reject c =>
      have hdrop := exec_drain_drop hf (drainPass_body_rejects (s := normalize s.ses) hhd hsub hv hans)
      cases c <;> exact hdrop
    | consumed nb rec => exact exec_drain_go hf (drainPass_body_consumes (s := normalize s.ses) hhd hsub hv hans)

/-- Settles O41: `decDrainOp_leaves`, and what a pass waits on. -/
theorem drainConservesBits : Obligations.DrainConservesBits := by
  intro s hf
  refine ⟨_, _, exec_done .decDrain hf, ?_⟩
  obtain ⟨hpos, hbb, hsum, hdone, hwaits⟩ := decDrainOp_leaves Config.chip s.ses
  refine ⟨?_, hpos, rfl, hdone, fun hwait => ?_⟩
  · have hlen := congrArg List.length hbb
    rw [List.length_drop] at hlen
    exact (Nat.add_comm _ _).trans (hlen ▸ Nat.sub_add_cancel hsum)
  · have hpass := hwaits hwait
    obtain ⟨-, -, hz⟩ := drainPass_wait hpass
    exact ⟨exists_one_of_allZero hz, fun h12 => (U_eq_uval h12).trans (drainPass_wait_number hpass h12), hbb⟩

/-- Settles O44: a command answers with its session operation, or, behind a set latch, with the session it was given. -/
theorem maskLivesUntilTheNextSt1 : Obligations.MaskLivesUntilTheNextSt1 := by
  intro i s ses r h hop
  obtain ⟨q, hq, hcases⟩ := exec_cases i s
  obtain ⟨rfl, rfl⟩ := done_inj.mp (hq.symm.trans h)
  rcases hcases with rfl | ⟨-, -, rfl⟩
  · exact tableLives_sessionOp Config.chip (mt opcode_eq_reset.mpr hop) s.ses
  · exact tableLives_of_eq rfl _

/-- Settles O45: the answers of MASK.RD in the rule's order; below `mask_ngnss` there is an entry by R35. -/
theorem maskReadOut : Obligations.MaskReadOut := by
  refine ⟨encodes_maskRd, fun i f s hf ⟨hcount, _, _⟩ => ?_⟩
  have hrun := exec_done (.maskRd i f) hf
  rw [sessionOp] at hrun
  cases hv : s.ses.mask.valid with
  | false =>
    rw [if_pos rfl, hrun, maskRdOp_no_table hv]
    rfl
  | true =>
    rw [if_neg (by decide)]
    by_cases hi : i.toNat ≥ s.ses.mask.ngnss.toNat
    · rw [if_pos hi, hrun, maskRdOp_no_entry hv hi]
      rfl
    rw [if_neg hi]
    have hi := not_le.mp hi
    have he := List.getElem?_eq_getElem (hcount ▸ hi : i.toNat < s.ses.mask.entries.length)
    refine ⟨_, he, ?_⟩
    generalize s.ses.mask.entries[i.toNat] = e at he
    intro nc num
    rw [hrun, maskRdOp_entry hv hi he]
    generalize f.toNat = n
    match n with
    | 0 => exact done_answerValue s (BitVec.ofNat_toNat 64 e.sys).symm
    | 1 => exact done_answerValue s (BitVec.ofNat_toNat 64 e.sat).symm
    | 2 => exact done_answerValue s (BitVec.ofNat_toNat 64 e.sig).symm
    | 3 => exact done_answerValue s rfl
    | 4 => exact done_answerValue s (congrArg _ (popcount_eq_ones e.sat))
    | 5 => exact done_answerValue s (congrArg _ (popcount_eq_ones e.sig))
    | 6 => exact done_answerValue s rfl
    | n + 7 =>
      rw [maskField_cells]
      by_cases hbad : n + 7 < 16 ∨ 25 < n + 7 ∨ e.cell.length ≤ 64 * (n + 7 - 16)
      · rw [if_pos hbad]
        exact (if_pos hbad).symm
      · rw [if_neg hbad]
        exact (if_neg hbad).symm

end Sys2Proof.MaskTableFamily
end

section
/-!
SUPPORT. The encoded frame as the synchroniser reads it, the fragment PIPE.NEXT hands on in the statements' terms, and the
one way PIPE.NEXT sets the latch.
-/

namespace Sys2Proof.Machine

open Sys2Proof.Statements

/-! ### The encoded frame -/

theorem rtcmFrame_eq_frameOf (p : Bytes) : rtcmFrame Config.chip p = frameOf p :=
  rtcmFrame_eq (C := Config.chip) rfl p

theorem head?_frameOf (p : Bytes) : (frameOf p).head? = some 0xD3 := rfl

theorem length_frameOf (p : Bytes) : (frameOf p).length = p.length + 6 := by
  simp only [frameOf, trailer, List.length_append, List.length_cons, List.length_nil]
  omega

/-- A length of ten bits stands whole in its two bytes (R76). -/
theorem declared_frameOf {p : Bytes} (h : p.length ≤ 1023) : declared (frameOf p) = p.length := by
  show (BitVec.ofNat 8 (p.length / 256)).toNat % 4 * 256 + (BitVec.ofNat 8 p.length).toNat = p.length
  rw [BitVec.toNat_ofNat, BitVec.toNat_ofNat]
  omega

theorem total_frameOf {p : Bytes} (h : p.length ≤ 1023) : total .rtcm3 (frameOf p) = (frameOf p).length := by
  rw [total, declared_frameOf h, length_frameOf, Nat.add_comm]

/-- The reserved bits of an encoded frame are 0, so that its frame value is the length (R73, R154). -/
theorem frameNum_frameOf {p : Bytes} (h : p.length ≤ 1023) : frameNum .rtcm3 (frameOf p) = p.length := by
  have hreserved : ((frameOf p).getD 1 0).toNat / 4 = 0 := by
    show (BitVec.ofNat 8 (p.length / 256)).toNat / 4 = 0
    rw [BitVec.toNat_ofNat]
    omega
  rw [frameNum, declared_frameOf h, hreserved]
  rfl

theorem frameBytes_frameOf {p : Bytes} (h : p.length ≤ 1023) : frameBytes .rtcm3 (frameOf p) = p := by
  rw [frameBytes, declared_frameOf h]
  exact List.take_left

/-- CRC.VERIFY accepts an encoded frame: its trailer is the CRC of what stands in front (R137, R231). -/
theorem crcVerdict_frameOf (p : Bytes) : crcVerdict Config.chip (frameOf p) = true := by
  rw [← rtcmFrame_eq_frameOf]
  exact crcVerdict_append_bytes24 Config.chip (rtcmHeader p.length ++ p)

/-- FS.STEP in mode 0 on exactly the encoded frame of a payload returns the payload and empties the buffer (R234). -/
theorem fsStepOp_frameOf {s : Session} {p : Bytes} (hm : s.fsMode = .rtcm3) (hbuf : s.fsBuf = frameOf p)
    (h : p.length ≤ 1023) :
    fsStepOp Config.chip s =
      ({ s with fsBuf := [], fsState := .validated, fsLen := BitVec.ofNat 10 p.length },
        { status := 0x00, value := BitVec.ofNat 64 p.length, data := .bytes p }) := by
  have hT := total_frameOf h
  obtain ⟨-, hcrc⟩ := (crcVerdict_iff (C := Config.chip) rfl _).mp (crcVerdict_frameOf p)
  have hfront : s.fsBuf = [] ++ frameOf p := hbuf
  rw [fsStepOp_rtcm3 rfl hm hfront List.not_mem_nil (head?_frameOf p) hT.le, hT, List.take_length, List.drop_length,
    if_pos hcrc, declared_frameOf h, frameNum_frameOf h, frameBytes_frameOf h]

/-! ### The fragment PIPE.NEXT hands on -/

theorem firstBits_all (b : Bytes) : firstBits b (8 * b.length) = bitsOf b := by
  rw [firstBits_eq_take le_rfl, ← length_bitsOf, List.take_length]

/-- The first bits of a byte string are those of its front. -/
theorem firstBits_take (b : Bytes) {n k : Nat} (h : n ≤ 8 * k) : firstBits (b.take k) n = firstBits b n := by
  refine List.map_congr_left fun j hj => ?_
  have hjk : j / 8 < k := by
    have := List.mem_range.mp hj
    omega
  rw [List.getD_eq_getElem?_getD, List.getElem?_take_of_lt hjk, ← List.getD_eq_getElem?_getD]

/-- In mode 0 the whole payload is a start fragment (R235). -/
theorem fragmentOf_rtcm3 (C : Chip) {r : Response} {b : Bytes} (hb : r.data = .bytes b) :
    fragmentOf C .rtcm3 r = (true, firstBits b (8 * b.length)) := by
  rw [firstBits_all, fragmentOf, hb]
  rfl

section
variable {s t : Session} {r : Response}

/-- The payload FS.STEP returns in mode 0 is at most 1023 bytes (R76, R154). -/
theorem fsStepOp_ok_data_rtcm3 (hm : s.fsMode = .rtcm3) (h : fsStepOp Config.chip s = (t, r))
    (hok : r.status = Status.ok) : ∃ b, r.data = .bytes b ∧ b.length ≤ 1023 := by
  obtain ⟨-, F, -, ⟨-, -, hL, -⟩, hdata⟩ := fsStepOp_ok_rtcm3 hm h hok
  have hdeclared : declared F < 1024 := declaredLength_eq F ▸ declaredLength_lt F
  refine ⟨_, hdata, ?_⟩
  rw [List.length_take]
  omega

/-- In mode 1 the fragment is cut from the 1696 bits of the data FS.STEP returns (R79, R80, R236). -/
theorem fsStepOp_ok_fragment_l6 {C : Chip} (hm : s.fsMode = .l6) (h : fsStepOp C s = (t, r))
    (hok : r.status = Status.ok) :
    ∃ b, r.data = .bytes b ∧ fragmentOf C .l6 r =
      (r.value.toNat % 2 == 1, ((firstBits b 1696).drop C.fragSkipBits).take C.fragPayloadBits) := by
  obtain ⟨-, F, -, hF, -, -, -, hdata⟩ := fsStepOp_ok_l6 hm h hok
  refine ⟨_, hdata, ?_⟩
  rw [fragmentOf_l6 C hF hdata, ← firstBits_take (F.drop 6) (by decide : 1696 ≤ 8 * 212)]
  rfl

/-- FS.STEP that returns a frame is VALIDATED (R153). -/
theorem fsStepOp_ok_fsState {C : Chip} (h : fsStepOp C s = (t, r)) (hok : r.status = Status.ok) :
    t.fsState = .validated := by
  obtain ⟨buf, -, ⟨-, e⟩ | ⟨-, -, e⟩ | ⟨-, -, -, e⟩ | ⟨-, -, -, e⟩⟩ := fsStepOp_cases C s <;> rw [h] at e <;> cases e
  · cases hok
  · cases hok
  · rfl
  · cases hok

/-- FS.STEP stays in its mode (R153). -/
theorem fsStepOp_fsMode {C : Chip} (h : fsStepOp C s = (t, r)) : t.fsMode = s.fsMode := by
  have hmode : (fsStepOp C s).1.fsMode = s.fsMode := fsStepOp_writes C s .mode (by decide)
  rwa [h] at hmode

/-- FS.STEP leaves the bit buffer (R153). -/
theorem fsStepOp_bb {C : Chip} (h : fsStepOp C s = (t, r)) : t.bb = s.bb := by
  have hbits : (fsStepOp C s).1.bb = s.bb := fsStepOp_writes C s .bits (by decide)
  rwa [h] at hbits

end

/-- PIPE.NEXT where FS.STEP removes a frame answers as RA.FRAG on the frame's fragment, with bit 32 in the value (R235). -/
theorem pipeNext_runs_fragment {s : State} (hf : s.ses.fatal = 0) {ses : Session} {r : Response} {sf : Bool} {p : Bits}
    (hr : fsStepOp Config.chip s.ses = (ses, r)) (hok : r.status = Status.ok)
    (hfrag : fragmentOf Config.chip s.ses.fsMode r = (sf, p)) :
    ∃ ses' q v, exec (.raFrag sf p) { s with ses := ses } = done s ses' q ∧
      exec .pipeNext s = done s ses' { status := q.status, value := v, events := q.events } ∧
      (q.status ≠ 0x80 → v = q.value + 0x100000000) := by
  have hfatal := fsStepOp_fatal Config.chip s.ses
  rw [hr] at hfatal
  have hpipe : sessionOp Config.chip .pipeNext s.ses = _ := pipeNextOp_of_frame hr hok
  rw [fsStepOp_fsMode hr, hfrag] at hpipe
  refine ⟨_, _, _, exec_done _ (hfatal.trans hf), ?_, fun _ => rfl⟩
  rw [exec_done _ hf, hpipe]
  rfl

/-! ### The latch -/

/-- RA.FRAG that sets the latch does nothing else (R172, R262). -/
theorem raFragOp_latches {C : Chip} {sf : Bool} {p : Bits} {s : Session} (hf : s.fatal = 0)
    (h : (raFragOp C sf p s).1.fatal ≠ 0) : raFragOp C sf p s = raiseFatal s Status.bufferExhausted := by
  cases sf with
  | true =>
    by_cases hlong : C.bbCap < p.length
    · exact raStart_too_long hlong s
    · obtain ⟨hfatal, -⟩ := raStart_within (s := s) (not_lt.mp hlong)
      exact absurd (hfatal.trans hf) h
  | false =>
    rcases raContinue_cases C p s with ⟨-, e⟩ | ⟨-, -, e⟩ | ⟨hacc, hroom, -⟩
    · exact absurd ((congrArg (·.1.fatal) e).trans hf) h
    · exact e
    · obtain ⟨hfatal, -⟩ := raContinue_within (C := C) fun _ => hroom
      exact absurd (hfatal.trans hf) h

/-- PIPE.NEXT sets the latch only behind a broadcast frame that FS.STEP removed: an RTCM3 payload fits `BB_CAP` as a start
fragment. What FS.STEP did stays, and the value has bit 32 alone (R235, R262; log entry 10). -/
theorem pipeNextOp_latches {s : Session} (hf : s.fatal = 0) (h : (pipeNextOp Config.chip s).1.fatal ≠ 0) :
    ∃ t r, fsStepOp Config.chip s = (t, r) ∧ r.status = Status.ok ∧ s.fsMode = .l6 ∧
      pipeNextOp Config.chip s = ({ t with fatal := 0x80 }, { status := 0x80, value := 0x100000000 }) := by
  have hfatal := fsStepOp_fatal Config.chip s
  rcases hr : fsStepOp Config.chip s with ⟨t, r⟩
  rw [hr] at hfatal
  have ht : t.fatal = 0 := hfatal.trans hf
  by_cases hok : r.status = Status.ok
  · rw [pipeNextOp_of_frame hr hok, fsStepOp_fsMode hr] at h ⊢
    dsimp only at h ⊢
    cases hm : s.fsMode with
    | rtcm3 =>
      obtain ⟨b, hb, hlen⟩ := fsStepOp_ok_data_rtcm3 hm hr hok
      have hfits : (firstBits b (8 * b.length)).length ≤ Config.chip.bbCap := by
        rw [firstBits_all, length_bitsOf]
        exact (by omega : 8 * b.length ≤ 16384)
      rw [hm, fragmentOf_rtcm3 Config.chip hb] at h
      obtain ⟨hkept, -⟩ := raStart_within (s := t) hfits
      exact absurd (hkept.trans ht) h
    | l6 =>
      rw [hm] at h
      refine ⟨t, r, rfl, hok, rfl, ?_⟩
      simp only [raFragOp_latches ht h, raiseFatal_ses, raiseFatal_response, zero_add]
      rfl
  · rw [pipeNextOp_of_no_frame hr hok] at h
    exact absurd ht h

end Sys2Proof.Machine
end

section
/-!
The statements on the RTCM3 encoder and the pipeline: the encoded frame and its way back, and PIPE.NEXT as a composition.
-/

namespace Sys2Proof.PipelineFamily

open Sys2Proof.Machine Sys2Proof.Statements

/-- Settles O50: the frame of the model is the statement's, the length being the only test. -/
theorem rtcmFrameIsBuilt : Obligations.RtcmFrameIsBuilt := by
  refine ⟨encodes_rtcmEnc, fun p s hf => ?_⟩
  rw [exec_done _ hf, sessionOp, rtcmEncOp, rtcmFrame_eq_frameOf]
  by_cases hlong : p.length > 1023
  · rw [if_pos hlong, if_pos hlong]
    rfl
  · rw [if_neg hlong, if_neg hlong]
    rfl

/-- Settles O51: the encoded frame, pushed whole, is one that `fsStepOp_frameOf` finds at the front with nothing behind. -/
theorem rtcmRoundTrip : Obligations.RtcmRoundTrip := by
  intro p s hf hlen hm hempty
  obtain ⟨-, hbuilt⟩ := rtcmFrameIsBuilt
  have henc : exec (.rtcmEnc p) s =
      done s s.ses { status := 0x00, value := BitVec.ofNat 64 (p.length + 6), data := .bytes (frameOf p) } :=
    (hbuilt p s hf).trans (if_neg (not_lt.mpr hlen))
  have hroom : (frameOf p).length ≤ Config.chip.fsCap := by
    rw [length_frameOf]
    exact (by omega : p.length + 6 ≤ 4096)
  obtain ⟨u, hpush, hses⟩ := runAll_fsPush_append hf hempty hroom [.fsStep]
  have hstep := fsStepOp_frameOf (s := u.ses) (by rw [hses, hm]) (by rw [hses]) hlen
  have hexec := exec_run (s := u) .fsStep (by rw [hses, hf])
  rw [sessionOp, hstep] at hexec
  refine ⟨_, _, _, _, henc, rfl, rfl, hpush.trans (runBy_cons.mpr ⟨_, hexec, rfl⟩), ?_, rfl, ?_⟩
  · rw [State.reply_ses, hses, ← hempty]
  · rw [exec_done _ hf, sessionOp, crcVerifyOp, crcVerdict_frameOf]
    rfl

/-- Settles O52: by what FS.STEP answers, and where it removed a frame by the mode's fragment. -/
theorem pipeNextIsTheComposition : Obligations.PipeNextIsTheComposition := by
  refine ⟨encodes_pipeNext, fun s hf => (exec_blocked rfl hf).trans (exec_blocked rfl hf).symm, fun s hf => ?_⟩
  rcases hr : fsStepOp Config.chip s.ses with ⟨ses, r⟩
  refine ⟨ses, r, (exec_fsStep_iff hf).mpr hr, ?_⟩
  by_cases hok : r.status = 0x00
  · rw [if_neg (not_not.mpr hok)]
    have hruns := fun sf p => pipeNext_runs_fragment (sf := sf) (p := p) hf hr hok
    cases hm : s.ses.fsMode with
    | rtcm3 =>
      obtain ⟨b, hb, -⟩ := fsStepOp_ok_data_rtcm3 hm hr hok
      rw [hm] at hruns
      exact ⟨b, hb, hruns _ _ (fragmentOf_rtcm3 Config.chip hb)⟩
    | l6 =>
      obtain ⟨b, hb, hfrag⟩ := fsStepOp_ok_fragment_l6 hm hr hok
      rw [hm] at hruns
      exact ⟨b, hb, hruns _ _ hfrag⟩
  · rw [if_pos hok, exec_done _ hf, sessionOp, pipeNextOp_of_no_frame hr hok, raValue_eq_raNum]

/-- Settles O53: `pipeNextOp_latches`, with what FS.STEP did to the buffer, its state and the bits. -/
theorem pipeNextValueOnFatal : Obligations.PipeNextValueOnFatal := by
  intro s ses r hf h hlatch
  rw [exec_done _ hf, done_inj] at h
  obtain ⟨rfl, rfl⟩ := h
  obtain ⟨t, q, hr, hok, hm, hpipe⟩ := pipeNextOp_latches hf hlatch
  obtain ⟨g, F, hbuf, hF, -⟩ := fsStepOp_ok_l6 hm hr hok
  have hvalidated := fsStepOp_ok_fsState hr hok
  have hbits := fsStepOp_bb hr
  rw [sessionOp, hpipe]
  refine ⟨rfl, ?_, hvalidated, hbits⟩
  rw [hbuf, List.length_append, List.length_append, hF]
  exact (by omega : t.fsBuf.length + 250 ≤ g.length + 250 + t.fsBuf.length)

end Sys2Proof.PipelineFamily
end

section
/-!
SUPPORT. The gate by opcode, and the capacity tests as the only causes of the latch.
-/

namespace Sys2Proof.Machine

open Sys2Proof.Statements

/-! ### The gate by opcode -/

theorem opcode_eq_nop {i : Instr} : opcode i = 0x00 ↔ i = .nop := by
  rw [opcode_eq]
  cases i <;> simp [opNumber]

/-- Three opcodes stand before the gate (R105, R262). -/
theorem ungated_eq_false_iff {i : Instr} : ungated i = false ↔ opcode i ∉ [0x00, 0x01, 0x02] := by
  rw [opcode_eq]
  cases i <;> simp [opNumber, ungated]

/-! ### The capacity tests -/

section
variable {C : Chip} {s : Session} (hf : s.fatal = 0)
include hf

/-- BC.APPEND sets the latch only by its capacity test, and then does nothing else (R117, R262). -/
theorem appendOp_latches {p : Bits} (h : (appendOp C p s).1.fatal ≠ 0) :
    C.bbCap < s.bb.length + p.length ∧ (appendOp C p s).1 = { s with fatal := 0x80 } := by
  by_cases hover : s.bb.length + p.length > C.bbCap
  · rw [appendOp, if_pos hover]
    exact ⟨hover, rfl⟩
  · rw [appendOp, if_neg hover] at h
    exact absurd hf h

/-- FS.PUSH sets the latch only on a full buffer, and then does nothing else (R152, R262). -/
theorem fsPushOp_latches {b : Byte} (h : (fsPushOp C b s).1.fatal ≠ 0) :
    s.fsBuf.length = C.fsCap ∧ (fsPushOp C b s).1 = { s with fatal := 0x81 } := by
  by_cases hfull : s.fsBuf.length = C.fsCap
  · rw [fsPushOp, if_pos hfull]
    exact ⟨hfull, rfl⟩
  · rw [fsPushOp, if_neg hfull] at h
    exact absurd hf h

/-- RA.FRAG sets the latch only by the capacity test of its kind of fragment (R172). -/
theorem raFragOp_latches_over_capacity {sf : Bool} {p : Bits} (h : (raFragOp C sf p s).1.fatal ≠ 0) :
    (sf = true ∧ C.bbCap < p.length) ∨
    (sf = false ∧ s.raState = .accumulating ∧ C.bbCap < remBits s + p.length) := by
  cases sf with
  | true =>
    refine .inl ⟨rfl, not_le.mp fun hfits => ?_⟩
    obtain ⟨hkept, -⟩ := raStart_within (s := s) hfits
    exact h (hkept.trans hf)
  | false =>
    have hover : ¬(s.raState = .accumulating → remBits s + p.length ≤ C.bbCap) := fun hroom => by
      obtain ⟨hkept, -⟩ := raContinue_within hroom
      exact h (hkept.trans hf)
    obtain ⟨hacc, hlong⟩ := Classical.not_imp.mp hover
    exact .inr ⟨rfl, hacc, not_le.mp hlong⟩

end

/-- PIPE.NEXT sets the latch only by the capacity test of a continuation: the bits of one broadcast frame fit `BB_CAP` as a
start fragment (R172, R235, R236). -/
theorem pipeNextOp_latches_over_capacity {s : Session} (hf : s.fatal = 0)
    (h : (pipeNextOp Config.chip s).1.fatal ≠ 0) :
    s.fsMode = .l6 ∧ s.raState = .accumulating ∧ 16384 < remBits s + 1695 ∧ (pipeNextOp Config.chip s).1.fatal = 0x80 := by
  obtain ⟨t, r, hr, hok, hm, hpipe⟩ := pipeNextOp_latches hf h
  have hwrites := fsStepOp_writes Config.chip s
  rw [hr] at hwrites
  have hbits : t.bb = s.bb := hwrites .bits (by decide)
  have hpos : t.bbPos = s.bbPos := hwrites .cursor (by decide)
  have hfatal : t.fatal = s.fatal := hwrites .latch (by decide)
  obtain ⟨hst, -⟩ : Element.Same s t .reassembler := hwrites .reassembler (by decide)
  obtain ⟨sf, p, v, hlen, e⟩ := pipeNextOp_l6 hr hok ((fsStepOp_fsMode hr).trans hm)
  have hlen : p.length ≤ 1695 := hlen
  have hlatch : (raFragOp Config.chip sf p t).1.fatal ≠ 0 := by rwa [e] at h
  refine ⟨hm, ?_⟩
  rcases raFragOp_latches_over_capacity (hfatal.trans hf) hlatch with ⟨-, hlong⟩ | ⟨-, hacc, hover⟩
  · have hlong : 16384 < p.length := hlong
    omega
  · have hover : 16384 < remBits t + p.length := hover
    rw [remBits, hbits, hpos, ← remBits] at hover
    exact ⟨hst ▸ hacc, by omega, congrArg (·.1.fatal) hpipe⟩

end Sys2Proof.Machine
end

section
/-!
SUPPORT. What a command without input of its own does when it is given again behind its NEED_MORE_DATA.
-/

namespace Sys2Proof.Machine

open Sys2Proof.Statements

/-! ### What a retry asks for -/

/-- What R251 asks of an operation that answers NEED_MORE_DATA on `s`: on the session it leaves it answers the same without
events and changes nothing. -/
def RetriesAlike (op : Session → Reply) (s : Session) : Prop :=
  (op s).2.status = Status.needMoreData → op (op s).1 = ((op s).1, { (op s).2 with events := [] })

/-- An operation whose NEED_MORE_DATA says nothing else and leaves a session on which it answers as before. -/
theorem retriesAlike_of_answer {op : Session → Reply} {s t : Session}
    (h : (op s).2.status = Status.needMoreData → op s = answer t Status.needMoreData) (hagain : op t = op s) :
    RetriesAlike op s := by
  intro hw
  have e := h hw
  rw [e, answer_ses, hagain, e]
  rfl

/-! ### Unit by unit -/

theorem boundedRead_waits {n : Nat} {s : Session} {ok : Reply} (hok : ok.2.status = Status.ok)
    (hw : (boundedRead n s ok).2.status = Status.needMoreData) :
    boundedRead n s ok = answer s Status.needMoreData := by
  rcases boundedRead_cases n s ok with ⟨-, e⟩ | ⟨-, -, -, e⟩ | ⟨-, -, -, e⟩
  · rw [e] at hw
    cases hw
  · exact e
  · rw [e, hok] at hw
    cases hw

theorem skipOp_waits {n : Nat} {s : Session} (hw : (skipOp n s).2.status = Status.needMoreData) :
    skipOp n s = answer s Status.needMoreData := by
  by_cases hrem : n > remBits s
  · exact if_pos hrem
  · rw [skipOp, if_neg hrem] at hw
    cases hw

/-- FS.STEP reports no events (R153). -/
theorem fsStepOp_events (C : Chip) (s : Session) : (fsStepOp C s).2.events = [] := by
  obtain ⟨buf, -, ⟨-, e⟩ | ⟨-, -, e⟩ | ⟨-, -, -, e⟩ | ⟨-, -, -, e⟩⟩ := fsStepOp_cases C s <;> rw [e] <;> rfl

theorem fsStepOp_retriesAlike (C : Chip) (s : Session) : RetriesAlike (fsStepOp C) s := by
  intro hw
  have hevents := fsStepOp_events C s
  rcases hr : fsStepOp C s with ⟨t, r⟩
  rw [hr] at hw hevents
  rw [fsStepOp_waits_again hr hw, ← hevents]

theorem normalize_normalize (s : Session) : normalize (normalize s) = normalize s := normalize_of_pos_zero rfl

theorem decHeadOp_retriesAlike (s : Session) : RetriesAlike decHeadOp s := fun _ => by
  rw [decHeadOp_ses, decHeadOp_eq (normalize s), normalize_normalize, decHeadOp_eq s]

/-- DEC.ST1 reads the bits behind the cursor alone (R202). -/
theorem decSt1Op_normalize (s : Session) : decSt1Op (normalize s) = decSt1Op s := by
  simp only [decSt1Op, normalize_normalize]

/-- A failure of DEC.ST1 says its code alone and drops nothing (R202). -/
theorem decSt1Op_fails {s : Session} (h : (decSt1Op s).2.status ≠ Status.ok) :
    decSt1Op s = answer (normalize s) (decSt1Op s).2.status := by
  by_cases hhead : headCode (headAt (normalize s).bb) = Status.ok
  · obtain ⟨hd, hh⟩ := verdict_ok_iff.mp ((verdict_code _).trans hhead)
    by_cases hsub : hd.subtype = 1
    · cases hst : st1At (normalize s).bb with
      | error c => rw [decSt1Op_error hh hsub hst]; rfl
      | ok m => rw [decSt1Op_ok hh hsub hst] at h; exact absurd rfl h
    · rw [decSt1Op_wrong_subtype hh hsub]; rfl
  · rw [decSt1Op_no_head hhead]; rfl

theorem decSt1Op_retriesAlike (s : Session) : RetriesAlike decSt1Op s :=
  retriesAlike_of_answer
    (fun hw => hw ▸ decSt1Op_fails (hw.trans_ne (by decide : Status.needMoreData ≠ Status.ok)))
    (decSt1Op_normalize s)

/-- DEC.DRAIN returns how many bits it leaves (R208). -/
theorem decDrainOp_response (C : Chip) (s : Session) : (decDrainOp C s).2 =
    { status := (decDrainOp C s).2.status, value := BitVec.ofNat 64 (decDrainOp C s).1.bb.length,
      events := (decDrainOp C s).2.events } := rfl

theorem decDrainOp_retriesAlike (C : Chip) (s : Session) : RetriesAlike (decDrainOp C) s := by
  intro hw
  obtain ⟨hpos, -, -, -, hstays⟩ := decDrainOp_leaves C s
  have hpass := hstays hw
  rw [← normalize_of_pos_zero hpos] at hpass
  rw [decDrainOp_stop hpass, normalize_of_pos_zero hpos, decDrainOp_response C s, hw]
  rfl

/-! ### Every such command -/

/-- Every command without input of its own can be given again behind its NEED_MORE_DATA (R251). -/
theorem sessionOp_retriesAlike {i : Instr} (hop : opcode i ∈ [0x10, 0x11, 0x12, 0x13, 0x31, 0x50, 0x51, 0x52])
    (C : Chip) (s : Session) : RetriesAlike (sessionOp C i) s := by
  rw [opcode_eq] at hop
  cases i with
  | bcPeek | bcRdu | bcRds => exact retriesAlike_of_answer (t := s) (boundedRead_waits rfl) rfl
  | bcSkip => exact retriesAlike_of_answer (t := s) skipOp_waits rfl
  | fsStep => exact fsStepOp_retriesAlike C s
  | decHead => exact decHeadOp_retriesAlike s
  | decSt1 => exact decSt1Op_retriesAlike s
  | decDrain => exact decDrainOp_retriesAlike C s
  | _ => simp [opNumber] at hop

end Sys2Proof.Machine
end

section
/-!
The statements on exceptions: the fatal latch, its gate and its causes, retries, and the idle step.
-/

namespace Sys2Proof.ExceptionFamily

open Sys2Proof.Machine Sys2Proof.Statements

/-- Settles O19: only a command with the latch in its write set can set it; RESET clears it, and each of the others sets it
by its capacity test. -/
theorem fatalOnlyFromCapacity : Obligations.FatalOnlyFromCapacity := by
  intro i s t h hf hlatch
  have hses : t.ses = (sessionOp Config.chip i s.ses).1 := by
    rw [exec_run i hf] at h
    cases h
    rfl
  rw [hses] at hlatch ⊢
  have hwriter : .latch ∈ writeSet i := by
    by_contra hmem
    have hkept : (sessionOp Config.chip i s.ses).1.fatal = s.ses.fatal := sessionOp_writes Config.chip i s.ses .latch hmem
    exact hlatch (hkept.trans hf)
  cases i with
  | bcAppend p =>
    obtain ⟨hover, e⟩ := appendOp_latches hf hlatch
    exact .inl ⟨p, rfl, hover, e⟩
  | raFrag sf p =>
    have e : (raFragOp Config.chip sf p s.ses).1 = { s.ses with fatal := 0x80 } :=
      congrArg Prod.fst (raFragOp_latches hf hlatch)
    rcases raFragOp_latches_over_capacity hf hlatch with ⟨rfl, hover⟩ | ⟨rfl, hacc, hover⟩
    · exact .inr (.inl ⟨p, rfl, hover, e⟩)
    · exact .inr (.inr (.inl ⟨p, rfl, hacc, hover, e⟩))
  | fsPush b =>
    obtain ⟨hfull, e⟩ := fsPushOp_latches hf hlatch
    exact .inr (.inr (.inr (.inl ⟨b, rfl, hfull, e⟩)))
  | pipeNext => exact .inr (.inr (.inr (.inr ⟨rfl, pipeNextOp_latches_over_capacity hf hlatch⟩)))
  | reset => exact absurd rfl hlatch
  | _ => simp [writeSet] at hwriter

/-- Settles O43: the latch is still clear behind the answer, so the command runs again, on the session it left. -/
theorem retryChangesNothing : Obligations.RetryChangesNothing := by
  intro i s ses r hop hf h hw
  have hnonwriter : ∀ n ∈ [0x10, 0x11, 0x12, 0x13, 0x31, 0x50, 0x51, 0x52], n ∉ writers .latch := by decide
  have hlatch : ses.fatal = s.ses.fatal := exec_same h .latch (hnonwriter _ hop)
  rw [exec_done i hf, done_inj] at h
  obtain ⟨rfl, rfl⟩ := h
  rw [exec_done (s := { s with ses := _ }) i (hlatch.trans hf), sessionOp_retriesAlike hop Config.chip s.ses hw]

/-- Settles O2: the one branch of a step whose port is empty. -/
theorem idleStepKeepsAllState : Obligations.IdleStepKeepsAllState := by
  intro s hidle
  rw [step_eq_stepFor]
  rcases stepFor_cases Config.chip s with ⟨-, e⟩ | ⟨c, rest, hpending, -⟩
  · exact e
  · rw [hidle] at hpending
    cases hpending

/-- Settles O18: NOP stands before the gate, every other command but RESET and RDREG behind it. -/
theorem fatalGate : Obligations.FatalGate := by
  intro i s hlatch hop
  by_cases hnop : opcode i = 0x00
  · obtain rfl := opcode_eq_nop.mp hnop
    exact exec_ungated rfl s
  · rw [if_neg hnop]
    have hgated : ungated i = false := ungated_eq_false_iff.mpr (List.not_mem_cons_of_ne_of_not_mem hnop hop)
    exact exec_blocked hgated hlatch

end Sys2Proof.ExceptionFamily
end
